-- ==== Sys2Proof/Word.lean ====
section
/-! DEFINITION. The word types of the RD-CABAC unit: command words, RESULT and STATUS are 32 bits
(30_encoding R53), BUF is a sequence of bytes (20_memory R37), a context index is 10 bits (00_scope R7). -/

namespace Sys2Proof

/-- A command word, and the width of RESULT and STATUS (R53). -/
abbrev Word := BitVec 32

/-- One byte of BUF (R37). -/
abbrev Byte := BitVec 8

/-- A context index, 0 to 1023 (R7, R40): every value of the type is an index of the context memory. -/
abbrev CtxIdx := BitVec 10

end Sys2Proof
end

