-- ==== Sys2Proof/Syntax.lean ====
section
/-! DEFINITION. The commands of the unit, one constructor for each row of spec/opcode_table.json, with their
operands as the rules name them (30_encoding R54 to R63). Codes that the spec reserves are kept, each with its
code, because a word that holds one is a defined command whose own rule rejects it (R65, R71). -/

namespace Sys2Proof

/-- The normalised slice_type in CINIT's SLT field (41_engine R74). Codes 5 to 7 are illegal operands (R65 c). -/
inductive SliceType where
  | p | b | i | sp | si
  | reserved (code : BitVec 3)
deriving DecidableEq, Repr

/-- ctxBlockCat, CSEL's CAT field (30_encoding R63): six categories, and the codes 6 and 7 that stand for the
4:4:4 Cb and Cr categories the unit does not support. -/
inductive BlockCat where
  | intra16x16DC | intra16x16AC | luma4x4 | chromaDC | chromaAC | luma8x8
  | cat6 | cat7
deriving DecidableEq, Repr

/-- The syntax element that CSEL's SE field selects (30_encoding R62): codes 0 to 13 admitted, 16 to 25
unsupported, 14, 15 and 26 to 31 reserved. -/
inductive SyntaxElement where
  | mbTypeI | transform8x8 | prevIntraFlag | remIntraMode | chromaPred | cbpLuma | cbpChroma | mbQpDelta
  | cbf | sig | last | absLevel | sign | endOfSlice
  | mbSkip | mbTypeP | mbTypeB | subMbType | mvd | refIdx | mbField | sigField | lastField | mbTypeSi
  | reserved (code : BitVec 5)
deriving DecidableEq, Repr

/-- LVLACC's G field (30_encoding R59): the level just decoded has absolute value 1, or greater than 1. -/
inductive LevelClass where
  | eq1 | gt1
deriving DecidableEq, Repr

/-- A command. `idc`, `qbd` and `idx` are unsigned fields, `sqd` and `piq` the sign-extended ones (R61). -/
inductive Instr where
  /-- CINIT: slice type, cabac_init_idc, QpBdOffsetY, slice_qp_delta, pic_init_qp_minus26 (R76). -/
  | cinit (slt : SliceType) (idc : Nat) (qbd : Nat) (sqd : Int) (piq : Int)
  /-- EINIT (R77). -/
  | einit
  /-- DEC k: DecodeDecision on ctx[k] (R83 with S = 0). -/
  | dec (k : CtxIdx)
  /-- DEC.S: DecodeDecision on ctx[SELCTX] (R83 with S = 1). -/
  | decS
  /-- BYP (R86). -/
  | byp
  /-- TRM (R87). -/
  | trm
  /-- CSEL: syntax element, block category, bin or list index, condTermFlagA and B, bin b3 of mb_type, chroma
  DC size (R58, R102). -/
  | csel (se : SyntaxElement) (cat : BlockCat) (idx : Nat) (a b x c : Bool)
  /-- LVLRST (R123). -/
  | lvlrst
  /-- LVLACC (R124). -/
  | lvlacc (g : LevelClass)
  /-- RDCTX k (R141). -/
  | rdctx (k : CtxIdx)
  /-- RDENG (R142). -/
  | rdeng
deriving DecidableEq, Repr

end Sys2Proof
end

