-- ==== Sys2Proof/WellFormed.lean ====
section
/-! DEFINITION. The instructions that a command word can hold: every operand fits its field (R56, R58), and a
reserved operand carries a code that is indeed reserved (R56, R62). Whether the operand is LEGAL is another matter,
checked by the command's own rule (R71). -/

namespace Sys2Proof

/-- Codes 5 to 7 are the reserved ones of SLT (R56). -/
def SliceType.wellFormed : SliceType → Bool
  | .reserved code => 5 ≤ code.toNat
  | .p | .b | .i | .sp | .si => true

/-- Codes 14, 15 and 26 to 31 are the reserved ones of SE (R62). -/
def SyntaxElement.wellFormed : SyntaxElement → Bool
  | .reserved code => code.toNat == 14 || code.toNat == 15 || 26 ≤ code.toNat
  | .mbTypeI | .transform8x8 | .prevIntraFlag | .remIntraMode | .chromaPred | .cbpLuma | .cbpChroma | .mbQpDelta
  | .cbf | .sig | .last | .absLevel | .sign | .endOfSlice
  | .mbSkip | .mbTypeP | .mbTypeB | .subMbType | .mvd | .refIdx | .mbField | .sigField | .lastField
  | .mbTypeSi => true

/-- Whether `v` fits an 8-bit two's-complement field (R61). -/
def fitsSigned8 (v : Int) : Bool := -128 ≤ v && v ≤ 127

/-- Every operand fits its field. -/
def Instr.wellFormed : Instr → Bool
  | .cinit slt idc qbd sqd piq =>
      slt.wellFormed && idc < 4 && qbd < 128 && fitsSigned8 sqd && fitsSigned8 piq
  | .csel se _ idx _ _ _ _ => se.wellFormed && idx < 64
  | .einit | .dec _ | .decS | .byp | .trm | .lvlrst | .lvlacc _ | .rdctx _ | .rdeng => true

end Sys2Proof
end

