-- ==== Sys2Proof/Decode.lean ====
section
/-! DEFINITION. Decoding a command word (30_encoding R54 to R65, R71), total on any word and rejecting by name,
and after it the encoder. A command word is a value, not bytes in memory (R53). -/

namespace Sys2Proof

/-- `w[hi:lo]` read as an unsigned number (00_scope R8). -/
def bits (w : Word) (hi lo : Nat) : Nat := w.toNat / 2 ^ lo % 2 ^ (hi + 1 - lo)

/-- `w[i]`. -/
def bitOf (w : Word) (i : Nat) : Bool := bits w i i == 1

/-- An 8-bit field read as two's complement: `v - 256 * v[7]` (R61). -/
def signed8 (v : Nat) : Int := (v : Int) - 256 * ((v / 128 : Nat) : Int)

/-- An 8-bit two's-complement field that holds `v`. -/
def field8 (v : Int) : Nat := (v % 256).toNat

/-- The ten defined opcodes (R54); DEC and DEC.S share one. -/
inductive Opcode where
  | cinit | einit | dec | byp | trm | csel | lvlrst | lvlacc | rdctx | rdeng
deriving DecidableEq, Repr

/-- The table of R54: OP 0x0 and 0xB to 0xF are reserved. -/
def opcodeOf : Nat → Option Opcode
  | 1 => some .cinit
  | 2 => some .einit
  | 3 => some .dec
  | 4 => some .byp
  | 5 => some .trm
  | 6 => some .csel
  | 7 => some .lvlrst
  | 8 => some .lvlacc
  | 9 => some .rdctx
  | 10 => some .rdeng
  | _ => none

/-- The opcode of a word, bits 31:28 (R54). -/
def wordOpcode (w : Word) : Option Opcode := opcodeOf (bits w 31 28)

/-- The number of an opcode (R54). -/
def Opcode.number : Opcode → Nat
  | .cinit => 1
  | .einit => 2
  | .dec => 3
  | .byp => 4
  | .trm => 5
  | .csel => 6
  | .lvlrst => 7
  | .lvlacc => 8
  | .rdctx => 9
  | .rdeng => 10

/-- SLT, R56 and R74. -/
def sliceTypeOf : Nat → SliceType
  | 0 => .p
  | 1 => .b
  | 2 => .i
  | 3 => .sp
  | 4 => .si
  | n => .reserved (BitVec.ofNat 3 n)

/-- The code of a slice type. -/
def SliceType.code : SliceType → Nat
  | .p => 0
  | .b => 1
  | .i => 2
  | .sp => 3
  | .si => 4
  | .reserved code => code.toNat

/-- CAT, R63. -/
def blockCatOf : Nat → BlockCat
  | 0 => .intra16x16DC
  | 1 => .intra16x16AC
  | 2 => .luma4x4
  | 3 => .chromaDC
  | 4 => .chromaAC
  | 5 => .luma8x8
  | 6 => .cat6
  | _ => .cat7

/-- The code of a block category. -/
def BlockCat.code : BlockCat → Nat
  | .intra16x16DC => 0
  | .intra16x16AC => 1
  | .luma4x4 => 2
  | .chromaDC => 3
  | .chromaAC => 4
  | .luma8x8 => 5
  | .cat6 => 6
  | .cat7 => 7

/-- SE, R62. -/
def syntaxElementOf : Nat → SyntaxElement
  | 0 => .mbTypeI
  | 1 => .transform8x8
  | 2 => .prevIntraFlag
  | 3 => .remIntraMode
  | 4 => .chromaPred
  | 5 => .cbpLuma
  | 6 => .cbpChroma
  | 7 => .mbQpDelta
  | 8 => .cbf
  | 9 => .sig
  | 10 => .last
  | 11 => .absLevel
  | 12 => .sign
  | 13 => .endOfSlice
  | 16 => .mbSkip
  | 17 => .mbTypeP
  | 18 => .mbTypeB
  | 19 => .subMbType
  | 20 => .mvd
  | 21 => .refIdx
  | 22 => .mbField
  | 23 => .sigField
  | 24 => .lastField
  | 25 => .mbTypeSi
  | n => .reserved (BitVec.ofNat 5 n)

/-- The code of a syntax element. -/
def SyntaxElement.code : SyntaxElement → Nat
  | .mbTypeI => 0
  | .transform8x8 => 1
  | .prevIntraFlag => 2
  | .remIntraMode => 3
  | .chromaPred => 4
  | .cbpLuma => 5
  | .cbpChroma => 6
  | .mbQpDelta => 7
  | .cbf => 8
  | .sig => 9
  | .last => 10
  | .absLevel => 11
  | .sign => 12
  | .endOfSlice => 13
  | .mbSkip => 16
  | .mbTypeP => 17
  | .mbTypeB => 18
  | .subMbType => 19
  | .mvd => 20
  | .refIdx => 21
  | .mbField => 22
  | .sigField => 23
  | .lastField => 24
  | .mbTypeSi => 25
  | .reserved code => code.toNat

/-- LVLACC's G, R59. -/
def levelClassOf (g : Bool) : LevelClass := if g then .gt1 else .eq1

/-- The bit of a level class. -/
def LevelClass.code : LevelClass → Nat
  | .eq1 => 0
  | .gt1 => 1

/-- Why a word is no command: its opcode is undefined (R64), or a bit its format marks "must be 0" is 1, or S = 1
with CTX not 0 (R65 a, b). -/
inductive DecodeError where
  | illegalCommand
  | illegalOperand
deriving DecidableEq, Repr

/-- Format N: bits 27:0 must be 0 (R55). -/
def formatN (w : Word) (i : Instr) : Except DecodeError Instr :=
  if bits w 27 0 = 0 then .ok i else .error .illegalOperand

/-- Format I (R56): no must-be-0 bits. -/
def formatI (w : Word) : Except DecodeError Instr :=
  .ok (.cinit (sliceTypeOf (bits w 27 25)) (bits w 24 23) (bits w 22 16) (signed8 (bits w 15 8))
    (signed8 (bits w 7 0)))

/-- Format D (R57): bits 26:10 must be 0, and CTX must be 0 when S = 1. -/
def formatD (w : Word) : Except DecodeError Instr :=
  if bits w 26 10 ≠ 0 then .error .illegalOperand
  else if bitOf w 27 then
    if bits w 9 0 = 0 then .ok .decS else .error .illegalOperand
  else .ok (.dec (BitVec.ofNat 10 (bits w 9 0)))

/-- Format S (R58): bits 9:0 must be 0. -/
def formatS (w : Word) : Except DecodeError Instr :=
  if bits w 9 0 = 0 then
    .ok (.csel (syntaxElementOf (bits w 27 23)) (blockCatOf (bits w 22 20)) (bits w 19 14)
      (bitOf w 13) (bitOf w 12) (bitOf w 11) (bitOf w 10))
  else .error .illegalOperand

/-- Format L (R59): bits 27:1 must be 0. -/
def formatL (w : Word) : Except DecodeError Instr :=
  if bits w 27 1 = 0 then .ok (.lvlacc (levelClassOf (bitOf w 0))) else .error .illegalOperand

/-- Format R (R60): bits 27:10 must be 0. -/
def formatR (w : Word) : Except DecodeError Instr :=
  if bits w 27 10 = 0 then .ok (.rdctx (BitVec.ofNat 10 (bits w 9 0))) else .error .illegalOperand

/-- The command a word holds (R71). -/
def decodeWord (w : Word) : Except DecodeError Instr :=
  match wordOpcode w with
  | none => .error .illegalCommand
  | some .cinit => formatI w
  | some .einit => formatN w .einit
  | some .dec => formatD w
  | some .byp => formatN w .byp
  | some .trm => formatN w .trm
  | some .csel => formatS w
  | some .lvlrst => formatN w .lvlrst
  | some .lvlacc => formatL w
  | some .rdctx => formatR w
  | some .rdeng => formatN w .rdeng

/-- A 32-bit word whose bits are `w`, numbered as spec/opcode_table.json numbers them, the bits above `nbits` zero. -/
def tableWord (nbits w : Nat) : Word := BitVec.ofNat 32 (w % 2 ^ nbits)

/-- The instruction the decoder reads from a row's word (the host's question). -/
def decodeTableWord (nbits w : Nat) : Option Instr :=
  match decodeWord (tableWord nbits w) with
  | .ok i => some i
  | .error _ => none

/-- The opcode of a command (R54). -/
def Instr.opcode : Instr → Opcode
  | .cinit _ _ _ _ _ => .cinit
  | .einit => .einit
  | .dec _ => .dec
  | .decS => .dec
  | .byp => .byp
  | .trm => .trm
  | .csel _ _ _ _ _ _ _ => .csel
  | .lvlrst => .lvlrst
  | .lvlacc _ => .lvlacc
  | .rdctx _ => .rdctx
  | .rdeng => .rdeng

/-- The operand bits 27:0 of a command's word, from the format tables R55 to R60. -/
def Instr.operandBits : Instr → Nat
  | .cinit slt idc qbd sqd piq =>
      slt.code * 2 ^ 25 + idc * 2 ^ 23 + qbd * 2 ^ 16 + field8 sqd * 2 ^ 8 + field8 piq
  | .dec k => k.toNat
  | .decS => 2 ^ 27
  | .csel se cat idx a b x c =>
      se.code * 2 ^ 23 + cat.code * 2 ^ 20 + idx * 2 ^ 14 + a.toNat * 2 ^ 13 + b.toNat * 2 ^ 12
        + x.toNat * 2 ^ 11 + c.toNat * 2 ^ 10
  | .lvlacc g => g.code
  | .rdctx k => k.toNat
  | .einit | .byp | .trm | .lvlrst | .rdeng => 0

/-- The word of a well-formed command (R54 to R60). -/
def encode (i : Instr) : Word := BitVec.ofNat 32 (i.opcode.number * 2 ^ 28 + i.operandBits)

end Sys2Proof
end

