-- ==== Sys2Proof/Machine/Table.lean ====
section
/-! DEFINITION. A table with one entry for every index of `w` bits: the shape of the context memory (R23), of
CTX_INIT_MN (R178) and of the engine's constant tables (20_memory R41). The length is carried by a proof, so a read or a
write is always in range ("an index is always 10 bits wide ..., so no out-of-range index can occur", R40). -/

namespace Sys2Proof

/-- 2^w entries, index 0 first. Equal tables are equal lists. -/
structure Table (w : Nat) (α : Type) where
  entries : List α
  size_eq : entries.length = 2 ^ w
deriving DecidableEq, Repr

/-- Entry `i`. -/
def Table.get {w : Nat} {α : Type} (t : Table w α) (i : BitVec w) : α :=
  t.entries[i.toNat]'(t.size_eq.symm ▸ i.isLt)

/-- The table with entry `i` replaced and every other entry kept. -/
def Table.set {w : Nat} {α : Type} (t : Table w α) (i : BitVec w) (x : α) : Table w α :=
  ⟨t.entries.set i.toNat x, List.length_set.trans t.size_eq⟩

/-- The table that holds `x` at every index. -/
def Table.fill {w : Nat} {α : Type} (x : α) : Table w α :=
  ⟨List.replicate (2 ^ w) x, List.length_replicate⟩

/-- The table whose entry `i` is `f i`. -/
def Table.ofFn {w : Nat} {α : Type} (f : BitVec w → α) : Table w α :=
  ⟨(List.range (2 ^ w)).map fun i => f (BitVec.ofNat w i), List.length_map _ |>.trans List.length_range⟩

/-- The table whose entry `i` is `f` of this table's entry `i`. -/
def Table.map {w : Nat} {α β : Type} (f : α → β) (t : Table w α) : Table w β :=
  ⟨t.entries.map f, (List.length_map f).trans t.size_eq⟩

end Sys2Proof
end

