-- ==== Sys2Proof/Machine/Tables.lean ====
section
/-! DEFINITION. The constant tables of the unit (20_memory R41) as an argument of the model (00_scope R7, 93 U5), and the
values that the spec intends for them (41_engine R80 to R82, 42_context_select R104 to R106; log 6). -/

namespace Sys2Proof.Machine

open Sys2Proof

/-! ## Their shape -/

/-- ctxIdxOffset of each admitted syntax element (R104), the residual ones with a second offset for CAT 5. -/
structure OffsetTable where
  mbTypeI : Nat
  transform8x8 : Nat
  prevIntraFlag : Nat
  remIntraMode : Nat
  chromaPred : Nat
  cbpLuma : Nat
  cbpChroma : Nat
  mbQpDelta : Nat
  cbf : Nat
  cbfCat5 : Nat
  sig : Nat
  sigCat5 : Nat
  last : Nat
  lastCat5 : Nat
  absLevel : Nat
  absLevelCat5 : Nat
  /-- The index that a terminate bin reports (R103, R104). -/
  endOfSlice : Nat
deriving DecidableEq, Repr

/-- One row of ctxBlockCatOffset (R105): one offset for each category that the unit supports. -/
structure CatTable where
  intra16x16DC : Nat
  intra16x16AC : Nat
  luma4x4 : Nat
  chromaDC : Nat
  chromaAC : Nat
  luma8x8 : Nat
deriving DecidableEq, Repr

/-- The constant tables (R41), CTX_INIT_MN apart. -/
structure ConstTables where
  /-- RANGE_TAB_LPS: 64 rows, one for each pStateIdx, of 4 columns (R7, R80). -/
  rangeTabLPS : Table 6 (Table 2 (BitVec 8))
  /-- TRANS_IDX_LPS: the next pStateIdx after an LPS (R81). -/
  transIdxLPS : Table 6 (BitVec 6)
  /-- TRANS_IDX_MPS: the next pStateIdx after an MPS (R82). -/
  transIdxMPS : Table 6 (BitVec 6)
  /-- R104. -/
  ctxIdxOffset : OffsetTable
  /-- ctxBlockCatOffset of coded_block_flag (R105). -/
  cbfCatOffset : CatTable
  /-- ctxBlockCatOffset of significant_coeff_flag and last_significant_coeff_flag (R105). -/
  sigCatOffset : CatTable
  /-- ctxBlockCatOffset of coeff_abs_level_minus1 (R105). -/
  absCatOffset : CatTable
  /-- SIG8x8_FRAME, levelListIdx 0 to 62 (R106). -/
  sig8x8 : Vector Nat 63
  /-- LAST8x8, levelListIdx 0 to 62 (R106). -/
  last8x8 : Vector Nat 63
deriving DecidableEq, Repr

/-! ## The values intended for them -/

/-- One row of RANGE_TAB_LPS. -/
def rangeRow (q0 q1 q2 q3 : BitVec 8) : Table 2 (BitVec 8) := ⟨[q0, q1, q2, q3], rfl⟩

/-- RANGE_TAB_LPS, rows 0 to 15 (R80). -/
def rangeRows0 : List (Table 2 (BitVec 8)) :=
  [rangeRow 128 176 208 240, rangeRow 128 167 197 227, rangeRow 128 158 187 216, rangeRow 123 150 178 205,
   rangeRow 116 142 169 195, rangeRow 111 135 160 185, rangeRow 105 128 152 175, rangeRow 100 122 144 166,
   rangeRow 95 116 137 158, rangeRow 90 110 130 150, rangeRow 85 104 123 142, rangeRow 81 99 117 135,
   rangeRow 77 94 111 128, rangeRow 73 89 105 122, rangeRow 69 85 100 116, rangeRow 66 80 95 110]

/-- RANGE_TAB_LPS, rows 16 to 31 (R80). -/
def rangeRows16 : List (Table 2 (BitVec 8)) :=
  [rangeRow 62 76 90 104, rangeRow 59 72 86 99, rangeRow 56 69 81 94, rangeRow 53 65 77 89,
   rangeRow 51 62 73 85, rangeRow 48 59 69 80, rangeRow 46 56 66 76, rangeRow 43 53 63 72,
   rangeRow 41 50 59 69, rangeRow 39 48 56 65, rangeRow 37 45 54 62, rangeRow 35 43 51 59,
   rangeRow 33 41 48 56, rangeRow 32 39 46 53, rangeRow 30 37 43 50, rangeRow 29 35 41 48]

/-- RANGE_TAB_LPS, rows 32 to 47 (R80). -/
def rangeRows32 : List (Table 2 (BitVec 8)) :=
  [rangeRow 27 33 39 45, rangeRow 26 31 37 43, rangeRow 24 30 35 41, rangeRow 23 28 33 39,
   rangeRow 22 27 32 37, rangeRow 21 26 30 35, rangeRow 20 24 29 33, rangeRow 19 23 27 31,
   rangeRow 18 22 26 30, rangeRow 17 21 25 28, rangeRow 16 20 23 27, rangeRow 15 19 22 25,
   rangeRow 14 18 21 24, rangeRow 14 17 20 23, rangeRow 13 16 19 22, rangeRow 12 15 18 21]

/-- RANGE_TAB_LPS, rows 48 to 63 (R80). -/
def rangeRows48 : List (Table 2 (BitVec 8)) :=
  [rangeRow 12 14 17 20, rangeRow 11 14 16 19, rangeRow 11 13 15 18, rangeRow 10 12 15 17,
   rangeRow 10 12 14 16, rangeRow 9 11 13 15, rangeRow 9 11 12 14, rangeRow 8 10 12 14,
   rangeRow 8 9 11 13, rangeRow 7 9 11 12, rangeRow 7 9 10 12, rangeRow 7 8 10 11,
   rangeRow 6 8 9 11, rangeRow 6 7 9 10, rangeRow 6 7 8 9, rangeRow 2 2 2 2]

/-- TRANS_IDX_LPS (R81), 16 entries a row. -/
def transLpsTable : List (BitVec 6) :=
  [0, 0, 1, 2, 2, 4, 4, 5, 6, 7, 8, 9, 9, 11, 11, 12] ++
  [13, 13, 15, 15, 16, 16, 18, 18, 19, 19, 21, 21, 22, 22, 23, 24] ++
  [24, 25, 26, 26, 27, 27, 28, 29, 29, 30, 30, 30, 31, 32, 32, 33] ++
  [33, 33, 34, 34, 35, 35, 35, 36, 36, 36, 37, 37, 37, 38, 38, 63]

/-- SIG8x8_FRAME (R106), 16 entries a row. -/
def sig8x8Table : List Nat :=
  [0, 1, 2, 3, 4, 5, 5, 4, 4, 3, 3, 4, 4, 4, 5, 5] ++
  [4, 4, 4, 4, 3, 3, 6, 7, 7, 7, 8, 9, 10, 9, 8, 7] ++
  [7, 6, 11, 12, 13, 11, 6, 7, 8, 9, 14, 10, 9, 8, 6, 11] ++
  [12, 13, 11, 6, 9, 14, 10, 9, 11, 12, 13, 11, 14, 10, 12]

/-- LAST8x8 (R106), 16 entries a row. -/
def last8x8Table : List Nat :=
  [0, 1, 1, 1, 1, 1, 1, 1, 1, 1, 1, 1, 1, 1, 1, 1] ++
  [2, 2, 2, 2, 2, 2, 2, 2, 2, 2, 2, 2, 2, 2, 2, 2] ++
  [3, 3, 3, 3, 3, 3, 3, 3, 4, 4, 4, 4, 4, 4, 4, 4] ++
  [5, 5, 5, 5, 6, 6, 6, 6, 7, 7, 7, 7, 8, 8, 8]

/-- ctxIdxOffset as R104 gives it. -/
def offsetTable : OffsetTable where
  mbTypeI := 3
  transform8x8 := 399
  prevIntraFlag := 68
  remIntraMode := 69
  chromaPred := 64
  cbpLuma := 73
  cbpChroma := 77
  mbQpDelta := 60
  cbf := 85
  cbfCat5 := 1012
  sig := 105
  sigCat5 := 402
  last := 166
  lastCat5 := 417
  absLevel := 227
  absLevelCat5 := 426
  endOfSlice := 276

/-- The tables with the values that the spec intends for them (R80 to R82, R104 to R106; log 6). -/
def intendedTables : ConstTables where
  rangeTabLPS := ⟨rangeRows0 ++ rangeRows16 ++ rangeRows32 ++ rangeRows48, rfl⟩
  transIdxLPS := ⟨transLpsTable, rfl⟩
  transIdxMPS := Table.ofFn fun p => if p.toNat ≤ 61 then p + 1 else p
  ctxIdxOffset := offsetTable
  cbfCatOffset := ⟨0, 4, 8, 12, 16, 0⟩
  sigCatOffset := ⟨0, 15, 29, 44, 47, 0⟩
  absCatOffset := ⟨0, 10, 20, 30, 39, 0⟩
  sig8x8 := ⟨sig8x8Table.toArray, rfl⟩
  last8x8 := ⟨last8x8Table.toArray, rfl⟩

/-! ## Reading them -/

/-- RANGE_TAB_LPS[p][q] for q = 0 to 3 (R79). -/
def rangeTabLPS (t : ConstTables) (p : BitVec 6) (q : Nat) : Nat := ((t.rangeTabLPS.get p).get (BitVec.ofNat 2 q)).toNat

/-- TRANS_IDX_LPS[p] (R81). -/
def transIdxLPS (t : ConstTables) (p : BitVec 6) : BitVec 6 := t.transIdxLPS.get p

/-- TRANS_IDX_MPS[p] (R82). -/
def transIdxMPS (t : ConstTables) (p : BitVec 6) : BitVec 6 := t.transIdxMPS.get p

/-- ctxIdxOffset (R104). CAT matters for the residual elements only. `none`: the element has no context (bypass), or
the unit does not admit it. -/
def ctxIdxOffset (t : ConstTables) (se : SyntaxElement) (cat : BlockCat) : Option Nat :=
  match se with
  | .mbTypeI => some t.ctxIdxOffset.mbTypeI
  | .transform8x8 => some t.ctxIdxOffset.transform8x8
  | .prevIntraFlag => some t.ctxIdxOffset.prevIntraFlag
  | .remIntraMode => some t.ctxIdxOffset.remIntraMode
  | .chromaPred => some t.ctxIdxOffset.chromaPred
  | .cbpLuma => some t.ctxIdxOffset.cbpLuma
  | .cbpChroma => some t.ctxIdxOffset.cbpChroma
  | .mbQpDelta => some t.ctxIdxOffset.mbQpDelta
  | .cbf => some (if cat = .luma8x8 then t.ctxIdxOffset.cbfCat5 else t.ctxIdxOffset.cbf)
  | .sig => some (if cat = .luma8x8 then t.ctxIdxOffset.sigCat5 else t.ctxIdxOffset.sig)
  | .last => some (if cat = .luma8x8 then t.ctxIdxOffset.lastCat5 else t.ctxIdxOffset.last)
  | .absLevel => some (if cat = .luma8x8 then t.ctxIdxOffset.absLevelCat5 else t.ctxIdxOffset.absLevel)
  | .endOfSlice => some t.ctxIdxOffset.endOfSlice
  | .sign => none
  | .mbSkip | .mbTypeP | .mbTypeB | .subMbType | .mvd | .refIdx | .mbField | .sigField | .lastField | .mbTypeSi => none
  | .reserved _ => none

/-- The entry of a category; `none` for the categories the unit does not support (R63, R105). -/
def catOffset (row : CatTable) : BlockCat → Option Nat
  | .intra16x16DC => some row.intra16x16DC
  | .intra16x16AC => some row.intra16x16AC
  | .luma4x4 => some row.luma4x4
  | .chromaDC => some row.chromaDC
  | .chromaAC => some row.chromaAC
  | .luma8x8 => some row.luma8x8
  | .cat6 | .cat7 => none

/-- ctxBlockCatOffset (R105): 0 for an element that is no residual one (R100); `none` for a residual element in a
category that the unit does not support. -/
def ctxBlockCatOffset (t : ConstTables) (se : SyntaxElement) (cat : BlockCat) : Option Nat :=
  match se with
  | .cbf => catOffset t.cbfCatOffset cat
  | .sig => catOffset t.sigCatOffset cat
  | .last => catOffset t.sigCatOffset cat
  | .absLevel => catOffset t.absCatOffset cat
  | .mbTypeI | .transform8x8 | .prevIntraFlag | .remIntraMode | .chromaPred | .cbpLuma | .cbpChroma | .mbQpDelta
  | .sign | .endOfSlice => some 0
  | .mbSkip | .mbTypeP | .mbTypeB | .subMbType | .mvd | .refIdx | .mbField | .sigField | .lastField | .mbTypeSi => none
  | .reserved _ => none

/-- An 8x8 map at levelListIdx 0 to 62 (R106). IDX 63 never reaches it, being out of range (R103). -/
def mapEntry (m : Vector Nat 63) (idx : Nat) : Nat := m.toList.getD idx 0

/-! ## The allocation of the context indices -/

/-- One row of the allocation map: the first and last ctxIdx and whether CSEL selects them as context-coded bins. -/
structure CtxRange where
  first : Nat
  last : Nat
  selectable : Bool
deriving DecidableEq, Repr

/-- The allocation of all 1024 context indices (R107). Index 276 is reported for terminate bins only. -/
def ctxAllocation : List CtxRange :=
  [⟨0, 2, false⟩, ⟨3, 10, true⟩, ⟨11, 59, false⟩, ⟨60, 63, true⟩, ⟨64, 67, true⟩, ⟨68, 68, true⟩, ⟨69, 69, true⟩,
   ⟨70, 72, false⟩, ⟨73, 84, true⟩, ⟨85, 104, true⟩, ⟨105, 165, true⟩, ⟨166, 226, true⟩, ⟨227, 275, true⟩,
   ⟨276, 276, false⟩, ⟨277, 398, false⟩, ⟨399, 401, true⟩, ⟨402, 416, true⟩, ⟨417, 425, true⟩, ⟨426, 435, true⟩,
   ⟨436, 459, false⟩, ⟨460, 1011, false⟩, ⟨1012, 1015, true⟩, ⟨1016, 1023, false⟩]

/-- Whether R107 lists `ci` as selectable by CSEL. -/
def selectable (ci : Nat) : Bool := ctxAllocation.any fun r => r.selectable && r.first ≤ ci && ci ≤ r.last

end Sys2Proof.Machine
end

