-- ==== Sys2Proof/Config.lean ====
section
/-! DEFINITION. The parameters of the unit that a model takes as arguments (00_scope R7, 70_reset R178, 93 U1, U4, U5): the
two OPEN ones, to which the spec gives no value (92 D11, D14), and the configuration tables, to which it gives intended
values. They stand in `State.config`, which no step changes (20_memory R41), so a claim about every state is a claim about
every table (logs 5 and 6). -/

namespace Sys2Proof

/-- What a run is given and no rule of the unit changes (R41, R178). -/
structure Config where
  /-- CTX_INIT_MN: for each ctxIdx the pair (m, n) of signed integers for I slices (R75, D14). -/
  ctxInitMN : Table 10 (Int × Int)
  /-- EPB_POLICY: whether emulation-prevention bytes were removed before the bytes reached BUF (R7, R52).
  It concerns only the host's preparation of BUF; no rule of the unit reads it. -/
  epbPolicy : Bool
  /-- The other constant tables (R41, R80 to R82, R104 to R106). -/
  tables : Machine.ConstTables
deriving DecidableEq, Repr

/-- The value of CTX_INIT_MN at reset: a free value, no body, so no proof can lean on it (log 5). -/
opaque Config.givenMN : CtxIdx → Int × Int

/-- The value of EPB_POLICY at reset: a free value, no body (log 5). -/
opaque Config.givenEpbPolicy : Bool

/-- The parameters of the machine right after reset: the configuration tables have their intended values (log 6). -/
def Config.given : Config := ⟨Table.ofFn Config.givenMN, Config.givenEpbPolicy, Machine.intendedTables⟩

end Sys2Proof
end

