-- ==== Sys2Proof/Machine/State.lean ====
section
/-! DEFINITION. The state of the unit (10_state R15), the premises of a run (70_reset R178), the host's pending
actions, and why a step can stop. -/

namespace Sys2Proof.Machine

open Sys2Proof

/-- ENG (R17). The encoding 3 never occurs (R19), so it is no constructor. -/
inductive Eng where
  | uninit | active | terminated
deriving DecidableEq, Repr

/-- The error codes of STATUS.ERR (60_exceptions R145). Codes 8 to 15 are never produced, so they are no
constructors. -/
inductive ErrCode where
  | none
  | illegalCommand
  | illegalOperand
  | notInit
  | exhausted
  | offsetInit
  | unsupported
  | structural
deriving DecidableEq, Repr

/-- One entry of the context memory, 7 bits (R23). -/
structure Ctx where
  pStateIdx : BitVec 6
  valMPS : Bool
deriving DecidableEq, Repr

/-- What the host does at the unit's ports, one action at a time and between commands only (R53, R6, R164). -/
inductive HostAction where
  /-- Writes one word to the command port (R53). -/
  | command (w : Word)
  /-- Moves CURSOR (R25, R173). -/
  | setCursor (c : Nat)
  /-- Presents BUF and sets CURSOR in it (R166 step 2). -/
  | present (bytes : List Byte) (c : Nat)
  /-- Extends LEN with bytes that follow (R50, R172). -/
  | extend (bytes : List Byte)
  /-- Reads RESULT (R20). -/
  | readResult
  /-- Reads STATUS (R19, R143). -/
  | readStatus
  /-- Resets the unit (R164). -/
  | reset
deriving DecidableEq, Repr

/-- Everything one step reads or writes. The fields down to `cursor` are the tuple of R15, with `resultv`, which
R20 and R30 imply; the rest are the host's side of a run (R178). -/
structure State where
  /-- R16. -/
  codIRange : BitVec 9
  /-- R16. -/
  codIOffset : BitVec 9
  /-- R17. -/
  eng : Eng
  /-- R18. -/
  ctxv : Bool
  /-- The context memory (R23). -/
  ctx : Table 10 Ctx
  /-- R21. -/
  selctx : CtxIdx
  /-- R21. -/
  selv : Bool
  /-- R22. -/
  eq1cnt : BitVec 7
  /-- R22. -/
  gt1cnt : BitVec 7
  /-- R19, R145. -/
  err : ErrCode
  /-- R20. -/
  result : Word
  /-- Whether RESULT holds a value: a command has completed since reset (R20, R30; log 2). -/
  resultv : Bool
  /-- R25. -/
  cursor : Nat
  /-- BUF[0..LEN-1], read-only to the unit (R37); LEN is its length. -/
  buf : List Byte
  /-- CTX_INIT_MN, EPB_POLICY and the configuration tables (R7, R41, R178); no step changes them (logs 5 and 6). -/
  config : Config
  /-- The host's pending actions, oldest first (R53, R176; log 3). -/
  port : List HostAction
  /-- The word the last host read of RESULT or STATUS delivered (log 12). -/
  readData : Word
deriving DecidableEq, Repr

/-- Why a step stops. Every one is the host's breach of the spec, or unreachable; no command raises one in a state
that a run reaches. -/
inductive Fault where
  /-- A host read of RESULT when no command has completed since reset (R20, R30, 93 B4). Raised by the host's
  read action. Safe. -/
  | resultHasNoValue
  /-- A command would store a value that does not fit its register, which R8 calls illegal. Raised by DEC, DEC.S,
  BYP and TRM, only in states that break the invariant of R89, and by CSEL for an index above 1023. With the intended
  tables, or any that CheckedTables admits, no run reaches either (logs 6 and 7). Safe. -/
  | valueDoesNotFit
  /-- The host changes BUF other than by extending it while ENG = ACTIVE: a model cannot express such a run (R50,
  R172, 93 B8). Raised by the host's present action. Safe. -/
  | bufferChangedWhileActive
  /-- The host sets CURSOR outside 0 to 8*LEN, where R25 says it never is. Raised by the host's setCursor and
  present actions. Safe. -/
  | cursorOutOfRange
deriving DecidableEq, Repr

/-- Why a step has no meaning. -/
inductive Refusal where
  /-- An instruction that the model has not reached, by its mnemonic. Raised by exec's arm alone; none is left. Safe. -/
  | notModelled (mnemonic : String)
deriving DecidableEq, Repr

/-- The machine right after reset (R31, R164). Registers that the spec says hold no value stand at zero (DESIGN CHOICE,
log 1); the host has placed nothing and issued nothing (DESIGN CHOICE, logs 3, 4 and 12). -/
def State.reset : State where
  codIRange := 0
  codIOffset := 0
  eng := .uninit
  ctxv := false
  ctx := Table.fill ⟨0, false⟩
  selctx := 0
  selv := false
  eq1cnt := 0
  gt1cnt := 0
  err := .none
  result := 0
  resultv := false
  cursor := 0
  buf := []
  config := Config.given
  port := []
  readData := 0

end Sys2Proof.Machine
end

