-- ==== Sys2Proof/Machine/Ops.lean ====
section
/-! DEFINITION. The operations that the commands share: integer operators (00_scope R9), bit input (20_memory R38,
R39), the error latch and its return (60_exceptions R146, R147, R152), how a command ends (R12), and the engine's
renormalisation and register writes (41_engine R88, 00_scope R8). -/

namespace Sys2Proof

/-- The opcodes that are not refused while ERR is not 0 (R147). -/
def Opcode.exempt : Opcode → Bool
  | .cinit | .rdctx | .rdeng => true
  | .einit | .dec | .byp | .trm | .csel | .lvlrst | .lvlacc => false

end Sys2Proof

namespace Sys2Proof.Machine

open Sys2Proof

/-! ## Operators -/

/-- `clip(lo, hi, v)` (R9). -/
def clip (lo hi v : Int) : Int := if v < lo then lo else if v > hi then hi else v

/-- `a >> k`, the arithmetic shift: floor(a / 2^k) (R9). -/
def shiftRight (a : Int) (k : Nat) : Int := a / 2 ^ k

/-! ## Bit input -/

/-- ReadBit at bit position `c`: the bit, or none where there is none (R38). Within a byte the most significant bit
comes first. -/
def readBit (buf : List Byte) (c : Nat) : Option Bool :=
  match buf[c / 8]? with
  | none => none
  | some byte => some (byte.getLsbD (7 - c % 8))

/-- ReadBits(n) from position `c`: the first bit is the most significant; none if fewer than `n` bits remain (R39). -/
def readBits (buf : List Byte) : Nat → Nat → Option Nat
  | 0, _ => some 0
  | n + 1, c =>
    match readBit buf c with
    | none => none
    | some b =>
      match readBits buf n (c + 1) with
      | none => none
      | some v => some (b.toNat * 2 ^ n + v)

/-- The addressable bytes of BUF as cells, address 0 first: what an address reads as where it is listed; an address
from LEN on does not exist (R37, R42; log 17). -/
def bufCells (buf : List Byte) : List Host.Cell := buf.zipIdx.map fun (b, a) => (a, b)

/-- The canonical form of a list of cells: addresses strictly rising. No value stands for an unlisted address, so no
entry can be equal to one (log 17). -/
def Memory.wf : List Host.Cell → Bool
  | [] => true
  | [_] => true
  | (a, _) :: (b, y) :: rest => a < b && Memory.wf ((b, y) :: rest)

/-! ## Errors: entry and return -/

/-- Raising E(code): the command is undone and the code latched, the first error winning (R146, R147 and R151). Nothing
else is saved and nothing else changes. -/
def takeError (e : ErrCode) (s : State) : State := if s.err = .none then { s with err := e } else s

/-- The return from an error, by a successful CINIT: ERR is cleared (R147 a, R152). -/
def returnFromError (s : State) : State := { s with err := .none }

/-- How a command's own rule ends: it completes, it raises an error, or it would store a value that does not fit its
register, which R8 calls illegal. -/
inductive CmdEnd where
  | done (s : State)
  | raise (e : ErrCode)
  | misfit
deriving DecidableEq, Repr

/-- Issuing a command (R12, R147): refused with nothing changed while ERR is not 0, unless its opcode is exempt;
otherwise run, and undone on an error. -/
def issue (op : Opcode) (s : State) (body : CmdEnd) : Host.Outcome State Fault Refusal :=
  if s.err ≠ .none ∧ op.exempt = false then .next s
  else
    match body with
    | .done t => .next t
    | .raise e => .next (takeError e s)
    | .misfit => .fault .valueDoesNotFit

/-- Completing: RESULT is written, and holds a value from then on (R12 a, R20). -/
def complete (r : Word) (s : State) : State := { s with result := r, resultv := true }

/-- `zext_32(bin)`. -/
def binWord (b : Bool) : Word := BitVec.ofNat 32 b.toNat

/-! ## The engine -/

/-- The engine's values inside a command, on unbounded integers (R8), and the cursor. -/
structure EngineVals where
  range : Int
  offset : Int
  cursor : Nat
deriving DecidableEq, Repr

/-- RenormD (R88), with as many iterations allowed as bits remain: one more iteration would find no bit. -/
def renormLoop (buf : List Byte) : Nat → EngineVals → Option EngineVals
  | 0, v => if v.range < 256 then none else some v
  | n + 1, v =>
    if v.range < 256 then
      match readBit buf v.cursor with
      | none => none
      | some b => renormLoop buf n ⟨2 * v.range, 2 * v.offset + b.toInt, v.cursor + 1⟩
    else some v

/-- RenormD: while the range is below 256, double range and offset and pull one bit into the offset; none where a bit
is missing (R88). -/
def renorm (buf : List Byte) (v : EngineVals) : Option EngineVals :=
  renormLoop buf (8 * buf.length - v.cursor) v

/-- Whether `v` fits a 9-bit unsigned register (R7, R8). -/
def fits9 (v : Int) : Bool := 0 ≤ v && v < 512

/-- The end of DEC, BYP and TRM: the engine's registers, CURSOR and RESULT are written, where the values fit (R8). -/
def finishEngine (v : EngineVals) (bin : Bool) (s : State) : CmdEnd :=
  if fits9 v.range && fits9 v.offset then
    .done (complete (binWord bin)
      { s with codIRange := BitVec.ofInt 9 v.range, codIOffset := BitVec.ofInt 9 v.offset, cursor := v.cursor })
  else .misfit

/-- The engine's registers as integers. -/
def State.engineVals (s : State) : EngineVals := ⟨s.codIRange.toNat, s.codIOffset.toNat, s.cursor⟩

end Sys2Proof.Machine
end

