-- ==== Sys2Proof/Machine/Operands.lean ====
section
/-! DEFINITION. CSEL's operands: which IDX values its element admits, what kind of bin it names, and the context
index selected (42_context_select R100 to R121). -/

namespace Sys2Proof

/-- SE 14, 15 and 26 to 31 (R62, R65 d). -/
def SyntaxElement.isReserved : SyntaxElement → Bool
  | .reserved _ => true
  | .mbTypeI | .transform8x8 | .prevIntraFlag | .remIntraMode | .chromaPred | .cbpLuma | .cbpChroma | .mbQpDelta
  | .cbf | .sig | .last | .absLevel | .sign | .endOfSlice
  | .mbSkip | .mbTypeP | .mbTypeB | .subMbType | .mvd | .refIdx | .mbField | .sigField | .lastField
  | .mbTypeSi => false

/-- SE 16 to 25 (R62, R122). -/
def SyntaxElement.isUnsupported : SyntaxElement → Bool
  | .mbSkip | .mbTypeP | .mbTypeB | .subMbType | .mvd | .refIdx | .mbField | .sigField | .lastField
  | .mbTypeSi => true
  | .mbTypeI | .transform8x8 | .prevIntraFlag | .remIntraMode | .chromaPred | .cbpLuma | .cbpChroma | .mbQpDelta
  | .cbf | .sig | .last | .absLevel | .sign | .endOfSlice
  | .reserved _ => false

/-- SE 8 to 11, the elements that read CAT (R63). -/
def SyntaxElement.isResidual : SyntaxElement → Bool
  | .cbf | .sig | .last | .absLevel => true
  | .mbTypeI | .transform8x8 | .prevIntraFlag | .remIntraMode | .chromaPred | .cbpLuma | .cbpChroma | .mbQpDelta
  | .sign | .endOfSlice
  | .mbSkip | .mbTypeP | .mbTypeB | .subMbType | .mvd | .refIdx | .mbField | .sigField | .lastField | .mbTypeSi
  | .reserved _ => false

/-- CAT 6 and 7 (R63). -/
def BlockCat.isUnsupported : BlockCat → Bool
  | .cat6 | .cat7 => true
  | .intra16x16DC | .intra16x16AC | .luma4x4 | .chromaDC | .chromaAC | .luma8x8 => false

end Sys2Proof

namespace Sys2Proof.Machine

open Sys2Proof

/-- The kind of a bin in CSEL's result word (30_encoding R70). KIND 3 never occurs, so it is no constructor. -/
inductive BinKind where
  | context | bypass | terminate
deriving DecidableEq, Repr

/-- KIND as the result word holds it (R70). -/
def BinKind.code : BinKind → Nat
  | .context => 0
  | .bypass => 1
  | .terminate => 2

/-- What CSEL selects: the kind and ctxIdx. -/
structure Selection where
  kind : BinKind
  ctxIdx : Nat
deriving DecidableEq, Repr

/-- NumC8x8: 1 when C = 0, 2 when C = 1 (R58, R103). -/
def numC8x8 (c : Bool) : Nat := if c then 2 else 1

/-- The largest levelListIdx of SIG and LAST (R103); `none` for CAT 6 and 7. -/
def sigIdxMax (cat : BlockCat) (c : Bool) : Option Nat :=
  match cat with
  | .intra16x16DC => some 14
  | .intra16x16AC => some 13
  | .luma4x4 => some 14
  | .chromaDC => some (4 * numC8x8 c - 2)
  | .chromaAC => some 13
  | .luma8x8 => some 62
  | .cat6 | .cat7 => none

/-- IdxMax(SE, CAT, C), the largest IDX that CSEL accepts; `none` where the spec defines no range (R103). -/
def idxMax (se : SyntaxElement) (cat : BlockCat) (c : Bool) : Option Nat :=
  match se with
  | .mbTypeI => some 6
  | .transform8x8 => some 0
  | .prevIntraFlag => some 0
  | .remIntraMode => some 2
  | .chromaPred => some 2
  | .cbpLuma => some 3
  | .cbpChroma => some 1
  | .mbQpDelta => some 63
  | .cbf => some 0
  | .sig => sigIdxMax cat c
  | .last => sigIdxMax cat c
  | .absLevel => some 63
  | .sign => some 0
  | .endOfSlice => some 0
  | .mbSkip | .mbTypeP | .mbTypeB | .subMbType | .mvd | .refIdx | .mbField | .sigField | .lastField | .mbTypeSi => none
  | .reserved _ => none

/-- Whether IDX is above the range of its element, if one is defined (R102). -/
def idxOutOfRange (se : SyntaxElement) (cat : BlockCat) (idx : Nat) (c : Bool) : Bool :=
  match idxMax se cat c with
  | none => false
  | some hi => idx > hi

/-- The kind of a bin of an admitted element (R103). -/
def binKind (se : SyntaxElement) (idx : Nat) : BinKind :=
  match se with
  | .mbTypeI => if idx = 1 then .terminate else .context
  | .absLevel => if idx ≤ 13 then .context else .bypass
  | .sign => .bypass
  | .endOfSlice => .terminate
  | .transform8x8 | .prevIntraFlag | .remIntraMode | .chromaPred | .cbpLuma | .cbpChroma | .mbQpDelta
  | .cbf | .sig | .last => .context
  | .mbSkip | .mbTypeP | .mbTypeB | .subMbType | .mvd | .refIdx | .mbField | .sigField | .lastField | .mbTypeSi
  | .reserved _ => .context

/-- The increment of mb_type's context-coded bins (R108): ctxIdx 3 + A + B at bin 0, 6 and 7 at bins 2 and 3, 8 or 9
at bin 4 and 9 or 10 at bin 5 by bin b3 (X), 10 at bin 6. -/
def mbTypeInc (idx : Nat) (a b x : Bool) : Nat :=
  match idx with
  | 0 => a.toNat + b.toNat
  | 1 => 0
  | 2 => 3
  | 3 => 4
  | 4 => if x then 5 else 6
  | 5 => if x then 6 else 7
  | _ => 7

/-- levelListIdx to increment for SIG and LAST (R117, R118): the index itself, the chroma DC form, or the 8x8 map. -/
def sigInc (map8x8 : Vector Nat 63) (cat : BlockCat) (idx : Nat) (c : Bool) : Nat :=
  match cat with
  | .intra16x16DC | .intra16x16AC | .luma4x4 | .chromaAC => idx
  | .chromaDC => min (idx / numC8x8 c) 2
  | .luma8x8 => mapEntry map8x8 idx
  | .cat6 | .cat7 => 0

/-- binIdx and the level counters to increment for ABS_LEVEL (R119). -/
def absLevelInc (cat : BlockCat) (idx eq1 gt1 : Nat) : Nat :=
  if idx = 0 then (if gt1 ≠ 0 then 0 else min 4 (1 + eq1))
  else 5 + min (4 - (if cat = .chromaDC then 1 else 0)) gt1

/-- ctxIdxInc of a context-coded bin (R108 to R119). -/
def ctxIdxInc (t : ConstTables) (se : SyntaxElement) (cat : BlockCat) (idx : Nat) (a b x c : Bool) (eq1 gt1 : Nat) :
    Nat :=
  match se with
  | .mbTypeI => mbTypeInc idx a b x
  | .transform8x8 => a.toNat + b.toNat
  | .prevIntraFlag => 0
  | .remIntraMode => 0
  | .chromaPred => if idx = 0 then a.toNat + b.toNat else 3
  | .cbpLuma => a.toNat + 2 * b.toNat
  | .cbpChroma => (if idx = 0 then 0 else 4) + (a.toNat + 2 * b.toNat)
  | .mbQpDelta => if idx = 0 then a.toNat else if idx = 1 then 2 else 3
  | .cbf => a.toNat + 2 * b.toNat
  | .sig => sigInc t.sig8x8 cat idx c
  | .last => sigInc t.last8x8 cat idx c
  | .absLevel => absLevelInc cat idx eq1 gt1
  | .sign | .endOfSlice => 0
  | .mbSkip | .mbTypeP | .mbTypeB | .subMbType | .mvd | .refIdx | .mbField | .sigField | .lastField | .mbTypeSi
  | .reserved _ => 0

/-- Select (R102) with the tables `t`: ctxIdxOffset + ctxBlockCatOffset + ctxIdxInc for a context-coded bin (R100),
ctxIdx 0 for a bypass bin, and for a terminate bin the table's index of end_of_slice_flag, which is meant to be 276 (R103,
R104). `none`: the element, or its category, is one the unit does not support. -/
def select (t : ConstTables) (se : SyntaxElement) (cat : BlockCat) (idx : Nat) (a b x c : Bool) (eq1 gt1 : Nat) :
    Option Selection :=
  match ctxBlockCatOffset t se cat with
  | none => none
  | some catOffset =>
    match binKind se idx with
    | .bypass => some ⟨.bypass, 0⟩
    | .terminate => some ⟨.terminate, t.ctxIdxOffset.endOfSlice⟩
    | .context =>
      match ctxIdxOffset t se cat with
      | none => none
      | some offset => some ⟨.context, offset + catOffset + ctxIdxInc t se cat idx a b x c eq1 gt1⟩

end Sys2Proof.Machine
end

