-- ==== Sys2Proof/Machine/Flags.lean ====
section
/-! DEFINITION. The words that show state to the host: STATUS (10_state R19, 43_observe R143) and the RESULT words of
CSEL, LVLACC, RDCTX and RDENG. The unit has no arithmetic condition codes; its flags are the STATUS fields (R28). -/

namespace Sys2Proof.Machine

open Sys2Proof

/-- ENG as STATUS bits 5:4 and RDENG's bits 31:30 hold it (R17). -/
def Eng.code : Eng → Word
  | .uninit => 0
  | .active => 1
  | .terminated => 2

/-- The error codes (R145). -/
def ErrCode.code : ErrCode → Word
  | .none => 0
  | .illegalCommand => 1
  | .illegalOperand => 2
  | .notInit => 3
  | .exhausted => 4
  | .offsetInit => 5
  | .unsupported => 6
  | .structural => 7

/-- STATUS: `zext_32(SELV << 7 | CTXV << 6 | ENG << 4 | ERR)` (R19, R143). -/
def statusWord (s : State) : Word :=
  (binWord s.selv <<< 7) ||| (binWord s.ctxv <<< 6) ||| (s.eng.code <<< 4) ||| s.err.code

/-- CSEL's result: KIND in bits 13:12, ctxIdx in bits 9:0 (R70). -/
def selectionWord (sel : Selection) : Word := (BitVec.ofNat 32 sel.kind.code <<< 12) ||| BitVec.ofNat 32 sel.ctxIdx

/-- LVLACC's result: `zext_32(GT1CNT << 8 | EQ1CNT)` (R124). -/
def countersWord (eq1 gt1 : BitVec 7) : Word := (gt1.setWidth 32 <<< 8) ||| eq1.setWidth 32

/-- RDCTX's result: `zext_32(v << 6 | p)` (R141). -/
def ctxWord (x : Ctx) : Word := (binWord x.valMPS <<< 6) ||| x.pStateIdx.setWidth 32

/-- RDENG's result: `zext_32(ENG << 30 | codIOffset << 16 | codIRange)` (R142). -/
def engineWord (s : State) : Word :=
  (s.eng.code <<< 30) ||| (s.codIOffset.setWidth 32 <<< 16) ||| s.codIRange.setWidth 32

/-- min(127, n + 1) on a level counter (R22, R124). -/
def countUp (n : BitVec 7) : BitVec 7 := BitVec.ofNat 7 (min 127 (n.toNat + 1))

end Sys2Proof.Machine
end

