-- ==== Sys2Proof/Machine/ContextSelect.lean ====
section
/-! DEFINITION. Context selection and the level counters: CSEL, LVLRST and LVLACC (42_context_select). -/

namespace Sys2Proof.Machine

open Sys2Proof

/-- The end of CSEL: SELCTX, SELV and RESULT are written, where the index fits SELCTX (R102, R8). -/
def finishSelect (sel : Selection) (s : State) : CmdEnd :=
  if sel.ctxIdx < 1024 then
    .done (complete (selectionWord sel)
      { s with selctx := BitVec.ofNat 10 sel.ctxIdx, selv := sel.kind == .context })
  else .misfit

/-- CSEL's rule (R102), with its checks in the order of R102 and R148. -/
def cselBody (se : SyntaxElement) (cat : BlockCat) (idx : Nat) (a b x c : Bool) (s : State) : CmdEnd :=
  if se.isReserved then .raise .illegalOperand
  else if idxOutOfRange se cat idx c then .raise .illegalOperand
  else if se.isUnsupported then .raise .unsupported
  else if se.isResidual && cat.isUnsupported then .raise .unsupported
  else
    match select s.config.tables se cat idx a b x c s.eq1cnt.toNat s.gt1cnt.toNat with
    | none => .raise .unsupported
    | some sel => finishSelect sel s

/-- CSEL: select the context for one bin (R102). -/
def execCsel (se : SyntaxElement) (cat : BlockCat) (idx : Nat) (a b x c : Bool) (s : State) :
    Host.Outcome State Fault Refusal :=
  issue .csel s (cselBody se cat idx a b x c s)

/-- LVLRST: reset the level counters (R123). -/
def execLvlrst (s : State) : Host.Outcome State Fault Refusal :=
  issue .lvlrst s (.done (complete 0 { s with eq1cnt := 0, gt1cnt := 0 }))

/-- LVLACC: count one decoded level (R124). -/
def execLvlacc (g : LevelClass) (s : State) : Host.Outcome State Fault Refusal :=
  issue .lvlacc s <|
    match g with
    | .eq1 => .done (complete (countersWord (countUp s.eq1cnt) s.gt1cnt) { s with eq1cnt := countUp s.eq1cnt })
    | .gt1 => .done (complete (countersWord s.eq1cnt (countUp s.gt1cnt)) { s with gt1cnt := countUp s.gt1cnt })

end Sys2Proof.Machine
end

