-- ==== Sys2Proof/Machine/Engine.lean ====
section
/-! DEFINITION. The arithmetic engine's commands: CINIT, EINIT, DEC, DEC.S, BYP and TRM (41_engine). -/

namespace Sys2Proof.Machine

open Sys2Proof

/-! ## CINIT -/

/-- SliceQPY (R75). -/
def sliceQPY (qbd : Nat) (sqd piq : Int) : Int := clip (-(qbd : Int)) 51 (26 + piq + sqd)

/-- preCtxState of one context: the product is shifted, then n is added (R75, 90_conflicts C3). -/
def preCtxState (mn : Int × Int) (qp : Int) : Int := clip 1 126 (shiftRight (mn.1 * qp) 4 + mn.2)

/-- The state of one context (R75). -/
def initCtx (qp : Int) (mn : Int × Int) : Ctx :=
  if preCtxState mn qp ≤ 63 then ⟨BitVec.ofInt 6 (63 - preCtxState mn qp), false⟩
  else ⟨BitVec.ofInt 6 (preCtxState mn qp - 64), true⟩

/-- CINIT's rule (R76), with its checks in the order of R148. -/
def cinitBody (slt : SliceType) (idc qbd : Nat) (sqd piq : Int) (s : State) : CmdEnd :=
  match slt with
  | .reserved _ => .raise .illegalOperand
  | .p | .b | .sp | .si => if idc = 3 then .raise .structural else .raise .unsupported
  | .i =>
    if idc = 3 then .raise .structural
    else
      .done (complete (BitVec.ofInt 32 (sliceQPY qbd sqd piq))
        (returnFromError
          { s with
            ctx := s.config.ctxInitMN.map (initCtx (clip 0 51 (sliceQPY qbd sqd piq))),
            ctxv := true,
            eng := .uninit }))

/-- CINIT: initialise the context memory for a slice (R76). -/
def execCinit (slt : SliceType) (idc qbd : Nat) (sqd piq : Int) (s : State) : Host.Outcome State Fault Refusal :=
  issue .cinit s (cinitBody slt idc qbd sqd piq s)

/-! ## EINIT -/

/-- EINIT: initialise the arithmetic decoder (R77). -/
def execEinit (s : State) : Host.Outcome State Fault Refusal :=
  issue .einit s <|
    match readBits s.buf 9 s.cursor with
    | none => .raise .exhausted
    | some v =>
      if v ≥ 510 then .raise .offsetInit
      else
        .done (complete (BitVec.ofNat 32 v)
          { s with codIRange := 510, codIOffset := BitVec.ofNat 9 v, eng := .active, cursor := s.cursor + 9 })

/-! ## DEC -/

/-- qCodIRangeIdx, `(codIRange >> 6) & 3` (R78). -/
def qCodIRangeIdx (range : Int) : Nat := (range / 64 % 4).toNat

/-- codIRangeLPS (R79). -/
def codIRangeLPS (t : ConstTables) (x : Ctx) (range : Int) : Int :=
  rangeTabLPS t x.pStateIdx (qCodIRangeIdx range)

/-- What DecodeDecision computes before it renormalises. -/
structure Decision where
  bin : Bool
  range : Int
  offset : Int
  ctx : Ctx
deriving DecidableEq, Repr

/-- DecodeDecision on one context, with the tables `t` (R83). The LPS path's assignments are simultaneous (R84), the bin
is taken from valMPS before the swap (R85), and the swap tests the old pStateIdx (R83 corner case 1). -/
def decodeDecision (t : ConstTables) (x : Ctx) (range offset : Int) : Decision :=
  if offset ≥ range - codIRangeLPS t x range then
    { bin := !x.valMPS
      range := codIRangeLPS t x range
      offset := offset - (range - codIRangeLPS t x range)
      ctx := ⟨transIdxLPS t x.pStateIdx, if x.pStateIdx = 0 then !x.valMPS else x.valMPS⟩ }
  else
    { bin := x.valMPS
      range := range - codIRangeLPS t x range
      offset := offset
      ctx := ⟨transIdxMPS t x.pStateIdx, x.valMPS⟩ }

/-- DEC's rule on ctx[ci] (R83). -/
def decBody (ci : CtxIdx) (s : State) : CmdEnd :=
  if s.ctxv = false ∨ s.eng ≠ .active then .raise .notInit
  else
    let d := decodeDecision s.config.tables (s.ctx.get ci) s.codIRange.toNat s.codIOffset.toNat
    match renorm s.buf ⟨d.range, d.offset, s.cursor⟩ with
    | none => .raise .exhausted
    | some v => finishEngine v d.bin { s with ctx := s.ctx.set ci d.ctx }

/-- DEC k (R83, S = 0). -/
def execDec (k : CtxIdx) (s : State) : Host.Outcome State Fault Refusal := issue .dec s (decBody k s)

/-- DEC.S: DEC on ctx[SELCTX], which needs SELV = 1 (R83, S = 1). -/
def execDecS (s : State) : Host.Outcome State Fault Refusal :=
  issue .dec s (if s.selv = false then .raise .notInit else decBody s.selctx s)

/-! ## BYP -/

/-- BYP: DecodeBypass (R86). The intermediate is not cut to 9 bits (R90, 90_conflicts C8). -/
def execByp (s : State) : Host.Outcome State Fault Refusal :=
  issue .byp s <|
    if s.eng ≠ .active then .raise .notInit
    else
      match readBit s.buf s.cursor with
      | none => .raise .exhausted
      | some b =>
        let t : Int := 2 * s.codIOffset.toNat + b.toInt
        if t ≥ s.codIRange.toNat then finishEngine ⟨s.codIRange.toNat, t - s.codIRange.toNat, s.cursor + 1⟩ true s
        else finishEngine ⟨s.codIRange.toNat, t, s.cursor + 1⟩ false s

/-! ## TRM -/

/-- TRM: DecodeTerminate (R87). A 1 ends the arithmetic-coded data with no renormalisation. -/
def execTrm (s : State) : Host.Outcome State Fault Refusal :=
  issue .trm s <|
    if s.eng ≠ .active then .raise .notInit
    else
      let r : Int := s.codIRange.toNat - 2
      if s.codIOffset.toNat ≥ r then
        finishEngine ⟨r, s.codIOffset.toNat, s.cursor⟩ true { s with eng := .terminated }
      else
        match renorm s.buf ⟨r, s.codIOffset.toNat, s.cursor⟩ with
        | none => .raise .exhausted
        | some v => finishEngine v false s

end Sys2Proof.Machine
end

