-- ==== Sys2Proof/Machine/Observe.lean ====
section
/-! DEFINITION. The observation commands RDCTX and RDENG (43_observe). They change only RESULT, and run while ERR is
not 0 (R140). -/

namespace Sys2Proof.Machine

open Sys2Proof

/-- RDCTX: read one context (R141). -/
def execRdctx (k : CtxIdx) (s : State) : Host.Outcome State Fault Refusal :=
  issue .rdctx s (if s.ctxv = false then .raise .notInit else .done (complete (ctxWord (s.ctx.get k)) s))

/-- RDENG: read the engine registers (R142). -/
def execRdeng (s : State) : Host.Outcome State Fault Refusal :=
  issue .rdeng s (if s.eng = .uninit then .raise .notInit else .done (complete (engineWord s) s))

end Sys2Proof.Machine
end

