-- ==== Sys2Proof/Machine/Dispatch.lean ====
section
/-! DEFINITION. One command's meaning for each constructor of Instr. -/

namespace Sys2Proof.Machine

open Sys2Proof

def exec (i : Instr) (s : State) : Host.Outcome State Fault Refusal :=
  match i with
  | .cinit slt idc qbd sqd piq => Sys2Proof.Machine.execCinit slt idc qbd sqd piq s
  | .einit => Sys2Proof.Machine.execEinit s
  | .dec k => Sys2Proof.Machine.execDec k s
  | .decS => Sys2Proof.Machine.execDecS s
  | .byp => Sys2Proof.Machine.execByp s
  | .trm => Sys2Proof.Machine.execTrm s
  | .csel se cat idx a b x c => Sys2Proof.Machine.execCsel se cat idx a b x c s
  | .lvlrst => Sys2Proof.Machine.execLvlrst s
  | .lvlacc g => Sys2Proof.Machine.execLvlacc g s
  | .rdctx k => Sys2Proof.Machine.execRdctx k s
  | .rdeng => Sys2Proof.Machine.execRdeng s

end Sys2Proof.Machine
end

