-- ==== Sys2Proof/Machine/Port.lean ====
section
/-! DEFINITION. What the host does at the unit's ports: issuing a command word (30_encoding R53, 60_exceptions R147),
reading RESULT and STATUS (10_state R19, R20), placing BUF and CURSOR (70_reset R166, R172, R173) and reset (R164). -/

namespace Sys2Proof.Machine

open Sys2Proof

/-- The error of a word that is no command (R64, R65, R145). -/
def decodeErrCode : DecodeError → ErrCode
  | .illegalCommand => .illegalCommand
  | .illegalOperand => .illegalOperand

/-- Whether a word's opcode is exempt from refusal; an undefined opcode is not (R147 b). -/
def exemptWord (w : Word) : Bool :=
  match wordOpcode w with
  | none => false
  | some op => op.exempt

/-- A word that is no command: refused with nothing changed while ERR is not 0 and its opcode is not exempt, otherwise
the error is raised (R147). -/
def rejectWord (w : Word) (e : DecodeError) (s : State) : State :=
  if s.err ≠ .none ∧ exemptWord w = false then s else takeError (decodeErrCode e) s

/-- One word at the command port (R53, R71, R147). -/
def issueWord (w : Word) (s : State) : Host.Outcome State Fault Refusal :=
  match decodeWord w with
  | .ok i => exec i s
  | .error e => .next (rejectWord w e s)

/-- Reset (R31, R164): every piece of the unit's state takes its reset value. BUF, CURSOR, the parameters and the
host's own side are not the unit's to set, and are kept (R25, log 4). -/
def resetUnit (s : State) : State :=
  { State.reset with cursor := s.cursor, buf := s.buf, config := s.config, port := s.port, readData := s.readData }

/-- Whether `c` is a position that CURSOR can hold over `bytes` (R25). -/
def cursorFits (c : Nat) (bytes : List Byte) : Bool := c ≤ 8 * bytes.length

/-- The host moves CURSOR (R25). The unit cannot tell whether ENG allows it, and goes on from the new position
(R173). -/
def setCursor (c : Nat) (s : State) : Host.Outcome State Fault Refusal :=
  if cursorFits c s.buf then .next { s with cursor := c } else .fault .cursorOutOfRange

/-- The host presents a buffer and a CURSOR in it (R166 step 2), which a run cannot do while ENG = ACTIVE (R50, R172). -/
def presentBuffer (bytes : List Byte) (c : Nat) (s : State) : Host.Outcome State Fault Refusal :=
  if s.eng = .active then .fault .bufferChangedWhileActive
  else if cursorFits c bytes then .next { s with buf := bytes, cursor := c }
  else .fault .cursorOutOfRange

/-- The host extends LEN with bytes that follow (R50, R172), at any time. -/
def extendBuffer (bytes : List Byte) (s : State) : Host.Outcome State Fault Refusal :=
  .next { s with buf := s.buf ++ bytes }

/-- A host read of RESULT: a fault where it holds no value (R20, R30), else the word, and nothing of the unit changes. -/
def readResult (s : State) : Host.Outcome State Fault Refusal :=
  if s.resultv then .next { s with readData := s.result } else .fault .resultHasNoValue

/-- A host read of STATUS: no side effect on the unit (R19, R143). -/
def readStatus (s : State) : Host.Outcome State Fault Refusal := .next { s with readData := statusWord s }

/-- One action of the host. -/
def hostAct (a : HostAction) (s : State) : Host.Outcome State Fault Refusal :=
  match a with
  | .command w => issueWord w s
  | .setCursor c => setCursor c s
  | .present bytes c => presentBuffer bytes c s
  | .extend bytes => extendBuffer bytes s
  | .readResult => readResult s
  | .readStatus => readStatus s
  | .reset => .next (resetUnit s)

/-- One step: the oldest pending action of the host is taken; with none pending the unit waits and holds its state
(R160, R165). -/
def takeAction (s : State) : Host.Outcome State Fault Refusal :=
  match s.port with
  | [] => .next s
  | a :: rest => hostAct a { s with port := rest }

end Sys2Proof.Machine
end

