-- ==== Sys2Proof/Machine/Step.lean ====
section
/-! DEFINITION. One step of the machine (00_scope R12), and placing a command word where the next step takes it. -/

namespace Sys2Proof.Machine

open Sys2Proof

/-- One step: one action of the host, a command word among them, taken to completion (R12, R169). -/
def step (s : State) : Host.Outcome State Fault Refusal := takeAction s

/-- The host's write of one command word, ahead of everything pending, so that the very next step issues it (R53; log
3). -/
def State.withFetchWord (s : State) (nbits w : Nat) : State :=
  { s with port := .command (tableWord nbits w) :: s.port }

end Sys2Proof.Machine
end

