-- ==== Sys2Proof/Machine/Assembler.lean ====
section
/-! DEFINITION. The assembler's lines as data (30_encoding R68) and the two pseudo-instructions (R69). A line that
leaves a CSEL field out has 0 there. -/

namespace Sys2Proof.Machine

open Sys2Proof

/-- CSEL's operands in a line, each optional but the element (R68). -/
structure CselFields where
  se : SyntaxElement
  cat : Option BlockCat := none
  idx : Option Nat := none
  a : Option Bool := none
  b : Option Bool := none
  x : Option Bool := none
  c : Option Bool := none
deriving DecidableEq, Repr

/-- The CSEL of a line: an omitted field is 0 (R68). -/
def CselFields.toInstr (f : CselFields) : Instr :=
  .csel f.se (f.cat.getD .intra16x16DC) (f.idx.getD 0) (f.a.getD false) (f.b.getD false) (f.x.getD false)
    (f.c.getD false)

/-- One line of a command list (R68), the two macros of R69 among them. -/
inductive AsmLine where
  | instr (i : Instr)
  | csel (f : CselFields)
  | decse (f : CselFields)
  | bypn (n : Nat)
deriving DecidableEq, Repr

/-- The commands a line stands for: DECSE is a CSEL and a DEC.S, BYPN n is n copies of BYP (R69). -/
def AsmLine.expand : AsmLine → List Instr
  | .instr i => [i]
  | .csel f => [f.toInstr]
  | .decse f => [f.toInstr, .decS]
  | .bypn n => List.replicate n .byp

/-- The command words of a list of lines. -/
def assemble (lines : List AsmLine) : List Word := (lines.flatMap AsmLine.expand).map encode

/-- The command words of a list of lines as the host's actions at the command port (R53, R176). -/
def programActions (lines : List AsmLine) : List HostAction := (assemble lines).map .command

end Sys2Proof.Machine
end

