-- ==== Sys2Proof/Machine/HostContract.lean ====
section
/-! DEFINITION. The host contract of 42_context_select R126 to R139: the binarisations, the residual procedure and the
condition flags. None of it is behaviour of the unit (00_scope R5); it says what a host does with the unit's commands, so
that whole programs can be modelled (R101). Every procedure issues its commands through `exec`. -/

namespace Sys2Proof.Machine

open Sys2Proof

/-! ## Talking to the unit -/

/-- Issues one command and reads RESULT; none where ERR is not 0 afterwards, since RESULT is then not the command's
(R162), or where the model stops. -/
def askUnit (i : Instr) (s : State) : Option (Word × State) :=
  match exec i s with
  | .next t => if t.err = .none then some (t.result, t) else none
  | .fault _ => none
  | .refused _ => none

/-- The command that decodes a bin of CSEL's KIND: DEC.S for a context-coded bin, BYP for a bypass bin, TRM for a
terminate bin (R70). -/
def binCommand (selected : Word) : Instr :=
  if (selected >>> 12) &&& 3 = 0 then .decS else if (selected >>> 12) &&& 3 = 1 then .byp else .trm

/-- Issues a decoding command and reads the bin. -/
def askBin (i : Instr) (s : State) : Option (Bool × State) :=
  (askUnit i s).map fun (r, t) => (r = 1, t)

/-- One bin: CSEL, then the command that its KIND names (R70, R126). -/
def codedBin (sel : Instr) (s : State) : Option (Bool × State) := do
  let (r, s) ← askUnit sel s
  askBin (binCommand r) s

/-- A CSEL that reads the condition flags only. -/
def cselAB (se : SyntaxElement) (idx : Nat) (a b : Bool) : Instr := .csel se .intra16x16DC idx a b false false

/-! ## Binarisations -/

/-- mb_type of an Intra_16x16 macroblock from its luma flag, chroma cbp and prediction-mode bins (R126). -/
def mbType16x16 (b2 : Bool) (chromaCbp : Nat) (pm1 pm0 : Bool) : Nat :=
  1 + 12 * b2.toNat + 4 * chromaCbp + 2 * pm1.toNat + pm0.toNat

/-- Whether the bins `l` come from the unit in this order, each after the CSEL that selects it; the state after the last.
-/
def readsBins : List (Instr × Bool) → State → Option State
  | [], s => some s
  | (sel, bin) :: rest, s =>
    match codedBin sel s with
    | none => none
    | some (b, t) => if b = bin then readsBins rest t else none

/-- mb_type in an I slice (R126): 0 is I_NxN, 25 is I_PCM. -/
def decodeMbType (a b : Bool) (s : State) : Option (Nat × State) := do
  let (b0, s) ← codedBin (cselAB .mbTypeI 0 a b) s
  if b0 = false then return (0, s)
  let (b1, s) ← codedBin (cselAB .mbTypeI 1 a b) s
  if b1 then return (25, s)
  let (b2, s) ← codedBin (cselAB .mbTypeI 2 a b) s
  let (b3, s) ← codedBin (cselAB .mbTypeI 3 a b) s
  let (b4, s) ← codedBin (.csel .mbTypeI .intra16x16DC 4 a b b3 false) s
  let (b5, s) ← codedBin (.csel .mbTypeI .intra16x16DC 5 a b b3 false) s
  if b3 then
    let (b6, s) ← codedBin (cselAB .mbTypeI 6 a b) s
    return (mbType16x16 b2 (if b4 then 2 else 1) b5 b6, s)
  else return (mbType16x16 b2 0 b4 b5, s)

/-- A flag of one bin (R127). -/
def decodeFlag (se : SyntaxElement) (a b : Bool) (s : State) : Option (Bool × State) := codedBin (cselAB se 0 a b) s

/-- rem_intra4x4/8x8_pred_mode from its three bins, the first the least significant (R128). -/
def remIntraValue (b0 b1 b2 : Bool) : Nat := b0.toNat + 2 * b1.toNat + 4 * b2.toNat

/-- rem_intra4x4/8x8_pred_mode (R128). -/
def decodeRemIntra (s : State) : Option (Nat × State) := do
  let (b0, s) ← codedBin (cselAB .remIntraMode 0 false false) s
  let (b1, s) ← codedBin (cselAB .remIntraMode 1 false false) s
  let (b2, s) ← codedBin (cselAB .remIntraMode 2 false false) s
  return (remIntraValue b0 b1 b2, s)

/-- The prediction mode of one Intra_4x4 or Intra_8x8 block (R127, R128): prev_intra4x4/8x8_pred_mode_flag, and rem only
after a flag of 0. `none` is a flag of 1: the mode is the predicted one, and there is no rem. The flag's CSEL ignores A and B
(R110). -/
def decodeIntraPredMode (s : State) : Option (Option Nat × State) := do
  let (prev, s) ← decodeFlag .prevIntraFlag false false s
  if prev then return (none, s)
  let (rem, s) ← decodeRemIntra s
  return (some rem, s)

/-- A truncated unary value: the 1 bins before the first 0 bin, at most `left` more of them. `sel k` selects bin k. -/
def decodeUnary (sel : Nat → Instr) : Nat → Nat → State → Option (Nat × State)
  | 0, k, s => some (k, s)
  | left + 1, k, s => do
    let (b, s) ← codedBin (sel k) s
    if b then decodeUnary sel left (k + 1) s else return (k, s)

/-- intra_chroma_pred_mode: truncated unary, cMax 3 (R129). -/
def decodeChromaPred (a b : Bool) (s : State) : Option (Nat × State) :=
  decodeUnary (fun k => cselAB .chromaPred k a b) 3 0 s

/-- The luma prefix of coded_block_pattern (R130): bin k is bit k of the value. `flags` gives A
and B of each 8x8 block from the bins decoded before it; R136's are `cbpLumaFlags`. -/
def decodeCbpLuma (flags : Nat → Nat → Bool × Bool) (s : State) : Option (Nat × State) :=
  [0, 1, 2, 3].foldlM
    (fun (p : Nat × State) (k : Nat) => do
      let (b, s) ← codedBin (cselAB .cbpLuma k (flags k p.1).1 (flags k p.1).2) p.2
      return (p.1 + b.toNat * 2 ^ k, s))
    (0, s)

/-- The chroma suffix of coded_block_pattern: truncated unary, cMax 2, with flags of its own for each bin (R130,
R136). -/
def decodeCbpChroma (flags : Nat → Bool × Bool) (s : State) : Option (Nat × State) :=
  decodeUnary (fun k => cselAB .cbpChroma k (flags k).1 (flags k).2) 2 0 s

/-- CodedBlockPatternLuma and CodedBlockPatternChroma (R130). -/
structure CodedBlockPattern where
  luma : Nat
  chroma : Nat
deriving DecidableEq, Repr

/-- coded_block_pattern: the luma prefix, then the chroma suffix, which a monochrome stream does not have (R130). Its
chroma part then counts as 0 (PRESUMED, log 19: the spec gives the absent suffix no value). -/
def decodeCodedBlockPattern (monochrome : Bool) (lumaFlags : Nat → Nat → Bool × Bool) (chromaFlags : Nat → Bool × Bool)
    (s : State) : Option (CodedBlockPattern × State) := do
  let (luma, s) ← decodeCbpLuma lumaFlags s
  if monochrome then return (⟨luma, 0⟩, s)
  let (chroma, s) ← decodeCbpChroma chromaFlags s
  return (⟨luma, chroma⟩, s)

/-- The pattern that an Intra_16x16 mb_type, 1 to 24, carries: luma 15 or 0, and the chroma cbp (R126, R130). -/
def mbType16x16Cbp (mbType : Nat) : CodedBlockPattern := ⟨if 13 ≤ mbType then 15 else 0, (mbType - 1) / 4 % 3⟩

/-- The Intra16x16PredMode that an Intra_16x16 mb_type, 1 to 24, carries: 2*pm1 + pm0 (R126). -/
def intra16x16PredMode (mbType : Nat) : Nat := (mbType - 1) % 4

/-- How a macroblock of an I slice is predicted (R126). -/
inductive IntraPrediction where
  | intra4x4
  | intra8x8
  | intra16x16 (predMode : Nat) (cbp : CodedBlockPattern)
  | pcm
deriving DecidableEq, Repr

/-- The prediction of a macroblock by its mb_type and transform_size_8x8_flag (R126): I_NxN (0) is Intra_8x8 when the flag is
1 and Intra_4x4 otherwise, 1 to 24 is Intra_16x16, 25 is I_PCM. -/
def intraPrediction (mbType : Nat) (transform8x8 : Bool) : IntraPrediction :=
  if mbType = 0 then (if transform8x8 then .intra8x8 else .intra4x4)
  else if mbType ≤ 24 then .intra16x16 (intra16x16PredMode mbType) (mbType16x16Cbp mbType)
  else .pcm

/-- The coded block pattern of a macroblock by its mb_type (R130): decoded for I_NxN (0), carried in the mb_type of
Intra_16x16 (1 to 24), none for I_PCM (25). -/
def decodeMbCbp (mbType : Nat) (monochrome : Bool) (lumaFlags : Nat → Nat → Bool × Bool)
    (chromaFlags : Nat → Bool × Bool) (s : State) : Option (Option CodedBlockPattern × State) :=
  if mbType = 0 then
    (decodeCodedBlockPattern monochrome lumaFlags chromaFlags s).map fun (cbp, t) => (some cbp, t)
  else if mbType ≤ 24 then some (some (mbType16x16Cbp mbType), s)
  else some (none, s)

/-- mb_qp_delta from its unary value: 0, +1, -1, +2, -2, ... (R131). -/
def mbQpDeltaValue (k : Nat) : Int := if k % 2 = 1 then ((k + 1) / 2 : Nat) else -((k / 2 : Nat) : Int)

/-- mb_qp_delta (R131). The code is unary without a bound; `maxBins` bounds the walk, and a longer code gives none. -/
def decodeMbQpDelta (a : Bool) (maxBins : Nat) (s : State) : Option (Int × State) := do
  let (k, s) ← decodeUnary (fun j => cselAB .mbQpDelta (min j 63) a false) maxBins 0 s
  if k < maxBins then return (mbQpDeltaValue k, s) else none

/-- CSEL ABS_LEVEL for bin `j` (R132). -/
def cselAbsLevel (cat : BlockCat) (j : Nat) : Instr := .csel .absLevel cat (min j 63) false false false false

/-- Bin `j` of the Exp-Golomb suffix (R132): BYP alone, or CSEL ABS_LEVEL with idx = min(j, 63) and then BYP. R132 lets
the host do either, bin by bin, so `viaCsel` tells for each bin index whether the CSEL comes first (DESIGN CHOICE, log
21: the choice is an argument). The bin is the same; the CSEL also writes SELCTX and SELV, and RESULT before the bin
does. -/
def suffixBin (viaCsel : Nat → Bool) (cat : BlockCat) (j : Nat) (s : State) : Option (Bool × State) :=
  if viaCsel j then codedBin (cselAbsLevel cat j) s else askBin .byp s

/-- The unary part of the Exp-Golomb suffix (R132) from bin `j` on: the next bin's index, k and the sum so far. It ends
where bits run out. A CSEL precedes a bin where `viaCsel` says so (log 21). -/
def egUnary (viaCsel : Nat → Bool) (cat : BlockCat) :
    Nat → Nat → Nat → Nat → State → Option (Nat × Nat × Nat × State)
  | 0, _, _, _, _ => none
  | fuel + 1, j, k, suf, s => do
    let (b, s) ← suffixBin viaCsel cat j s
    if b then egUnary viaCsel cat fuel (j + 1) (k + 1) (suf + 2 ^ k) s else return (j + 1, k, suf, s)

/-- The binary part of the Exp-Golomb suffix (R132): `k` bins from bin `j` on. -/
def egBinary (viaCsel : Nat → Bool) (cat : BlockCat) : Nat → Nat → Nat → State → Option (Nat × State)
  | 0, _, suf, s => some (suf, s)
  | k + 1, j, suf, s => do
    let (b, s) ← suffixBin viaCsel cat j s
    egBinary viaCsel cat k (j + 1) (suf + b.toNat * 2 ^ k) s

/-- coeff_abs_level_minus1 (R132): a prefix of at most 14 context-coded bins, then a 0th-order Exp-Golomb suffix. The
spec leaves it to the host whether a CSEL precedes a suffix bin: `viaCsel` says it for each bin index (DESIGN CHOICE, log
21). -/
def decodeAbsLevel (viaCsel : Nat → Bool) (cat : BlockCat) (s : State) : Option (Nat × State) := do
  let (p, s) ← decodeUnary (cselAbsLevel cat) 14 0 s
  if p < 14 then return (p, s)
  let (j, k, suf, s) ← egUnary viaCsel cat (8 * s.buf.length + 1) 14 0 0 s
  let (suf, s) ← egBinary viaCsel cat k j suf s
  return (14 + suf, s)

/-! ## The residual block -/

/-- maxNumCoeff (R133); none for the unsupported categories. -/
def maxNumCoeff (cat : BlockCat) (c : Bool) : Option Nat :=
  match cat with
  | .intra16x16DC => some 16
  | .intra16x16AC => some 15
  | .luma4x4 => some 16
  | .chromaDC => some (4 * numC8x8 c)
  | .chromaAC => some 15
  | .luma8x8 => some 64
  | .cat6 | .cat7 => none

/-- The forward scan (R133): the positions found significant, latest first, with `left` flags still to read. The
coefficient after the last flag is significant without one. -/
def scanSignificance (cat : BlockCat) (c : Bool) : Nat → Nat → List Nat → State → Option (List Nat × State)
  | 0, i, found, s => some (i :: found, s)
  | left + 1, i, found, s => do
    let (sig, s) ← codedBin (.csel .sig cat i false false false c) s
    if sig then
      let (last, s) ← codedBin (.csel .last cat i false false false c) s
      if last then return (i :: found, s)
      else scanSignificance cat c left (i + 1) (i :: found) s
    else scanSignificance cat c left (i + 1) found s

/-- One level of the reverse scan: its magnitude, LVLACC, its sign (R133). -/
def decodeLevel (viaCsel : Nat → Bool) (cat : BlockCat) (s : State) : Option (Int × State) := do
  let (a, s) ← decodeAbsLevel viaCsel cat s
  let (_, s) ← askUnit (.lvlacc (if a = 0 then .eq1 else .gt1)) s
  let (neg, s) ← codedBin (cselAB .sign 0 false false) s
  return (if neg then -((a : Int) + 1) else (a : Int) + 1, s)

/-- The reverse scan over the significant positions, last first (R133). -/
def scanLevels (viaCsel : Nat → Bool) (cat : BlockCat) : List Nat → List Int → State → Option (List Int × State)
  | [], levels, s => some (levels, s)
  | i :: rest, levels, s => do
    let (v, s) ← decodeLevel viaCsel cat s
    scanLevels viaCsel cat rest (levels.set i v) s

/-- The residual block procedure (R133): the coefficient levels in scan order. `a` and `b` are coded_block_flag's
condition flags (R138); `is444` tells whether CAT 5 carries the flag, `viaCsel` which suffix bins a CSEL precedes (log
21). -/
def decodeResidual (viaCsel : Nat → Bool) (cat : BlockCat) (a b c is444 : Bool) (s : State) :
    Option (List Int × State) := do
  let n ← maxNumCoeff cat c
  let (cbf, s) ←
    if cat = .luma8x8 ∧ is444 = false then some (true, s) else codedBin (.csel .cbf cat 0 a b false c) s
  if cbf = false then return (List.replicate n 0, s)
  let (found, s) ← scanSignificance cat c (n - 1) 0 [] s
  let (_, s) ← askUnit .lvlrst s
  scanLevels viaCsel cat found (List.replicate n 0) s

/-! ## Condition flags -/

/-- The kinds of macroblock that the condition flags tell apart. -/
inductive MbKind where
  | iNxN | i16x16 | iPcm | inter
deriving DecidableEq, Repr

/-- What the host remembers of a decoded macroblock. -/
structure MbInfo where
  kind : MbKind
  transform8x8 : Bool
  intraChromaPredMode : Nat
  cbpLuma : Nat
  cbpChroma : Nat
  qpDelta : Int
deriving DecidableEq, Repr

/-- condTermFlagN of mb_type's bin 0 (R135). `none` is an unavailable neighbour (R134), here and below. -/
def condMbType : Option MbInfo → Bool
  | none => false
  | some m => m.kind ≠ .iNxN

/-- condTermFlagN of transform_size_8x8_flag (R135). -/
def condTransform8x8 : Option MbInfo → Bool
  | none => false
  | some m => m.transform8x8

/-- condTermFlagN of intra_chroma_pred_mode's bin 0 (R135). -/
def condChromaPred : Option MbInfo → Bool
  | none => false
  | some m => m.kind ≠ .inter && m.kind ≠ .iPcm && m.intraChromaPredMode ≠ 0

/-- condTermFlagN of a luma bin of coded_block_pattern; `b8N` is the neighbouring 8x8 block in its macroblock (R136). -/
def condCbpLuma (b8N : Nat) : Option MbInfo → Bool
  | none => false
  | some m => m.kind ≠ .iPcm && !m.cbpLuma.testBit b8N

/-- condTermFlagN of a chroma bin of coded_block_pattern, bin 0 or bin 1 (R136). -/
def condCbpChroma (bin : Nat) : Option MbInfo → Bool
  | none => false
  | some m => m.kind = .iPcm || (if bin = 0 then m.cbpChroma ≠ 0 else m.cbpChroma = 2)

/-- The 8x8 block beside a block: its number, and whether it lies in the same macroblock. -/
structure Neighbour8x8 where
  inCurrent : Bool
  b8 : Nat
deriving DecidableEq, Repr

/-- The 8x8 block to the left of block `b8` of 0 to 3 (R136). The blocks stand in two rows, 0 and 1 above 2 and 3 (PRESUMED,
log 22). -/
def leftOf8x8 (b8 : Nat) : Neighbour8x8 := if b8 % 2 = 0 then ⟨false, b8 + 1⟩ else ⟨true, b8 - 1⟩

/-- The 8x8 block above block `b8` of 0 to 3 (R136; log 22). -/
def aboveOf8x8 (b8 : Nat) : Neighbour8x8 := if b8 < 2 then ⟨false, b8 + 2⟩ else ⟨true, b8 - 2⟩

/-- condTermFlagN of a luma bin of coded_block_pattern for the 8x8 block `n` (R136): an earlier block of the current
macroblock counts by its bin in `decoded`, the bins decoded so far; a block of the macroblock `mb` by that one's pattern. -/
def condCbpLumaAt (mb : Option MbInfo) (decoded : Nat) (n : Neighbour8x8) : Bool :=
  if n.inCurrent then !decoded.testBit n.b8 else condCbpLuma n.b8 mb

/-- A and B of luma bin `b8` from the macroblocks to the left and above and the bins decoded before it (R136). -/
def cbpLumaFlags (mbA mbB : Option MbInfo) (b8 decoded : Nat) : Bool × Bool :=
  (condCbpLumaAt mbA decoded (leftOf8x8 b8), condCbpLumaAt mbB decoded (aboveOf8x8 b8))

/-- A and B of chroma bin 0 or 1 from the macroblocks to the left and above (R136). -/
def cbpChromaFlags (mbA mbB : Option MbInfo) (bin : Nat) : Bool × Bool := (condCbpChroma bin mbA, condCbpChroma bin mbB)

/-- The coded block pattern of a macroblock by its mb_type, with the condition flags that R136 derives from the macroblocks
to the left and above and from the bins themselves (R130). -/
def decodeMbCbpBeside (mbType : Nat) (monochrome : Bool) (mbA mbB : Option MbInfo) (s : State) :
    Option (Option CodedBlockPattern × State) :=
  decodeMbCbp mbType monochrome (cbpLumaFlags mbA mbB) (cbpChromaFlags mbA mbB) s

/-- A of mb_qp_delta's bin 0, from the previous macroblock in decoding order (R137). -/
def condMbQpDelta : Option MbInfo → Bool
  | none => false
  | some m =>
    !(m.kind = .iPcm || (m.kind ≠ .i16x16 && m.cbpLuma = 0 && m.cbpChroma = 0) || m.qpDelta = 0)

/-- condTermFlagN of coded_block_flag (R138): the neighbour's macroblock, and the flag of its block transBlockN where
that block exists. -/
def condCbf (mb : Option MbInfo) (transBlock : Option Bool) : Bool :=
  match mb with
  | none => true
  | some m => if m.kind = .iPcm then true else transBlock.getD false

/-- NumC8x8 from the chroma subsampling (R139). -/
def numC8x8Of (subWidthC subHeightC : Nat) : Nat := 4 / (subWidthC * subHeightC)

/-- CSEL's field C: 1 only for 4:2:2 (R139). The spec gives only the product of the two factors there; that SubWidthC is the
one that is 2 is the model's (PRESUMED, log 23: ITU-T H.264). -/
def fieldC (subWidthC subHeightC : Nat) : Bool := subWidthC = 2 && subHeightC = 1

/-! ## Slice sequences -/

/-- The actions of a slice start (R166 steps 1 to 3): CINIT, the buffer with CURSOR at the slice data, EINIT. -/
def sliceStart (idc qbd : Nat) (sqd piq : Int) (bytes : List Byte) (c : Nat) : List HostAction :=
  [.command (encode (.cinit .i idc qbd sqd piq)), .present bytes c, .command (encode .einit)]

/-- CURSOR at the next byte boundary, where the I_PCM samples start (R167 step 1). -/
def pcmStart (cursor : Nat) : Nat := (cursor + 7) / 8 * 8

/-- The actions after the I_PCM terminate bin, for `sampleBits` bits of samples: CURSOR after the last of them, EINIT; the
contexts are kept (R167). -/
def pcmRestart (cursor sampleBits : Nat) : List HostAction :=
  [.setCursor (pcmStart cursor + sampleBits), .command (encode .einit)]

end Sys2Proof.Machine
end

