-- ==== Sys2Proof/Safety.lean ====
section
/-! DEFINITION. What a good state is, what a safe run is, and which states no command can tell apart: the terms in
which the claims are stated. -/

namespace Sys2Proof.Machine

open Sys2Proof

/-- What R89, R91, R92, R103 and R107 derive from the tables, and all that they need of them: a set of tables that has
been checked (93 U5). The intended ones are one. -/
structure CheckedTables (t : ConstTables) : Prop where
  /-- R80: every entry of RANGE_TAB_LPS is between 2 and 240, and at most 128 + 48 q in column q. -/
  range : ∀ (p : BitVec 6) (q : Nat), q < 4 →
    2 ≤ rangeTabLPS t p q ∧ rangeTabLPS t p q ≤ 240 ∧ rangeTabLPS t p q ≤ 128 + 48 * q
  /-- R80: rows 0 to 62 have entries of at least 6. -/
  rangeBelow63 : ∀ (p : BitVec 6) (q : Nat), p.toNat ≤ 62 → q < 4 → 6 ≤ rangeTabLPS t p q
  /-- R92: no LPS leads from 0..62 to 63. -/
  lps : ∀ p : BitVec 6, p.toNat ≤ 62 → (transIdxLPS t p).toNat ≤ 62
  /-- R92: no MPS leads from 0..62 to 63. -/
  mps : ∀ p : BitVec 6, p.toNat ≤ 62 → (transIdxMPS t p).toNat ≤ 62
  /-- R107: a context-coded bin has an index that CSEL may select. -/
  selects : ∀ (se : SyntaxElement) (cat : BlockCat) (idx : Nat) (a b x c : Bool) (eq1 gt1 : Nat) (sel : Selection),
    idxOutOfRange se cat idx c = false → select t se cat idx a b x c eq1 gt1 = some sel → sel.kind = .context →
    selectable sel.ctxIdx = true
  /-- R103: a terminate bin reports 276. -/
  terminate : t.ctxIdxOffset.endOfSlice = 276

/-- R89: while ENG = ACTIVE, 256 <= codIRange <= 510 and codIOffset < codIRange; after a terminate bin of 1,
254 <= codIRange <= 508 and codIOffset - codIRange is 0 or 1. -/
def EngineInv (s : State) : Prop :=
  (s.eng = .active →
    256 ≤ s.codIRange.toNat ∧ s.codIRange.toNat ≤ 510 ∧ s.codIOffset.toNat < s.codIRange.toNat) ∧
  (s.eng = .terminated →
    254 ≤ s.codIRange.toNat ∧ s.codIRange.toNat ≤ 508 ∧
      (s.codIOffset.toNat = s.codIRange.toNat ∨ s.codIOffset.toNat = s.codIRange.toNat + 1))

/-- R92: no context that CINIT has initialised is at pStateIdx 63. -/
def ContextInv (s : State) : Prop := s.ctxv = true → ∀ k, (s.ctx.get k).pStateIdx.toNat ≤ 62

/-- R25: 0 <= CURSOR <= 8*LEN. -/
def CursorInv (s : State) : Prop := s.cursor ≤ 8 * s.buf.length

/-- R107: a valid SELCTX is an index that CSEL selects. -/
def SelectionInv (s : State) : Prop := s.selv = true → selectable s.selctx.toNat = true

/-- R20 and R30: whenever an indicator says that a command has completed, RESULT holds a value. -/
def ResultInv (s : State) : Prop := (s.ctxv = true ∨ s.eng ≠ .uninit ∨ s.selv = true) → s.resultv = true

/-- The invariant of the machine: what every step keeps, from reset on. -/
structure MachineInv (s : State) : Prop where
  tables : CheckedTables s.config.tables
  engine : EngineInv s
  contexts : ContextInv s
  cursor : CursorInv s
  selection : SelectionInv s
  resultHeld : ResultInv s

/-- The step goes on: it neither faults nor refuses. -/
def GoesOn (o : Host.Outcome State Fault Refusal) : Prop := ∃ t, o = .next t

/-- A run of `k` steps is safe when no step of it faults or refuses. -/
def SafeRun (k : Nat) (s : State) : Prop := GoesOn (Host.Core.run Sys2Proof.core k s)

/-- The host does nothing but write command words, whichever they are. -/
def CommandsOnly (actions : List HostAction) : Prop := ∀ a ∈ actions, ∃ w, a = .command w

/-- Two states that agree on everything that holds a value (R30): the engine's registers only where ENG is not UNINIT,
the contexts only where CTXV = 1, SELCTX only where SELV = 1, RESULT only where a command has completed. -/
structure AgreeOnHeld (s t : State) : Prop where
  eng : s.eng = t.eng
  ctxv : s.ctxv = t.ctxv
  selv : s.selv = t.selv
  eq1cnt : s.eq1cnt = t.eq1cnt
  gt1cnt : s.gt1cnt = t.gt1cnt
  err : s.err = t.err
  resultv : s.resultv = t.resultv
  cursor : s.cursor = t.cursor
  buf : s.buf = t.buf
  config : s.config = t.config
  port : s.port = t.port
  readData : s.readData = t.readData
  registers : s.eng ≠ .uninit → s.codIRange = t.codIRange ∧ s.codIOffset = t.codIOffset
  contexts : s.ctxv = true → s.ctx = t.ctx
  selctx : s.selv = true → s.selctx = t.selctx
  result : s.resultv = true → s.result = t.result

/-- Two outcomes alike up to a relation on the states they answer. -/
def AgreeOutcome (R : State → State → Prop) (o p : Host.Outcome State Fault Refusal) : Prop :=
  match o, p with
  | .next s, .next t => R s t
  | .fault f, .fault g => f = g
  | .refused f, .refused g => f = g
  | .next _, .fault _ | .next _, .refused _ | .fault _, .next _ | .fault _, .refused _
  | .refused _, .next _ | .refused _, .fault _ => False

/-- The state with EPB_POLICY set to `p` (R52). -/
def State.withEpbPolicy (p : Bool) (s : State) : State := { s with config := { s.config with epbPolicy := p } }

/-- The state with other configuration tables (R7). -/
def State.withTables (t : ConstTables) (s : State) : State := { s with config := { s.config with tables := t } }

/-- IDX above the range that R103 gives its element, by the codes of the fields SE, CAT and C (R62, R63); SE 14 to 31, and
SE 9 and 10 in CAT 6 and 7, have no range. -/
def IdxAboveR103 (se cat idx c : Nat) : Prop :=
  (se = 0 ∧ 6 < idx) ∨
  ((se = 1 ∨ se = 2 ∨ se = 8 ∨ se = 12 ∨ se = 13) ∧ 0 < idx) ∨
  ((se = 3 ∨ se = 4) ∧ 2 < idx) ∨
  (se = 5 ∧ 3 < idx) ∨
  (se = 6 ∧ 1 < idx) ∨
  ((se = 7 ∨ se = 11) ∧ 63 < idx) ∨
  ((se = 9 ∨ se = 10) ∧
    (((cat = 0 ∨ cat = 2) ∧ 14 < idx) ∨ ((cat = 1 ∨ cat = 4) ∧ 13 < idx) ∨ (cat = 3 ∧ c = 0 ∧ 2 < idx) ∨
      (cat = 3 ∧ c = 1 ∧ 6 < idx) ∨ (cat = 5 ∧ 62 < idx)))

/-- What is left of a state when CSEL has reported `kind` and `ci` (R70, R102): RESULT is KIND in bits 13:12 and the index
in bits 9:0, SELCTX the index, SELV whether the bin is context-coded. -/
def State.selected (s : State) (kind : BinKind) (ci : Nat) : State :=
  { s with
    selctx := BitVec.ofNat 10 ci
    selv := kind == .context
    result := BitVec.ofNat 32 (kind.code * 4096 + ci)
    resultv := true }

/-- CSEL takes `k` for the index of a context-coded bin: it reports `k` where that fits the 10-bit SELCTX, as it does with the
intended tables, and stops where it does not (R100, R8; log 7). -/
def SelectsSum (s : State) (se : SyntaxElement) (cat : BlockCat) (idx : Nat) (a b x c : Bool) (k : Nat) : Prop :=
  exec (.csel se cat idx a b x c) s =
      (if k < 1024 then .next (s.selected .context k) else .fault .valueDoesNotFit) ∧
    (s.config.tables = intendedTables → k < 1024)

end Sys2Proof.Machine
end

