-- ==== Sys2Proof/Certificates/Slice0/Obligations.lean ====
section
/-! DEFINITION. The statements for the provers. Where a statement rests on a choice of the model, its docstring names the
log entry. -/

open Sys2Proof Sys2Proof.Machine

/-! ## Encoding -/

/-- One word for each row of the opcode table, written out from R55 to R60 and R68, decodes to its command. -/
def Obligations.WrittenOutWordsDecode : Prop :=
  decodeWord 0x140CECE6 = .ok (.cinit .i 0 12 (-20) (-26)) ∧
  decodeWord 0x1E000000 = .ok (.cinit (.reserved 7) 0 0 0 0) ∧
  decodeWord 0x20000000 = .ok .einit ∧
  decodeWord 0x30000114 = .ok (.dec 276) ∧
  decodeWord 0x38000000 = .ok .decS ∧
  decodeWord 0x40000000 = .ok .byp ∧
  decodeWord 0x50000000 = .ok .trm ∧
  decodeWord 0x64B14400 = .ok (.csel .sig .chromaDC 5 false false false true) ∧
  decodeWord 0x60010800 = .ok (.csel .mbTypeI .intra16x16DC 4 false false true false) ∧
  decodeWord 0x6F800000 = .ok (.csel (.reserved 31) .intra16x16DC 0 false false false false) ∧
  decodeWord 0x70000000 = .ok .lvlrst ∧
  decodeWord 0x80000000 = .ok (.lvlacc .eq1) ∧
  decodeWord 0x80000001 = .ok (.lvlacc .gt1) ∧
  decodeWord 0x90000003 = .ok (.rdctx 3) ∧
  decodeWord 0xA0000000 = .ok .rdeng

/-- Decoding an encoded well-formed command gives it back, with every operand at every value its field admits (R54 to
R61). -/
def Obligations.DecodeOfEncode : Prop :=
  ∀ i : Instr, i.wellFormed = true → decodeWord (encode i) = .ok i

/-- A word that decodes is the word of its command, and the command is well-formed: no word has two readings and no bit
of one is dropped (R53 to R65). -/
def Obligations.EncodeOfDecode : Prop :=
  ∀ (w : Word) (i : Instr), decodeWord w = .ok i → encode i = w ∧ i.wellFormed = true

/-- R64: a word whose opcode is 0x0 or 0xB to 0xF raises E_ILLEGAL_COMMAND and does nothing else; with ERR already
latched it does nothing at all. -/
def Obligations.UndefinedOpcodesRaiseIllegalCommand : Prop :=
  ∀ (w : Word) (s : State), bits w 31 28 = 0 ∨ 11 ≤ bits w 31 28 →
    issueWord w s = .next (if s.err = .none then { s with err := .illegalCommand } else s)

/-- R65: a word with a defined opcode raises E_ILLEGAL_OPERAND exactly when a must-be-0 bit is 1, or DEC.S has a CTX, or
CINIT's SLT is 5 to 7, or CSEL's SE is reserved or its IDX above the range that R103 gives its element (IdxAboveR103
writes those ranges out by the fields' codes). -/
def Obligations.IllegalOperandExactlyWhenR65Says : Prop :=
  ∀ (w : Word) (s : State), s.err = .none → 1 ≤ bits w 31 28 → bits w 31 28 ≤ 10 →
    (issueWord w s = .next { s with err := .illegalOperand } ↔
      ((bits w 31 28 = 2 ∨ bits w 31 28 = 4 ∨ bits w 31 28 = 5 ∨ bits w 31 28 = 7 ∨ bits w 31 28 = 10) ∧
          bits w 27 0 ≠ 0) ∨
      (bits w 31 28 = 3 ∧ (bits w 26 10 ≠ 0 ∨ (bits w 27 27 = 1 ∧ bits w 9 0 ≠ 0))) ∨
      (bits w 31 28 = 8 ∧ bits w 27 1 ≠ 0) ∨
      (bits w 31 28 = 9 ∧ bits w 27 10 ≠ 0) ∨
      (bits w 31 28 = 1 ∧ 5 ≤ bits w 27 25) ∨
      (bits w 31 28 = 6 ∧
        (bits w 9 0 ≠ 0 ∨ bits w 27 23 = 14 ∨ bits w 27 23 = 15 ∨ 26 ≤ bits w 27 23 ∨
          IdxAboveR103 (bits w 27 23) (bits w 22 20) (bits w 19 14) (bits w 10 10))))

/-! ## Steps and the host's actions -/

/-- A step whose pending action is a command word issues exactly that word, with the action taken off the port: a word
that decodes runs its command, and a word that does not raises the error of R64 or R65, or is refused while ERR is not 0
(R53, R64, R65, R71, R147; the port is the model's own, log 3). -/
def Obligations.StepRunsDecodedCommand : Prop :=
  ∀ (s : State) (w : Word) (rest : List HostAction), s.port = .command w :: rest →
    step s = issueWord w { s with port := rest } ∧
    (∀ i, decodeWord w = .ok i → step s = exec i { s with port := rest }) ∧
    (decodeWord w = .error .illegalCommand →
      step s = .next (if s.err = .none then { s with port := rest, err := .illegalCommand } else { s with port := rest })) ∧
    (decodeWord w = .error .illegalOperand →
      step s = .next (if s.err = .none then { s with port := rest, err := .illegalOperand } else { s with port := rest }))

/-- With no action pending the unit waits and holds its state (R160, R165; the model's choice, log 3). -/
def Obligations.StepWaitsWithNothingPending : Prop :=
  ∀ s : State, s.port = [] → step s = .next s

/-- R143: a read of STATUS delivers SELV, CTXV, ENG and ERR in their places, with the codes of R17 and R145, at any time,
and changes nothing of the unit. readData, where the model keeps what the host was given, is the model's choice (DESIGN
CHOICE, log 12). -/
def Obligations.StatusReadHasNoSideEffect : Prop :=
  ∀ (s : State) (rest : List HostAction), s.port = .readStatus :: rest →
    step s = .next { s with
      port := rest
      readData := BitVec.ofNat 32
        (128 * s.selv.toNat + 64 * s.ctxv.toNat +
          16 * (match s.eng with
            | .uninit => 0
            | .active => 1
            | .terminated => 2) +
          (match s.err with
            | .none => 0
            | .illegalCommand => 1
            | .illegalOperand => 2
            | .notInit => 3
            | .exhausted => 4
            | .offsetInit => 5
            | .unsupported => 6
            | .structural => 7)) }

/-- A read of RESULT delivers it once a command has completed since reset, and stops the model before that (R20, R30).
RESULT and the indicator that it holds a value (DEDUCED, log 2) change only when a word completes a command, which sets
the indicator, and at a reset, which clears it: a word that raises an error, is refused or does not decode, and every
other action of the host, leave both. readData, where the model keeps what the host was given, is the model's choice
(DESIGN CHOICE, log 12). -/
def Obligations.ResultReadNeedsACompletedCommand : Prop :=
  (∀ (s : State) (rest : List HostAction), s.port = .readResult :: rest →
    (s.resultv = true → step s = .next { s with port := rest, readData := s.result }) ∧
    (s.resultv = false → step s = .fault .resultHasNoValue)) ∧
  (∀ (w : Word) (s t : State), issueWord w s = .next t →
    t = s ∨ (t.err ≠ .none ∧ t = { s with err := t.err }) ∨
    (t.resultv = true ∧ (∃ i, decodeWord w = .ok i) ∧
      ∃ u, issueWord w { s with err := .none } = .next u ∧ u.err = .none ∧ u.result = t.result)) ∧
  (∀ (a : HostAction) (s t : State) (rest : List HostAction), s.port = a :: rest → step s = .next t →
    (∀ w, a ≠ .command w) → a ≠ .reset → t.result = s.result ∧ t.resultv = s.resultv) ∧
  (∀ (s t : State) (rest : List HostAction), s.port = .reset :: rest → step s = .next t → t.resultv = false)

/-- The host moves CURSOR anywhere inside the buffer, presents a buffer while ENG is not ACTIVE, extends it at any time,
and resets the unit, which leaves the host's side as it is; elsewhere the model stops (R25, R50, R164, R166, R172, R173;
the model's choices in logs 3, 4, 10 and 11). -/
def Obligations.HostPlacesCursorAndBuffer : Prop :=
  ∀ (s : State) (rest : List HostAction),
    (∀ c, s.port = .setCursor c :: rest →
      (c ≤ 8 * s.buf.length → step s = .next { s with port := rest, cursor := c }) ∧
      (8 * s.buf.length < c → step s = .fault .cursorOutOfRange)) ∧
    (∀ bytes c, s.port = .present bytes c :: rest →
      (s.eng = .active → step s = .fault .bufferChangedWhileActive) ∧
      (s.eng ≠ .active → c ≤ 8 * bytes.length → step s = .next { s with port := rest, buf := bytes, cursor := c }) ∧
      (s.eng ≠ .active → 8 * bytes.length < c → step s = .fault .cursorOutOfRange)) ∧
    (∀ bytes, s.port = .extend bytes :: rest → step s = .next { s with port := rest, buf := s.buf ++ bytes }) ∧
    (s.port = .reset :: rest →
      ∃ t, step s = .next t ∧ t = resetUnit { s with port := rest } ∧ t.cursor = s.cursor ∧ t.buf = s.buf ∧
        t.config = s.config ∧ t.port = rest ∧ t.readData = s.readData)

/-- R31: after a reset, and at power-on, ENG is UNINIT and CTXV, SELV, both counters and ERR are 0; codIRange,
codIOffset, the contexts, SELCTX and RESULT hold no value, so that any others in their place make no difference; and
reset does not set CURSOR. -/
def Obligations.ResetSetsTheUnitsState : Prop :=
  (∀ s : State,
    (resetUnit s).eng = .uninit ∧ (resetUnit s).ctxv = false ∧ (resetUnit s).selv = false ∧
    (resetUnit s).eq1cnt = 0 ∧ (resetUnit s).gt1cnt = 0 ∧ (resetUnit s).err = .none ∧
    (resetUnit s).cursor = s.cursor ∧
    ∀ range offset contexts k r,
      AgreeOnHeld (resetUnit s)
        { resetUnit s with codIRange := range, codIOffset := offset, ctx := contexts, selctx := k, result := r }) ∧
  (State.reset.eng = .uninit ∧ State.reset.ctxv = false ∧ State.reset.selv = false ∧
    State.reset.eq1cnt = 0 ∧ State.reset.gt1cnt = 0 ∧ State.reset.err = .none ∧
    ∀ range offset contexts k r,
      AgreeOnHeld State.reset
        { State.reset with codIRange := range, codIOffset := offset, ctx := contexts, selctx := k, result := r })

/-! ## Errors -/

/-- R147: while ERR is not 0, every word but CINIT, RDCTX and RDENG does nothing; the exempt commands run; ERR keeps its
first value until a CINIT succeeds or the unit is reset; an exempt command changes at most RESULT unless it is that CINIT.
While ERR is 0, a command either leaves it 0 or latches its code and has no other effect. -/
def Obligations.ErrorLatchRefusesAndKeepsTheFirst : Prop :=
  (∀ (w : Word) (s : State),
    (s.err ≠ .none → bits w 31 28 ≠ 1 → bits w 31 28 ≠ 9 → bits w 31 28 ≠ 10 → issueWord w s = .next s) ∧
    (∀ t, issueWord w s = .next t →
      (s.err ≠ .none → t.err = s.err ∨
        (t.err = .none ∧ ∃ idc qbd sqd piq, decodeWord w = .ok (.cinit .i idc qbd sqd piq) ∧ idc ≠ 3)) ∧
      (s.err ≠ .none → t.err ≠ .none → t = s ∨ t = { s with result := t.result, resultv := true }) ∧
      (s.err = .none → t.err = .none ∨ t = { s with err := t.err })) ∧
    (∀ idc qbd sqd piq, decodeWord w = .ok (.cinit .i idc qbd sqd piq) → idc ≠ 3 →
      ∃ t, issueWord w s = .next t ∧ t.err = .none) ∧
    (∀ k, decodeWord w = .ok (.rdctx k) → s.ctxv = true →
      ∃ r, issueWord w s = .next { s with result := r, resultv := true }) ∧
    (decodeWord w = .ok .rdeng → s.eng ≠ .uninit →
      ∃ r, issueWord w s = .next { s with result := r, resultv := true })) ∧
  (∀ s : State, (resetUnit s).err = .none)

/-- R146: a command that raises an error changes no state except ERR. -/
def Obligations.ErrorsRollBack : Prop :=
  ∀ (w : Word) (s t : State), issueWord w s = .next t → t.err ≠ s.err → t.err ≠ .none →
    t = { s with err := t.err }

/-- Each command raises only the errors that R163 lists for it (R145, R163). -/
def Obligations.EachCommandRaisesOnlyItsErrors : Prop :=
  ∀ (i : Instr) (s t : State), s.err = .none → exec i s = .next t → t.err ≠ .none →
    match i with
    | .cinit _ _ _ _ _ => t.err = .illegalOperand ∨ t.err = .structural ∨ t.err = .unsupported
    | .einit => t.err = .exhausted ∨ t.err = .offsetInit
    | .dec _ | .decS | .byp | .trm => t.err = .notInit ∨ t.err = .exhausted
    | .csel _ _ _ _ _ _ _ => t.err = .illegalOperand ∨ t.err = .unsupported
    | .lvlrst | .lvlacc _ => False
    | .rdctx _ | .rdeng => t.err = .notInit

/-- R148: which error a word reports when several apply, from an undefined opcode down to EINIT's value check. -/
def Obligations.ErrorPrecedence : Prop :=
  ∀ (w : Word) (s : State), s.err = .none →
    -- 1: an undefined opcode
    (bits w 31 28 = 0 ∨ 11 ≤ bits w 31 28 → issueWord w s = .next { s with err := .illegalCommand }) ∧
    -- 2: the must-be-0 bits, whatever the state
    ((bits w 31 28 = 2 ∨ bits w 31 28 = 4 ∨ bits w 31 28 = 5 ∨ bits w 31 28 = 7 ∨ bits w 31 28 = 10) →
      bits w 27 0 ≠ 0 → issueWord w s = .next { s with err := .illegalOperand }) ∧
    (bits w 31 28 = 3 → bits w 26 10 ≠ 0 ∨ (bits w 27 27 = 1 ∧ bits w 9 0 ≠ 0) →
      issueWord w s = .next { s with err := .illegalOperand }) ∧
    (bits w 31 28 = 8 → bits w 27 1 ≠ 0 → issueWord w s = .next { s with err := .illegalOperand }) ∧
    (bits w 31 28 = 9 → bits w 27 10 ≠ 0 → issueWord w s = .next { s with err := .illegalOperand }) ∧
    -- 2, 3, 4: CINIT's fields
    (bits w 31 28 = 1 → 5 ≤ bits w 27 25 → issueWord w s = .next { s with err := .illegalOperand }) ∧
    (bits w 31 28 = 1 → bits w 27 25 ≤ 4 → bits w 24 23 = 3 → issueWord w s = .next { s with err := .structural }) ∧
    (bits w 31 28 = 1 → bits w 27 25 ≤ 4 → bits w 27 25 ≠ 2 → bits w 24 23 ≠ 3 →
      issueWord w s = .next { s with err := .unsupported }) ∧
    -- 2, 4: CSEL's fields
    (∀ se cat idx a b x c, decodeWord w = .ok (.csel se cat idx a b x c) →
      (se.code = 14 ∨ se.code = 15 ∨ 26 ≤ se.code ∨ IdxAboveR103 se.code cat.code idx c.toNat →
        issueWord w s = .next { s with err := .illegalOperand }) ∧
      (se.code ≠ 14 → se.code ≠ 15 → se.code < 26 → ¬IdxAboveR103 se.code cat.code idx c.toNat →
        (16 ≤ se.code ∨ (8 ≤ se.code ∧ se.code ≤ 11 ∧ 6 ≤ cat.code)) →
        issueWord w s = .next { s with err := .unsupported })) ∧
    (bits w 31 28 = 6 → bits w 9 0 ≠ 0 → issueWord w s = .next { s with err := .illegalOperand }) ∧
    -- 5: the state's preconditions, whatever the buffer
    (∀ k, decodeWord w = .ok (.dec k) → (s.ctxv = false ∨ s.eng ≠ .active) →
      issueWord w s = .next { s with err := .notInit }) ∧
    (decodeWord w = .ok .decS → (s.ctxv = false ∨ s.eng ≠ .active ∨ s.selv = false) →
      issueWord w s = .next { s with err := .notInit }) ∧
    (decodeWord w = .ok .byp ∨ decodeWord w = .ok .trm → s.eng ≠ .active →
      issueWord w s = .next { s with err := .notInit }) ∧
    (∀ k, decodeWord w = .ok (.rdctx k) → s.ctxv = false → issueWord w s = .next { s with err := .notInit }) ∧
    (decodeWord w = .ok .rdeng → s.eng = .uninit → issueWord w s = .next { s with err := .notInit }) ∧
    -- 6: a bit read, before 7: EINIT's value
    (decodeWord w = .ok .einit → 8 * s.buf.length < s.cursor + 9 →
      issueWord w s = .next { s with err := .exhausted }) ∧
    (decodeWord w = .ok .byp → s.eng = .active → 8 * s.buf.length ≤ s.cursor →
      issueWord w s = .next { s with err := .exhausted }) ∧
    (∀ v, decodeWord w = .ok .einit → readBits s.buf 9 s.cursor = some v → 510 ≤ v →
      issueWord w s = .next { s with err := .offsetInit })

/-! ## Bit input -/

/-- ReadBit finds a bit exactly below 8*LEN, and it is bit 7 - (CURSOR mod 8) of the byte at CURSOR / 8 (R38, R43). -/
def Obligations.ReadBitIsMostSignificantFirst : Prop :=
  ∀ (buf : List Byte) (c : Nat),
    readBit buf c =
      if 8 * buf.length ≤ c then none
      else some (decide ((buf.getD (c / 8) 0).toNat / 2 ^ (7 - c % 8) % 2 = 1))

/-- ReadBits(n) is the sum of the bits read, the first the most significant, and finds nothing where fewer than n bits
remain (R39, R43). -/
def Obligations.ReadBitsIsBigEndian : Prop :=
  ∀ (buf : List Byte) (n c : Nat),
    (c + n ≤ 8 * buf.length →
      readBits buf n c =
        some (∑ i ∈ Finset.range n, ((readBit buf (c + i)).getD false).toNat * 2 ^ (n - 1 - i))) ∧
    (0 < n → 8 * buf.length < c + n → readBits buf n c = none)

/-! ## The engine's commands -/

/-- R75 and R76: an I-slice CINIT answers, whatever ERR is, with every context set from its pair (m, n) and the slice's
QP, CTXV 1, ENG UNINIT, ERR 0 and RESULT the SliceQPY, and everything else as it was; any other CINIT raises its error. -/
def Obligations.CinitInitialisesEveryContext : Prop :=
  ∀ (slt : SliceType) (idc qbd : Nat) (sqd piq : Int) (s : State),
    (Instr.cinit slt idc qbd sqd piq).wellFormed = true →
    (slt = .i → idc ≠ 3 →
      ∃ t, exec (.cinit slt idc qbd sqd piq) s = .next t ∧
        t = { s with ctx := t.ctx, ctxv := true, eng := .uninit, err := .none, result := t.result, resultv := true } ∧
        t.result.toInt = max (-(qbd : Int)) (min 51 (26 + piq + sqd)) ∧
        ∀ k : CtxIdx, ∃ pre : Int,
          pre = max 1 (min 126 (((s.config.ctxInitMN.get k).1 *
            max 0 (min 51 (max (-(qbd : Int)) (min 51 (26 + piq + sqd))))) / 16 + (s.config.ctxInitMN.get k).2)) ∧
          ((t.ctx.get k).pStateIdx.toNat : Int) = (if pre ≤ 63 then 63 - pre else pre - 64) ∧
          (t.ctx.get k).valMPS = decide (63 < pre)) ∧
    (∀ code, slt = .reserved code →
      exec (.cinit slt idc qbd sqd piq) s = .next (if s.err = .none then { s with err := .illegalOperand } else s)) ∧
    ((∀ code, slt ≠ .reserved code) → idc = 3 →
      exec (.cinit slt idc qbd sqd piq) s = .next (if s.err = .none then { s with err := .structural } else s)) ∧
    ((∀ code, slt ≠ .reserved code) → slt ≠ .i → idc ≠ 3 →
      exec (.cinit slt idc qbd sqd piq) s = .next (if s.err = .none then { s with err := .unsupported } else s))

/-- R77: EINIT reads nine bits from CURSOR and starts the engine with them, in any ENG state; 510 and 511 and a lack of
bits are errors, and so is a must-be-0 bit. -/
def Obligations.EinitStartsTheEngine : Prop :=
  ∀ s : State, s.err = .none →
    (∀ v, readBits s.buf 9 s.cursor = some v → v < 510 →
      exec .einit s = .next
        { s with
          codIRange := 510, codIOffset := BitVec.ofNat 9 v, eng := .active, cursor := s.cursor + 9,
          result := BitVec.ofNat 32 v, resultv := true }) ∧
    (∀ v, readBits s.buf 9 s.cursor = some v → 510 ≤ v → exec .einit s = .next { s with err := .offsetInit }) ∧
    (8 * s.buf.length < s.cursor + 9 → exec .einit s = .next { s with err := .exhausted }) ∧
    (s.cursor + 9 ≤ 8 * s.buf.length → ∃ v, v < 512 ∧ readBits s.buf 9 s.cursor = some v) ∧
    (∀ w : Word, bits w 31 28 = 2 → bits w 27 0 ≠ 0 → issueWord w s = .next { s with err := .illegalOperand })

/-- R83 and R85, from an engine that meets R89 and with checked tables, the intended ones or any others with R80's bounds
(CheckedTables): DEC and DEC.S need CTXV and an ACTIVE engine, DEC.S a selected context too. They take the LPS path where
codIOffset is at least R1, with the bin 1 - valMPS, and the MPS path below it, with the bin valMPS as it stood before;
then they renormalise, and a missing bit undoes the context update as well. Set must-be-0 bits, and a CTX in DEC.S, are
illegal operands. -/
def Obligations.DecDecodesOneDecision : Prop :=
  (∀ (i : Instr) (ci : CtxIdx) (s : State),
    i = .dec ci ∨ (i = .decS ∧ s.selctx = ci) → s.err = .none →
    (s.ctxv = false ∨ s.eng ≠ .active ∨ (i = .decS ∧ s.selv = false) → exec i s = .next { s with err := .notInit }) ∧
    (s.ctxv = true → s.eng = .active → (i = .decS → s.selv = true) → EngineInv s → CheckedTables s.config.tables →
      let x := s.ctx.get ci
      let rLPS : Int := rangeTabLPS s.config.tables x.pStateIdx (s.codIRange.toNat / 64 % 4)
      let r1 : Int := s.codIRange.toNat - rLPS
      let o : Int := s.codIOffset.toNat
      let bin : Bool := if r1 ≤ o then !x.valMPS else x.valMPS
      let entry : Ctx :=
        if r1 ≤ o then ⟨transIdxLPS s.config.tables x.pStateIdx, if x.pStateIdx = 0 then !x.valMPS else x.valMPS⟩
        else ⟨transIdxMPS s.config.tables x.pStateIdx, x.valMPS⟩
      let reduced : EngineVals := if r1 ≤ o then ⟨rLPS, o - r1, s.cursor⟩ else ⟨r1, o, s.cursor⟩
      (renorm s.buf reduced = none → exec i s = .next { s with err := .exhausted }) ∧
      (∀ v, renorm s.buf reduced = some v →
        exec i s = .next
          { s with
            ctx := s.ctx.set ci entry
            codIRange := BitVec.ofInt 9 v.range
            codIOffset := BitVec.ofInt 9 v.offset
            cursor := v.cursor
            result := if bin then 1 else 0
            resultv := true } ∧
        256 ≤ v.range ∧ v.range ≤ 510 ∧ 0 ≤ v.offset ∧ v.offset < v.range))) ∧
  (∀ (w : Word) (s : State), s.err = .none → bits w 31 28 = 3 →
    (bits w 26 10 ≠ 0 ∨ (bits w 27 27 = 1 ∧ bits w 9 0 ≠ 0)) → issueWord w s = .next { s with err := .illegalOperand })

/-- DEC and DEC.S with checked tables where codIOffset is below the reduced range (R83, R85): the bin is valMPS,
pStateIdx moves by TRANS_IDX_MPS, and at most one bit is taken; a missing bit undoes the command. -/
def Obligations.DecMostProbablePath : Prop :=
  ∀ (i : Instr) (ci : CtxIdx) (s : State),
    i = .dec ci ∨ (i = .decS ∧ s.selv = true ∧ s.selctx = ci) →
    s.err = .none → s.ctxv = true → s.eng = .active → EngineInv s → CheckedTables s.config.tables →
    let x := s.ctx.get ci
    let r1 := s.codIRange.toNat - rangeTabLPS s.config.tables x.pStateIdx (s.codIRange.toNat / 64 % 4)
    let moved : State :=
      { s with
        ctx := s.ctx.set ci ⟨transIdxMPS s.config.tables x.pStateIdx, x.valMPS⟩
        result := if x.valMPS then 1 else 0
        resultv := true }
    s.codIOffset.toNat < r1 →
    (256 ≤ r1 → exec i s = .next { moved with codIRange := BitVec.ofNat 9 r1 }) ∧
    (∀ b, r1 < 256 → readBit s.buf s.cursor = some b →
      exec i s = .next
        { moved with
          codIRange := BitVec.ofNat 9 (2 * r1)
          codIOffset := BitVec.ofNat 9 (2 * s.codIOffset.toNat + b.toNat)
          cursor := s.cursor + 1 }) ∧
    (r1 < 256 → readBit s.buf s.cursor = none → exec i s = .next { s with err := .exhausted })

/-- DEC and DEC.S with checked tables where codIOffset is not below the reduced range R1: the bin is 1 - valMPS,
codIOffset is reduced by R1 and codIRange becomes the LPS sub-range, both renormalised by 8 - floor(log2 rLPS) bits;
valMPS flips at pStateIdx 0 (R83, R84, R91). -/
def Obligations.DecLeastProbablePath : Prop :=
  ∀ (i : Instr) (ci : CtxIdx) (s : State),
    i = .dec ci ∨ (i = .decS ∧ s.selv = true ∧ s.selctx = ci) →
    s.err = .none → s.ctxv = true → s.eng = .active → EngineInv s → CheckedTables s.config.tables →
    let x := s.ctx.get ci
    let rLPS := rangeTabLPS s.config.tables x.pStateIdx (s.codIRange.toNat / 64 % 4)
    let r1 := s.codIRange.toNat - rLPS
    let n := 8 - Nat.log2 rLPS
    r1 ≤ s.codIOffset.toNat →
    (∀ v, readBits s.buf n s.cursor = some v →
      exec i s = .next
        { s with
          ctx := s.ctx.set ci ⟨transIdxLPS s.config.tables x.pStateIdx, if x.pStateIdx = 0 then !x.valMPS else x.valMPS⟩
          codIRange := BitVec.ofNat 9 (rLPS * 2 ^ n)
          codIOffset := BitVec.ofNat 9 ((s.codIOffset.toNat - r1) * 2 ^ n + v)
          cursor := s.cursor + n
          result := if x.valMPS then 0 else 1
          resultv := true }) ∧
    (readBits s.buf n s.cursor = none → exec i s = .next { s with err := .exhausted })

/-- R86: BYP shifts one bit into codIOffset, compares with codIRange and subtracts; codIRange and the contexts stay. It
needs ENG = ACTIVE only, and one bit. -/
def Obligations.BypDecodesOneBit : Prop :=
  ∀ s : State, s.err = .none →
    (s.eng ≠ .active → exec .byp s = .next { s with err := .notInit }) ∧
    (s.eng = .active → readBit s.buf s.cursor = none → exec .byp s = .next { s with err := .exhausted }) ∧
    (∀ b, s.eng = .active → EngineInv s → readBit s.buf s.cursor = some b →
      (s.codIRange.toNat ≤ 2 * s.codIOffset.toNat + b.toNat →
        exec .byp s = .next
          { s with
            codIOffset := BitVec.ofNat 9 (2 * s.codIOffset.toNat + b.toNat - s.codIRange.toNat)
            cursor := s.cursor + 1, result := 1, resultv := true }) ∧
      (2 * s.codIOffset.toNat + b.toNat < s.codIRange.toNat →
        exec .byp s = .next
          { s with
            codIOffset := BitVec.ofNat 9 (2 * s.codIOffset.toNat + b.toNat)
            cursor := s.cursor + 1, result := 0, resultv := true })) ∧
    (∀ w : Word, bits w 31 28 = 4 → bits w 27 0 ≠ 0 → issueWord w s = .next { s with err := .illegalOperand })

/-- R87: TRM takes 2 from codIRange; at or above it the bin is 1 and the engine is TERMINATED with no bit read, below it
the bin is 0 and one bit is taken exactly where the range fell below 256. -/
def Obligations.TrmDecodesTerminate : Prop :=
  ∀ s : State, s.err = .none →
    (s.eng ≠ .active → exec .trm s = .next { s with err := .notInit }) ∧
    (s.eng = .active → EngineInv s →
      (s.codIRange.toNat - 2 ≤ s.codIOffset.toNat →
        exec .trm s = .next
          { s with
            codIRange := BitVec.ofNat 9 (s.codIRange.toNat - 2), eng := .terminated, result := 1, resultv := true }) ∧
      (s.codIOffset.toNat < s.codIRange.toNat - 2 → 258 ≤ s.codIRange.toNat →
        exec .trm s = .next
          { s with codIRange := BitVec.ofNat 9 (s.codIRange.toNat - 2), result := 0, resultv := true }) ∧
      (∀ b, s.codIOffset.toNat < s.codIRange.toNat - 2 → s.codIRange.toNat < 258 →
        readBit s.buf s.cursor = some b →
        exec .trm s = .next
          { s with
            codIRange := BitVec.ofNat 9 (2 * (s.codIRange.toNat - 2))
            codIOffset := BitVec.ofNat 9 (2 * s.codIOffset.toNat + b.toNat)
            cursor := s.cursor + 1, result := 0, resultv := true }) ∧
      (s.codIOffset.toNat < s.codIRange.toNat - 2 → s.codIRange.toNat < 258 → readBit s.buf s.cursor = none →
        exec .trm s = .next { s with err := .exhausted })) ∧
    (∀ w : Word, bits w 31 28 = 5 → bits w 27 0 ≠ 0 → issueWord w s = .next { s with err := .illegalOperand })

/-- R88: RenormD leaves a range of 256 or more as it is, and doubles a range of at least 2 just far enough to reach 256,
by at most seven bits, which enter the offset most significant first; where one is missing it finds none. -/
def Obligations.RenormalisationDoublesToTheFirst256 : Prop :=
  (∀ (buf : List Byte) (v : EngineVals), 256 ≤ v.range → renorm buf v = some v) ∧
  (∀ (buf : List Byte) (r o c : Nat), 2 ≤ r → r < 256 →
    8 - Nat.log2 r ≤ 7 ∧ 256 ≤ r * 2 ^ (8 - Nat.log2 r) ∧ r * 2 ^ (8 - Nat.log2 r) < 512 ∧
    renorm buf ⟨r, o, c⟩ =
      (readBits buf (8 - Nat.log2 r) c).map fun v =>
        ⟨(r * 2 ^ (8 - Nat.log2 r) : Nat), (o * 2 ^ (8 - Nat.log2 r) + v : Nat), c + (8 - Nat.log2 r)⟩)

/-! ## Context selection -/

/-- R108 to R112, with the tables the spec intends: mb_type, transform_size_8x8_flag, the intra prediction mode elements
and intra_chroma_pred_mode. -/
def Obligations.CselMacroblockElements : Prop :=
  ∀ (s : State) (cat : BlockCat) (a b x c : Bool), s.err = .none → s.config.tables = intendedTables →
    exec (.csel .mbTypeI cat 0 a b x c) s = .next (s.selected .context (3 + a.toNat + b.toNat)) ∧
    exec (.csel .mbTypeI cat 1 a b x c) s = .next (s.selected .terminate 276) ∧
    exec (.csel .mbTypeI cat 2 a b x c) s = .next (s.selected .context 6) ∧
    exec (.csel .mbTypeI cat 3 a b x c) s = .next (s.selected .context 7) ∧
    exec (.csel .mbTypeI cat 4 a b x c) s = .next (s.selected .context (if x then 8 else 9)) ∧
    exec (.csel .mbTypeI cat 5 a b x c) s = .next (s.selected .context (if x then 9 else 10)) ∧
    exec (.csel .mbTypeI cat 6 a b x c) s = .next (s.selected .context 10) ∧
    exec (.csel .transform8x8 cat 0 a b x c) s = .next (s.selected .context (399 + a.toNat + b.toNat)) ∧
    exec (.csel .prevIntraFlag cat 0 a b x c) s = .next (s.selected .context 68) ∧
    (∀ idx, idx ≤ 2 → exec (.csel .remIntraMode cat idx a b x c) s = .next (s.selected .context 69)) ∧
    exec (.csel .chromaPred cat 0 a b x c) s = .next (s.selected .context (64 + a.toNat + b.toNat)) ∧
    (∀ idx, idx = 1 ∨ idx = 2 → exec (.csel .chromaPred cat idx a b x c) s = .next (s.selected .context 67))

/-- R113 to R115, with the tables the spec intends: coded_block_pattern and mb_qp_delta. -/
def Obligations.CselPatternAndQpElements : Prop :=
  ∀ (s : State) (cat : BlockCat) (a b x c : Bool), s.err = .none → s.config.tables = intendedTables →
    (∀ idx, idx ≤ 3 →
      exec (.csel .cbpLuma cat idx a b x c) s = .next (s.selected .context (73 + a.toNat + 2 * b.toNat))) ∧
    exec (.csel .cbpChroma cat 0 a b x c) s = .next (s.selected .context (77 + a.toNat + 2 * b.toNat)) ∧
    exec (.csel .cbpChroma cat 1 a b x c) s = .next (s.selected .context (81 + a.toNat + 2 * b.toNat)) ∧
    exec (.csel .mbQpDelta cat 0 a b x c) s = .next (s.selected .context (60 + a.toNat)) ∧
    exec (.csel .mbQpDelta cat 1 a b x c) s = .next (s.selected .context 62) ∧
    (∀ idx, 2 ≤ idx → idx ≤ 63 → exec (.csel .mbQpDelta cat idx a b x c) s = .next (s.selected .context 63))

/-- R116, with the tables the spec intends: coded_block_flag in each category. -/
def Obligations.CselCodedBlockFlag : Prop :=
  ∀ (s : State) (a b x c : Bool), s.err = .none → s.config.tables = intendedTables →
    ∀ p ∈ [(BlockCat.intra16x16DC, 85), (.intra16x16AC, 89), (.luma4x4, 93), (.chromaDC, 97), (.chromaAC, 101),
        (.luma8x8, 1012)],
      exec (.csel .cbf p.1 0 a b x c) s = .next (s.selected .context (p.2 + a.toNat + 2 * b.toNat))

/-- R117 and R118, with the tables the spec intends: the significance and last flags of frame-coded blocks, at every list
index of each category. -/
def Obligations.CselSignificanceMaps : Prop :=
  ∀ (s : State) (idx : Nat) (a b x c : Bool), s.err = .none → s.config.tables = intendedTables →
    (∀ p ∈ [(BlockCat.intra16x16DC, 14, 105, 166), (.intra16x16AC, 13, 120, 181), (.luma4x4, 14, 134, 195),
        (.chromaAC, 13, 152, 213)],
      idx ≤ p.2.1 →
        exec (.csel .sig p.1 idx a b x c) s = .next (s.selected .context (p.2.2.1 + idx)) ∧
        exec (.csel .last p.1 idx a b x c) s = .next (s.selected .context (p.2.2.2 + idx))) ∧
    (c = false → idx ≤ 2 →
      exec (.csel .sig .chromaDC idx a b x c) s = .next (s.selected .context (149 + idx)) ∧
      exec (.csel .last .chromaDC idx a b x c) s = .next (s.selected .context (210 + idx))) ∧
    (c = true → idx ≤ 6 →
      exec (.csel .sig .chromaDC idx a b x c) s = .next (s.selected .context (149 + min (idx / 2) 2)) ∧
      exec (.csel .last .chromaDC idx a b x c) s = .next (s.selected .context (210 + min (idx / 2) 2))) ∧
    (idx ≤ 62 →
      exec (.csel .sig .luma8x8 idx a b x c) s = .next (s.selected .context (402 + mapEntry s.config.tables.sig8x8 idx)) ∧
      exec (.csel .last .luma8x8 idx a b x c) s = .next (s.selected .context (417 + mapEntry s.config.tables.last8x8 idx)))

/-- R119, with the tables the spec intends: coeff_abs_level_minus1, from the level counters as they stand; bins 14 on are
bypass bins. -/
def Obligations.CselAbsLevel : Prop :=
  ∀ (s : State) (idx : Nat) (a b x c : Bool), s.err = .none → s.config.tables = intendedTables →
    ∀ p ∈ [(BlockCat.intra16x16DC, 227), (.intra16x16AC, 237), (.luma4x4, 247), (.chromaDC, 257), (.chromaAC, 266),
        (.luma8x8, 426)],
      exec (.csel .absLevel p.1 0 a b x c) s =
        .next (s.selected .context (p.2 + if s.gt1cnt.toNat = 0 then min 4 (1 + s.eq1cnt.toNat) else 0)) ∧
      (1 ≤ idx → idx ≤ 13 →
        exec (.csel .absLevel p.1 idx a b x c) s =
          .next (s.selected .context
            (p.2 + 5 + min (if p.1 = .chromaDC then 3 else 4) s.gt1cnt.toNat))) ∧
      (14 ≤ idx → idx ≤ 63 → exec (.csel .absLevel p.1 idx a b x c) s = .next (s.selected .bypass 0))

/-- R120 and R121, with the tables the spec intends: coeff_sign_flag is a bypass bin and end_of_slice_flag a terminate
bin. -/
def Obligations.CselSignAndEndOfSlice : Prop :=
  ∀ (s : State) (cat : BlockCat) (a b x c : Bool), s.err = .none → s.config.tables = intendedTables →
    exec (.csel .sign cat 0 a b x c) s = .next (s.selected .bypass 0) ∧
    exec (.csel .endOfSlice cat 0 a b x c) s = .next (s.selected .terminate 276)

/-- R122: unsupported elements raise E_UNSUPPORTED whatever IDX is, reserved ones E_ILLEGAL_OPERAND, and a residual
element in category 6 or 7 E_UNSUPPORTED unless its IDX is out of range. -/
def Obligations.CselUnsupportedAndReserved : Prop :=
  ∀ (s : State) (se : SyntaxElement) (cat : BlockCat) (idx : Nat) (a b x c : Bool), s.err = .none →
    (16 ≤ se.code → se.code ≤ 25 → se.wellFormed = true →
      exec (.csel se cat idx a b x c) s = .next { s with err := .unsupported }) ∧
    (se.code = 14 ∨ se.code = 15 ∨ 26 ≤ se.code →
      exec (.csel se cat idx a b x c) s = .next { s with err := .illegalOperand }) ∧
    (cat = .cat6 ∨ cat = .cat7 →
      exec (.csel .cbf cat 0 a b x c) s = .next { s with err := .unsupported } ∧
      (0 < idx → exec (.csel .cbf cat idx a b x c) s = .next { s with err := .illegalOperand }) ∧
      exec (.csel .sig cat idx a b x c) s = .next { s with err := .unsupported } ∧
      exec (.csel .last cat idx a b x c) s = .next { s with err := .unsupported } ∧
      (idx ≤ 63 → exec (.csel .absLevel cat idx a b x c) s = .next { s with err := .unsupported }))

/-- A field that the selected element does not read makes no difference, whatever its value (R58): CAT outside the
residual elements, X outside mb_type bins 4 and 5, C outside chroma DC significance, and the neighbour flags where no rule
uses them. -/
def Obligations.CselIgnoresUnreadFields : Prop :=
  ∀ (s : State) (se : SyntaxElement) (cat cat' : BlockCat) (idx : Nat) (a a' b b' x x' c c' : Bool),
    (se.isResidual = false →
      exec (.csel se cat idx a b x c) s = exec (.csel se cat' idx a b x c) s) ∧
    (se ≠ .mbTypeI ∨ (idx ≠ 4 ∧ idx ≠ 5) →
      exec (.csel se cat idx a b x c) s = exec (.csel se cat idx a b x' c) s) ∧
    ((se ≠ .sig ∧ se ≠ .last) ∨ cat ≠ .chromaDC →
      exec (.csel se cat idx a b x c) s = exec (.csel se cat idx a b x c') s) ∧
    (se = .prevIntraFlag ∨ se = .remIntraMode ∨ se = .sig ∨ se = .last ∨ se = .absLevel ∨ se = .sign ∨
        se = .endOfSlice →
      exec (.csel se cat idx a b x c) s = exec (.csel se cat idx a' b' x c) s) ∧
    exec (.csel .mbQpDelta cat idx a b x c) s = exec (.csel .mbQpDelta cat idx a b' x c) s

/-- With checked tables (CheckedTables; the intended ones are), and whatever the operands and the counters, a completed
CSEL reports KIND 0 with an index that R107 marks selectable, KIND 1 with index 0, or KIND 2 with index 276, in RESULT
and SELCTX alike (R70, R103, R104, R107). -/
def Obligations.CselReportsOnlyAllocatedContexts : Prop :=
  ∀ (se : SyntaxElement) (cat : BlockCat) (idx : Nat) (a b x c : Bool) (s t : State),
    CheckedTables s.config.tables → s.err = .none → exec (.csel se cat idx a b x c) s = .next t → t.err = .none →
    t = { s with selctx := t.selctx, selv := t.selv, result := t.result, resultv := true } ∧
    ((t.selv = true ∧ selectable t.selctx.toNat = true ∧ t.result.toNat = t.selctx.toNat) ∨
     (t.selv = false ∧ t.selctx = 0 ∧ t.result.toNat = 4096) ∨
     (t.selv = false ∧ t.selctx = 276 ∧ t.result.toNat = 2 * 4096 + 276))

/-- Every ctxIdx from 0 to 1023 lies in exactly one row of the allocation (R107). -/
def Obligations.AllocationCoversEveryIndex : Prop :=
  ∀ k : Nat, k < 1024 → ((ctxAllocation.filter fun r => r.first ≤ k && k ≤ r.last).length = 1)

/-- R100: whatever the tables, the index of every context-coded bin is the sum of its element's ctxIdxOffset, for a residual
element its category's ctxBlockCatOffset, and ctxIdxInc (R108 to R119), all from the tables that the machine is given (R7,
R41). CSEL reports the sum where it fits SELCTX, which it does with the intended tables; that it stops where the sum does not
fit is the model's reading of R8 (DEDUCED, log 7). -/
def Obligations.CselIndexIsASumOfItsTables : Prop :=
  ∀ (s : State) (cat : BlockCat) (idx : Nat) (a b x c : Bool), s.err = .none →
    let t := s.config.tables
    let o := t.ctxIdxOffset
    let picks (se : SyntaxElement) (cat : BlockCat) (idx k : Nat) : Prop := SelectsSum s se cat idx a b x c k
    -- R108 to R115: the elements without a category
    (picks .mbTypeI cat 0 (o.mbTypeI + (a.toNat + b.toNat)) ∧ picks .mbTypeI cat 2 (o.mbTypeI + 3) ∧
      picks .mbTypeI cat 3 (o.mbTypeI + 4) ∧ picks .mbTypeI cat 4 (o.mbTypeI + if x then 5 else 6) ∧
      picks .mbTypeI cat 5 (o.mbTypeI + if x then 6 else 7) ∧ picks .mbTypeI cat 6 (o.mbTypeI + 7)) ∧
    picks .transform8x8 cat 0 (o.transform8x8 + (a.toNat + b.toNat)) ∧
    picks .prevIntraFlag cat 0 o.prevIntraFlag ∧
    (idx ≤ 2 → picks .remIntraMode cat idx o.remIntraMode) ∧
    picks .chromaPred cat 0 (o.chromaPred + (a.toNat + b.toNat)) ∧
    (idx = 1 ∨ idx = 2 → picks .chromaPred cat idx (o.chromaPred + 3)) ∧
    (idx ≤ 3 → picks .cbpLuma cat idx (o.cbpLuma + (a.toNat + 2 * b.toNat))) ∧
    picks .cbpChroma cat 0 (o.cbpChroma + (a.toNat + 2 * b.toNat)) ∧
    picks .cbpChroma cat 1 (o.cbpChroma + (4 + (a.toNat + 2 * b.toNat))) ∧
    picks .mbQpDelta cat 0 (o.mbQpDelta + a.toNat) ∧ picks .mbQpDelta cat 1 (o.mbQpDelta + 2) ∧
    (2 ≤ idx → idx ≤ 63 → picks .mbQpDelta cat idx (o.mbQpDelta + 3)) ∧
    -- R116: coded_block_flag
    (∀ p ∈ [(BlockCat.intra16x16DC, o.cbf + t.cbfCatOffset.intra16x16DC),
        (.intra16x16AC, o.cbf + t.cbfCatOffset.intra16x16AC), (.luma4x4, o.cbf + t.cbfCatOffset.luma4x4),
        (.chromaDC, o.cbf + t.cbfCatOffset.chromaDC), (.chromaAC, o.cbf + t.cbfCatOffset.chromaAC),
        (.luma8x8, o.cbfCat5 + t.cbfCatOffset.luma8x8)],
      picks .cbf p.1 0 (p.2 + (a.toNat + 2 * b.toNat))) ∧
    -- R117 and R118: the significance and last flags
    (∀ p ∈ [(BlockCat.intra16x16DC, 14, t.sigCatOffset.intra16x16DC), (.intra16x16AC, 13, t.sigCatOffset.intra16x16AC),
        (.luma4x4, 14, t.sigCatOffset.luma4x4), (.chromaAC, 13, t.sigCatOffset.chromaAC)],
      idx ≤ p.2.1 →
        picks .sig p.1 idx (o.sig + p.2.2 + idx) ∧ picks .last p.1 idx (o.last + p.2.2 + idx)) ∧
    (idx ≤ (if c then 6 else 2) →
      picks .sig .chromaDC idx (o.sig + t.sigCatOffset.chromaDC + min (idx / if c then 2 else 1) 2) ∧
      picks .last .chromaDC idx (o.last + t.sigCatOffset.chromaDC + min (idx / if c then 2 else 1) 2)) ∧
    (∀ h : idx < 63,
      picks .sig .luma8x8 idx (o.sigCat5 + t.sigCatOffset.luma8x8 + t.sig8x8[idx]) ∧
      picks .last .luma8x8 idx (o.lastCat5 + t.sigCatOffset.luma8x8 + t.last8x8[idx])) ∧
    -- R119: the level bins
    (∀ p ∈ [(BlockCat.intra16x16DC, o.absLevel + t.absCatOffset.intra16x16DC),
        (.intra16x16AC, o.absLevel + t.absCatOffset.intra16x16AC), (.luma4x4, o.absLevel + t.absCatOffset.luma4x4),
        (.chromaDC, o.absLevel + t.absCatOffset.chromaDC), (.chromaAC, o.absLevel + t.absCatOffset.chromaAC),
        (.luma8x8, o.absLevelCat5 + t.absCatOffset.luma8x8)],
      picks .absLevel p.1 0 (p.2 + if s.gt1cnt.toNat = 0 then min 4 (1 + s.eq1cnt.toNat) else 0) ∧
      (1 ≤ idx → idx ≤ 13 →
        picks .absLevel p.1 idx (p.2 + (5 + min (if p.1 = .chromaDC then 3 else 4) s.gt1cnt.toNat))))

/-- After a CSEL that reports a context-coded bin, DEC.S decodes with that very context; after one that reports a bypass
or terminate bin, DEC.S raises E_NOT_INIT (R69, R102, R171). -/
def Obligations.SelectionPassesToDecS : Prop :=
  ∀ (se : SyntaxElement) (cat : BlockCat) (idx : Nat) (a b x c : Bool) (s t : State),
    s.err = .none → exec (.csel se cat idx a b x c) s = .next t → t.err = .none →
    (t.result.toNat / 4096 = 0 → exec .decS t = exec (.dec (BitVec.ofNat 10 t.result.toNat)) t) ∧
    (t.result.toNat / 4096 ≠ 0 → exec .decS t = .next { t with err := .notInit })

/-! ## Level counters -/

/-- R123: LVLRST clears both counters and RESULT; it is refused while ERR is not 0. -/
def Obligations.LvlrstClearsCounters : Prop :=
  ∀ s : State,
    (s.err = .none → exec .lvlrst s = .next { s with eq1cnt := 0, gt1cnt := 0, result := 0, resultv := true }) ∧
    (s.err ≠ .none → exec .lvlrst s = .next s) ∧
    (∀ w : Word, s.err = .none → bits w 31 28 = 7 → bits w 27 0 ≠ 0 →
      issueWord w s = .next { s with err := .illegalOperand })

/-- R124: LVLACC counts one level, and the counter stays at 127; RESULT is GT1CNT above EQ1CNT. -/
def Obligations.LvlaccCountsAndSaturates : Prop :=
  ∀ s : State,
    (s.err = .none →
      exec (.lvlacc .eq1) s = .next
        { s with
          eq1cnt := BitVec.ofNat 7 (min 127 (s.eq1cnt.toNat + 1))
          result := BitVec.ofNat 32 (s.gt1cnt.toNat * 256 + min 127 (s.eq1cnt.toNat + 1)), resultv := true } ∧
      exec (.lvlacc .gt1) s = .next
        { s with
          gt1cnt := BitVec.ofNat 7 (min 127 (s.gt1cnt.toNat + 1))
          result := BitVec.ofNat 32 (min 127 (s.gt1cnt.toNat + 1) * 256 + s.eq1cnt.toNat), resultv := true }) ∧
    (s.err ≠ .none → exec (.lvlacc .eq1) s = .next s ∧ exec (.lvlacc .gt1) s = .next s) ∧
    (∀ w : Word, s.err = .none → bits w 31 28 = 8 → bits w 27 1 ≠ 0 →
      issueWord w s = .next { s with err := .illegalOperand })

/-! ## Observation -/

/-- R141: RDCTX reports valMPS above pStateIdx of any context, whatever ERR and ENG are; without CTXV it raises
E_NOT_INIT. -/
def Obligations.RdctxReportsAContext : Prop :=
  ∀ (k : CtxIdx) (s : State),
    (s.ctxv = true →
      exec (.rdctx k) s = .next
        { s with
          result := BitVec.ofNat 32 ((s.ctx.get k).valMPS.toNat * 64 + (s.ctx.get k).pStateIdx.toNat)
          resultv := true }) ∧
    (s.ctxv = false → exec (.rdctx k) s = .next (if s.err = .none then { s with err := .notInit } else s)) ∧
    (∀ w : Word, bits w 31 28 = 9 → bits w 27 10 ≠ 0 →
      issueWord w s = .next (if s.err = .none then { s with err := .illegalOperand } else s))

/-- R142: RDENG reports ENG, codIOffset and codIRange, in ACTIVE and TERMINATED alike, whatever ERR is; in UNINIT it
raises E_NOT_INIT. -/
def Obligations.RdengReportsTheEngine : Prop :=
  ∀ s : State,
    (s.eng ≠ .uninit →
      exec .rdeng s = .next
        { s with
          result := BitVec.ofNat 32
            ((if s.eng = .active then 1 else 2) * 2 ^ 30 + s.codIOffset.toNat * 2 ^ 16 + s.codIRange.toNat)
          resultv := true }) ∧
    (s.eng = .uninit → exec .rdeng s = .next (if s.err = .none then { s with err := .notInit } else s)) ∧
    (∀ w : Word, bits w 31 28 = 10 → bits w 27 0 ≠ 0 →
      issueWord w s = .next (if s.err = .none then { s with err := .illegalOperand } else s))

/-- R140: a word with the opcode of RDCTX or RDENG answers in every state. On success it changes only RESULT, and ERR does
not keep it from succeeding; otherwise it changes only ERR, and that only where ERR was 0. -/
def Obligations.ObservationChangesOnlyResult : Prop :=
  ∀ (w : Word) (s : State), bits w 31 28 = 9 ∨ bits w 31 28 = 10 →
    (∃ t, issueWord w s = .next t ∧
      ((∃ r, t = { s with result := r, resultv := true }) ∨
        (s.err = .none ∧ ∃ e, (e = .illegalOperand ∨ e = .notInit) ∧ t = { s with err := e }) ∨
        (s.err ≠ .none ∧ t = s))) ∧
    (∀ r, issueWord w { s with err := .none } = .next { s with err := .none, result := r, resultv := true } →
      issueWord w s = .next { s with result := r, resultv := true })

/-! ## Invariants and whole-machine rules -/

/-- The invariant holds right after reset; among it, that the tables the spec intends are checked: they have the
properties that R80, R92 and R107 derive from them (R80, R89, R92, R107). -/
def Obligations.ResetMeetsInvariant : Prop := MachineInv State.reset

/-- Every step keeps the invariant: checked tables (R41, R80), the engine's bounds (R89), no context at 63 (R92), CURSOR
inside the buffer (R25), a selectable SELCTX (R107), and RESULT held once a command has completed (R20). -/
def Obligations.StepKeepsInvariant : Prop :=
  ∀ s t : State, MachineInv s → step s = .next t → MachineInv t

/-- R89: with checked tables the engine's bounds hold after every command, from every state in which they hold, whatever
the contexts. -/
def Obligations.EngineInvariantKept : Prop :=
  ∀ (w : Word) (s t : State), CheckedTables s.config.tables → EngineInv s → issueWord w s = .next t → EngineInv t

/-- R92: CINIT leaves every pStateIdx at 62 or below; with the intended tables an MPS moves 0..62 into 1..62 and an LPS
into 0..38; so no command takes an initialised context to 63, and row 63 of RANGE_TAB_LPS and entry 63 of each transition
table are never read: other values there change no command's outcome. -/
def Obligations.ContextsNeverReach63 : Prop :=
  (∀ (idc qbd : Nat) (sqd piq : Int) (s t : State), exec (.cinit .i idc qbd sqd piq) s = .next t → idc ≠ 3 →
    ∀ k, (t.ctx.get k).pStateIdx.toNat ≤ 62) ∧
  (∀ p : BitVec 6, p.toNat ≤ 62 →
    1 ≤ (transIdxMPS intendedTables p).toNat ∧ (transIdxMPS intendedTables p).toNat ≤ 62 ∧
      (transIdxLPS intendedTables p).toNat ≤ 38) ∧
  (∀ (w : Word) (s t : State), CheckedTables s.config.tables → ContextInv s → issueWord w s = .next t → ContextInv t) ∧
  (∀ (w : Word) (s : State) (rows : Table 6 (Table 2 (BitVec 8))) (lps mps : Table 6 (BitVec 6)), ContextInv s →
    (∀ p : BitVec 6, p.toNat ≤ 62 →
      rows.get p = s.config.tables.rangeTabLPS.get p ∧ lps.get p = s.config.tables.transIdxLPS.get p ∧
        mps.get p = s.config.tables.transIdxMPS.get p) →
    let other : ConstTables :=
      { s.config.tables with rangeTabLPS := rows, transIdxLPS := lps, transIdxMPS := mps }
    AgreeOutcome (fun u v => v = u.withTables other) (issueWord w s) (issueWord w (s.withTables other)))

/-- In every state that meets the invariant, every command word has an outcome: the unit never gets stuck and never
stores a value that does not fit its register (R8, R12, R66, R90). -/
def Obligations.EveryCommandWordHasAnOutcome : Prop :=
  ∀ (w : Word) (s : State), MachineInv s → GoesOn (issueWord w s)

/-- A run in which the host does nothing but write command words, whichever they are, goes on for any number of steps:
each word has its outcome (R8, R12, R66, R89, R90), and with no word pending the unit holds its state (R160, R165). That
the words stand in a list, the oldest first (R176), and that an empty list is a waiting step, is the model's choice
(DESIGN CHOICE, log 3). -/
def Obligations.CommandRunsNeverStop : Prop :=
  ∀ (k : Nat) (s : State), MachineInv s → CommandsOnly s.port → SafeRun k s

/-- R93: the transitions of ENG, each of them and no other. -/
def Obligations.EngStateMachine : Prop :=
  (∀ (i : Instr) (s t : State), exec i s = .next t →
    (∀ slt idc qbd sqd piq, i = .cinit slt idc qbd sqd piq → slt = .i → idc ≠ 3 → t.eng = .uninit) ∧
    (i = .einit → s.err = .none → t.err = .none → t.eng = .active) ∧
    (((∃ k, i = .dec k) ∨ i = .decS ∨ i = .byp ∨ i = .trm) → s.err = .none → s.eng ≠ .active →
      t = { s with err := .notInit }) ∧
    (((∃ k, i = .dec k) ∨ i = .decS ∨ i = .byp) → t.eng = s.eng) ∧
    (i = .trm → s.eng = .active → s.err = .none → t.err = .none →
      (t.result = 0 ∧ t.eng = .active) ∨ (t.result = 1 ∧ t.eng = .terminated)) ∧
    (t.err ≠ .none → t.eng = s.eng) ∧
    (t.eng ≠ s.eng → (∃ slt idc qbd sqd piq, i = .cinit slt idc qbd sqd piq) ∨ i = .einit ∨ i = .trm)) ∧
  (∀ s : State, (resetUnit s).eng = .uninit)

/-- What each command writes, and so what it leaves unchanged, in every state in which it answers one: the host's buffer,
parameters (the constant tables among them), pending actions and read data always; each context, register, counter and
indicator, ENG, ERR and RESULT except by the commands that R163 lists for it (R16 to R23, R163). RESULT is written by
every command that completes, and ERR by a command that raises an error while it is 0 or by the CINIT that clears it. -/
def Obligations.CommandsWriteOnlyTheirState : Prop :=
  ∀ (i : Instr) (s t : State), exec i s = .next t →
    (t.buf = s.buf ∧ t.config = s.config ∧ t.port = s.port ∧ t.readData = s.readData) ∧
    (∀ k, t.ctx.get k ≠ s.ctx.get k →
      (∃ slt idc qbd sqd piq, i = .cinit slt idc qbd sqd piq) ∨ i = .dec k ∨ (i = .decS ∧ k = s.selctx)) ∧
    (t.ctxv ≠ s.ctxv → ∃ slt idc qbd sqd piq, i = .cinit slt idc qbd sqd piq) ∧
    (t.codIRange ≠ s.codIRange → i = .einit ∨ (∃ k, i = .dec k) ∨ i = .decS ∨ i = .trm) ∧
    (t.codIOffset ≠ s.codIOffset → i = .einit ∨ (∃ k, i = .dec k) ∨ i = .decS ∨ i = .byp ∨ i = .trm) ∧
    (t.cursor ≠ s.cursor → i = .einit ∨ (∃ k, i = .dec k) ∨ i = .decS ∨ i = .byp ∨ i = .trm) ∧
    (t.selctx ≠ s.selctx ∨ t.selv ≠ s.selv → ∃ se cat idx a b x c, i = .csel se cat idx a b x c) ∧
    (t.eq1cnt ≠ s.eq1cnt → i = .lvlrst ∨ i = .lvlacc .eq1) ∧
    (t.gt1cnt ≠ s.gt1cnt → i = .lvlrst ∨ i = .lvlacc .gt1) ∧
    (t.eng ≠ s.eng →
      (∃ idc qbd sqd piq, i = .cinit .i idc qbd sqd piq ∧ idc ≠ 3) ∨ i = .einit ∨ (i = .trm ∧ t.result = 1)) ∧
    (t.err ≠ s.err →
      (s.err = .none ∧ t = { s with err := t.err } ∧ i ≠ .lvlrst ∧ ∀ g, i ≠ .lvlacc g) ∨
      (s.err ≠ .none ∧ t.err = .none ∧ ∃ idc qbd sqd piq, i = .cinit .i idc qbd sqd piq ∧ idc ≠ 3)) ∧
    (s.err = .none → t.err = .none → t.resultv = true) ∧
    (s.err = .none → t.err ≠ .none → t.result = s.result ∧ t.resultv = s.resultv) ∧
    (s.err ≠ .none → t.result ≠ s.result ∨ t.resultv ≠ s.resultv →
      t.resultv = true ∧
        ((∃ idc qbd sqd piq, i = .cinit .i idc qbd sqd piq ∧ idc ≠ 3) ∨ (∃ k, i = .rdctx k) ∨ i = .rdeng))

/-- R41: no command writes the constant tables and no host access reaches them, nor the OPEN parameters: every step leaves
them as they are, whatever the action. The spec's "parameter" (R7, 93 U4, U5) is this field, whose value at reset is the
intended one (DESIGN CHOICE, log 6). -/
def Obligations.StepKeepsTheParameters : Prop :=
  (∀ s t : State, step s = .next t → t.config = s.config) ∧ State.reset.config.tables = intendedTables

/-- R91, with checked tables: how many bits each command that completes reads, and that CURSOR stays where it was under
every other command and under every error. -/
def Obligations.BitsConsumedPerCommand : Prop :=
  ∀ (i : Instr) (s t : State), CheckedTables s.config.tables → EngineInv s → ContextInv s → exec i s = .next t →
    (t.err ≠ .none → t.cursor = s.cursor) ∧
    (s.err = .none → t.err = .none →
      match i with
      | .einit => t.cursor = s.cursor + 9
      | .byp => t.cursor = s.cursor + 1
      | .trm =>
        (t.result = 1 → t.cursor = s.cursor) ∧
        (t.result = 0 →
          t.cursor = s.cursor + if s.codIRange.toNat = 256 ∨ s.codIRange.toNat = 257 then 1 else 0)
      | .dec k =>
        let rLPS := rangeTabLPS s.config.tables (s.ctx.get k).pStateIdx (s.codIRange.toNat / 64 % 4)
        (s.codIOffset.toNat + rLPS < s.codIRange.toNat → t.cursor = s.cursor ∨ t.cursor = s.cursor + 1) ∧
        (s.codIRange.toNat ≤ s.codIOffset.toNat + rLPS →
          t.cursor = s.cursor + (8 - Nat.log2 rLPS) ∧ 8 - Nat.log2 rLPS ≤ 6)
      | .decS =>
        let rLPS := rangeTabLPS s.config.tables (s.ctx.get s.selctx).pStateIdx (s.codIRange.toNat / 64 % 4)
        (s.codIOffset.toNat + rLPS < s.codIRange.toNat → t.cursor = s.cursor ∨ t.cursor = s.cursor + 1) ∧
        (s.codIRange.toNat ≤ s.codIOffset.toNat + rLPS →
          t.cursor = s.cursor + (8 - Nat.log2 rLPS) ∧ 8 - Nat.log2 rLPS ≤ 6)
      | .cinit _ _ _ _ _ | .csel _ _ _ _ _ _ _ | .lvlrst | .lvlacc _ | .rdctx _ | .rdeng => t.cursor = s.cursor)

/-- State that holds no value is never read: two states that agree on everything that holds a value take the same step,
to states that agree again, or stop for the same reason. So nothing rests on the values the model names at reset (R30;
log 1). -/
def Obligations.NoOutcomeDependsOnUnheldValues : Prop :=
  ∀ s t : State, AgreeOnHeld s t → AgreeOutcome AgreeOnHeld (step s) (step t)

/-- EPB_POLICY changes no step: the unit reads BUF verbatim under both values (R52, R178). -/
def Obligations.EpbPolicyChangesNoStep : Prop :=
  ∀ (p : Bool) (s : State),
    AgreeOutcome (fun u v => v = u.withEpbPolicy p) (step s) (step (s.withEpbPolicy p))

/-- Extending BUF changes nothing for a command that did not run out of bits: it does the same over the longer buffer
(R38, R50, R172). -/
def Obligations.ExtendingTheBufferChangesNoCompletedCommand : Prop :=
  ∀ (i : Instr) (more : List Byte) (s t : State), exec i s = .next t → t.err ≠ .exhausted →
    exec i { s with buf := s.buf ++ more } = .next { t with buf := s.buf ++ more }

/-! ## The host contract and the assembler -/

/-- mb_type from its bins (R126): whatever the flags and the state, where the unit delivers the bins, in order and each
after the CSEL that the rule names, the procedure answers the rule's value and ends after the last bin: 0 after a first
bin 0, 25 after a terminate bin 1, and 1 + 12*b2 + 4*chroma_cbp + 2*pm1 + pm0 for Intra_16x16. That value is Intra_16x16 with
Intra16x16PredMode 2*pm1 + pm0 and its coded block pattern; 0 is Intra_4x4, or Intra_8x8 where transform_size_8x8_flag is 1;
25 is I_PCM. The procedure is the
model's writing of the host's walk (DESIGN CHOICE, log 19). -/
def Obligations.MbTypeFromItsBins : Prop :=
  ∀ (a b : Bool) (s t : State),
    let bin (k : Nat) (x v : Bool) : Instr × Bool := (.csel .mbTypeI .intra16x16DC k a b x false, v)
    (readsBins [bin 0 false false] s = some t → decodeMbType a b s = some (0, t)) ∧
    (readsBins [bin 0 false true, bin 1 false true] s = some t → decodeMbType a b s = some (25, t)) ∧
    (∀ b2 pm1 pm0 : Bool,
      readsBins [bin 0 false true, bin 1 false false, bin 2 false b2, bin 3 false false, bin 4 false pm1,
        bin 5 false pm0] s = some t →
      decodeMbType a b s = some (1 + 12 * b2.toNat + 2 * pm1.toNat + pm0.toNat, t)) ∧
    (∀ b2 b4 pm1 pm0 : Bool,
      readsBins [bin 0 false true, bin 1 false false, bin 2 false b2, bin 3 false true, bin 4 true b4, bin 5 true pm1,
        bin 6 false pm0] s = some t →
      decodeMbType a b s =
        some (1 + 12 * b2.toNat + 4 * (if b4 then 2 else 1) + 2 * pm1.toNat + pm0.toNat, t)) ∧
    (∀ (b2 pm1 pm0 flag : Bool) (ch : Nat), ch ≤ 2 →
      intraPrediction (1 + 12 * b2.toNat + 4 * ch + 2 * pm1.toNat + pm0.toNat) flag =
        .intra16x16 (2 * pm1.toNat + pm0.toNat) ⟨if b2 then 15 else 0, ch⟩) ∧
    intraPrediction 0 false = .intra4x4 ∧ intraPrediction 0 true = .intra8x8 ∧
    ∀ flag, intraPrediction 25 flag = .pcm

/-- rem_intra4x4/8x8_pred_mode from its three bins, the first the least significant, read only after a
prev_intra4x4/8x8_pred_mode_flag of 0; a flag of 1 ends the mode with no further bin (R127, R128); intra_chroma_pred_mode, the
number of 1 bins before the first 0, at most 3 (R129); and mb_qp_delta from k bins of 1 and a 0, bin j selected with
min(j, 63): (k + 1) / 2 for odd k and -(k / 2) for even k (R131). The procedures are the model's writing of the host's
walk, with a bound on the bins of mb_qp_delta (DESIGN CHOICE, log 19). -/
def Obligations.HostValueMaps : Prop :=
  (∀ (b0 b1 b2 : Bool) (s t : State),
    readsBins [(cselAB .remIntraMode 0 false false, b0), (cselAB .remIntraMode 1 false false, b1),
      (cselAB .remIntraMode 2 false false, b2)] s = some t →
    decodeRemIntra s = some (b0.toNat + 2 * b1.toNat + 4 * b2.toNat, t)) ∧
  (∀ s t : State, readsBins [(cselAB .prevIntraFlag 0 false false, true)] s = some t →
    decodeIntraPredMode s = some (none, t)) ∧
  (∀ (b0 b1 b2 : Bool) (s t : State),
    readsBins [(cselAB .prevIntraFlag 0 false false, false), (cselAB .remIntraMode 0 false false, b0),
      (cselAB .remIntraMode 1 false false, b1), (cselAB .remIntraMode 2 false false, b2)] s = some t →
    decodeIntraPredMode s = some (some (b0.toNat + 2 * b1.toNat + 4 * b2.toNat), t)) ∧
  (∀ (a b : Bool) (n : Nat) (s t : State), n ≤ 3 →
    readsBins (((List.range n).map fun k => (cselAB .chromaPred k a b, true)) ++
      if n < 3 then [(cselAB .chromaPred n a b, false)] else []) s = some t →
    decodeChromaPred a b s = some (n, t)) ∧
  (∀ (a : Bool) (n maxBins : Nat) (s t : State), n < maxBins →
    readsBins (((List.range n).map fun j => (cselAB .mbQpDelta (min j 63) a false, true)) ++
      [(cselAB .mbQpDelta (min n 63) a false, false)]) s = some t →
    decodeMbQpDelta a maxBins s = some (if n % 2 = 1 then ((n : Int) + 1) / 2 else -((n : Int) / 2), t))

/-- coded_block_pattern (R130): for an I_NxN macroblock the prefix, bin k being bit k of CodedBlockPatternLuma, and then,
unless the stream is monochrome, the chroma suffix; an Intra_16x16 macroblock reads no bin and has the pattern of its
mb_type, as R126 composes it; an I_PCM macroblock reads none and has none. The condition flags are those of R136: of a
neighbouring macroblock its kind and its pattern, of an earlier 8x8 block of the same macroblock the bin already decoded. Where
the 8x8 blocks stand is PRESUMED (log 22), and so is the chroma part 0 of a monochrome stream (log 19); the procedures are the
model's writing of the host's walk (DESIGN CHOICE, log 19). -/
def Obligations.CodedBlockPatternByMbType : Prop :=
  (∀ (monochrome b0 b1 b2 b3 : Bool) (lumaFlags : Nat → Nat → Bool × Bool) (chromaFlags : Nat → Bool × Bool) (n : Nat)
      (s t : State), n ≤ 2 → (monochrome = true → n = 0) →
    let luma (k sofar : Nat) (v : Bool) : Instr × Bool :=
      (cselAB .cbpLuma k (lumaFlags k sofar).1 (lumaFlags k sofar).2, v)
    let chroma (k : Nat) (v : Bool) : Instr × Bool := (cselAB .cbpChroma k (chromaFlags k).1 (chromaFlags k).2, v)
    readsBins ([luma 0 0 b0, luma 1 b0.toNat b1, luma 2 (b0.toNat + 2 * b1.toNat) b2,
        luma 3 (b0.toNat + 2 * b1.toNat + 4 * b2.toNat) b3] ++
      (if monochrome then []
        else (List.range n).map (fun k => chroma k true) ++ if n < 2 then [chroma n false] else [])) s = some t →
    decodeMbCbp 0 monochrome lumaFlags chromaFlags s =
      some (some ⟨b0.toNat + 2 * b1.toNat + 4 * b2.toNat + 8 * b3.toNat, n⟩, t)) ∧
  (∀ (b2 pm1 pm0 monochrome : Bool) (ch : Nat) (lumaFlags : Nat → Nat → Bool × Bool) (chromaFlags : Nat → Bool × Bool)
      (s : State), ch ≤ 2 →
    decodeMbCbp (1 + 12 * b2.toNat + 4 * ch + 2 * pm1.toNat + pm0.toNat) monochrome lumaFlags chromaFlags s =
      some (some ⟨if b2 then 15 else 0, ch⟩, s)) ∧
  (∀ monochrome lumaFlags chromaFlags (s : State),
    decodeMbCbp 25 monochrome lumaFlags chromaFlags s = some (none, s)) ∧
  (∀ (monochrome b0 b1 b2 b3 : Bool) (mbA mbB : Option MbInfo) (n : Nat) (s t : State),
    n ≤ 2 → (monochrome = true → n = 0) →
    let lumaOf (mb : Option MbInfo) (b8 : Nat) : Bool :=
      match mb with
      | none => false
      | some m => decide (m.kind ≠ .iPcm ∧ m.cbpLuma / 2 ^ b8 % 2 = 0)
    let chromaOf (mb : Option MbInfo) (bin : Nat) : Bool :=
      match mb with
      | none => false
      | some m => decide (m.kind = .iPcm ∨ (if bin = 0 then m.cbpChroma ≠ 0 else m.cbpChroma = 2))
    let chroma (k : Nat) (v : Bool) : Instr × Bool := (cselAB .cbpChroma k (chromaOf mbA k) (chromaOf mbB k), v)
    readsBins ([(cselAB .cbpLuma 0 (lumaOf mbA 1) (lumaOf mbB 2), b0), (cselAB .cbpLuma 1 (!b0) (lumaOf mbB 3), b1),
        (cselAB .cbpLuma 2 (lumaOf mbA 3) (!b0), b2), (cselAB .cbpLuma 3 (!b2) (!b1), b3)] ++
      (if monochrome then []
        else (List.range n).map (fun k => chroma k true) ++ if n < 2 then [chroma n false] else [])) s = some t →
    decodeMbCbpBeside 0 monochrome mbA mbB s =
      some (some ⟨b0.toNat + 2 * b1.toNat + 4 * b2.toNat + 8 * b3.toNat, n⟩, t)) ∧
  (∀ (mbType : Nat) (monochrome : Bool) (mbA mbB : Option MbInfo) (s : State), 1 ≤ mbType → mbType ≤ 25 →
    decodeMbCbpBeside mbType monochrome mbA mbB s =
      some (if mbType = 25 then none else some ⟨if 13 ≤ mbType then 15 else 0, (mbType - 1) / 4 % 3⟩, s))

/-- A bin of coeff_abs_level_minus1's suffix is the same whether a CSEL precedes its BYP or not (R132): the CSEL changes
only SELCTX, SELV and RESULT, and BYP reads none of them. That the model takes the host's choice as an argument is DESIGN
CHOICE (log 21). -/
def Obligations.SuffixBinWithAndWithoutCsel : Prop :=
  ∀ (cat : BlockCat) (j : Nat) (s t : State) (b : Bool), s.err = .none → cat ≠ .cat6 → cat ≠ .cat7 → 14 ≤ j →
    suffixBin (fun _ => false) cat j s = some (b, t) →
    suffixBin (fun _ => true) cat j s = some (b, { t with selctx := 0, selv := false })

/-- DECSE is a CSEL followed by a DEC.S and BYPN n is n copies of BYP: the words that a line of well-formed operands is
assembled to decode to exactly that (R68, R69). -/
def Obligations.AssembledMacrosDecode : Prop :=
  (∀ f : CselFields, f.toInstr.wellFormed = true →
    (assemble [.decse f]).map decodeWord = [.ok f.toInstr, .ok .decS]) ∧
  (∀ n : Nat, (assemble [.bypn n]).map decodeWord = List.replicate n (.ok .byp))
end

