-- ==== Sys2Proof/Laws/State.lean ====
section
/-! SUPPORT. One lemma for each field under each named update of State, so that no proof unfolds an update. -/

namespace Sys2Proof.Machine

open Sys2Proof

/-! ## complete -/

@[simp] theorem complete_codIRange (r : Word) (s : State) : (complete r s).codIRange = s.codIRange := rfl
@[simp] theorem complete_codIOffset (r : Word) (s : State) : (complete r s).codIOffset = s.codIOffset := rfl
@[simp] theorem complete_eng (r : Word) (s : State) : (complete r s).eng = s.eng := rfl
@[simp] theorem complete_ctxv (r : Word) (s : State) : (complete r s).ctxv = s.ctxv := rfl
@[simp] theorem complete_ctx (r : Word) (s : State) : (complete r s).ctx = s.ctx := rfl
@[simp] theorem complete_selctx (r : Word) (s : State) : (complete r s).selctx = s.selctx := rfl
@[simp] theorem complete_selv (r : Word) (s : State) : (complete r s).selv = s.selv := rfl
@[simp] theorem complete_eq1cnt (r : Word) (s : State) : (complete r s).eq1cnt = s.eq1cnt := rfl
@[simp] theorem complete_gt1cnt (r : Word) (s : State) : (complete r s).gt1cnt = s.gt1cnt := rfl
@[simp] theorem complete_err (r : Word) (s : State) : (complete r s).err = s.err := rfl
@[simp] theorem complete_result (r : Word) (s : State) : (complete r s).result = r := rfl
@[simp] theorem complete_resultv (r : Word) (s : State) : (complete r s).resultv = true := rfl
@[simp] theorem complete_cursor (r : Word) (s : State) : (complete r s).cursor = s.cursor := rfl
@[simp] theorem complete_buf (r : Word) (s : State) : (complete r s).buf = s.buf := rfl
@[simp] theorem complete_config (r : Word) (s : State) : (complete r s).config = s.config := rfl
@[simp] theorem complete_port (r : Word) (s : State) : (complete r s).port = s.port := rfl
@[simp] theorem complete_readData (r : Word) (s : State) : (complete r s).readData = s.readData := rfl

/-! ## returnFromError -/

@[simp] theorem returnFromError_codIRange (s : State) : (returnFromError s).codIRange = s.codIRange := rfl
@[simp] theorem returnFromError_codIOffset (s : State) : (returnFromError s).codIOffset = s.codIOffset := rfl
@[simp] theorem returnFromError_eng (s : State) : (returnFromError s).eng = s.eng := rfl
@[simp] theorem returnFromError_ctxv (s : State) : (returnFromError s).ctxv = s.ctxv := rfl
@[simp] theorem returnFromError_ctx (s : State) : (returnFromError s).ctx = s.ctx := rfl
@[simp] theorem returnFromError_selctx (s : State) : (returnFromError s).selctx = s.selctx := rfl
@[simp] theorem returnFromError_selv (s : State) : (returnFromError s).selv = s.selv := rfl
@[simp] theorem returnFromError_eq1cnt (s : State) : (returnFromError s).eq1cnt = s.eq1cnt := rfl
@[simp] theorem returnFromError_gt1cnt (s : State) : (returnFromError s).gt1cnt = s.gt1cnt := rfl
@[simp] theorem returnFromError_err (s : State) : (returnFromError s).err = .none := rfl
@[simp] theorem returnFromError_result (s : State) : (returnFromError s).result = s.result := rfl
@[simp] theorem returnFromError_resultv (s : State) : (returnFromError s).resultv = s.resultv := rfl
@[simp] theorem returnFromError_cursor (s : State) : (returnFromError s).cursor = s.cursor := rfl
@[simp] theorem returnFromError_buf (s : State) : (returnFromError s).buf = s.buf := rfl
@[simp] theorem returnFromError_config (s : State) : (returnFromError s).config = s.config := rfl
@[simp] theorem returnFromError_port (s : State) : (returnFromError s).port = s.port := rfl
@[simp] theorem returnFromError_readData (s : State) : (returnFromError s).readData = s.readData := rfl

/-! ## takeError -/

@[simp] theorem takeError_codIRange (e : ErrCode) (s : State) : (takeError e s).codIRange = s.codIRange := by
  unfold takeError; split <;> rfl
@[simp] theorem takeError_codIOffset (e : ErrCode) (s : State) : (takeError e s).codIOffset = s.codIOffset := by
  unfold takeError; split <;> rfl
@[simp] theorem takeError_eng (e : ErrCode) (s : State) : (takeError e s).eng = s.eng := by
  unfold takeError; split <;> rfl
@[simp] theorem takeError_ctxv (e : ErrCode) (s : State) : (takeError e s).ctxv = s.ctxv := by
  unfold takeError; split <;> rfl
@[simp] theorem takeError_ctx (e : ErrCode) (s : State) : (takeError e s).ctx = s.ctx := by
  unfold takeError; split <;> rfl
@[simp] theorem takeError_selctx (e : ErrCode) (s : State) : (takeError e s).selctx = s.selctx := by
  unfold takeError; split <;> rfl
@[simp] theorem takeError_selv (e : ErrCode) (s : State) : (takeError e s).selv = s.selv := by
  unfold takeError; split <;> rfl
@[simp] theorem takeError_eq1cnt (e : ErrCode) (s : State) : (takeError e s).eq1cnt = s.eq1cnt := by
  unfold takeError; split <;> rfl
@[simp] theorem takeError_gt1cnt (e : ErrCode) (s : State) : (takeError e s).gt1cnt = s.gt1cnt := by
  unfold takeError; split <;> rfl
@[simp] theorem takeError_result (e : ErrCode) (s : State) : (takeError e s).result = s.result := by
  unfold takeError; split <;> rfl
@[simp] theorem takeError_resultv (e : ErrCode) (s : State) : (takeError e s).resultv = s.resultv := by
  unfold takeError; split <;> rfl
@[simp] theorem takeError_cursor (e : ErrCode) (s : State) : (takeError e s).cursor = s.cursor := by
  unfold takeError; split <;> rfl
@[simp] theorem takeError_buf (e : ErrCode) (s : State) : (takeError e s).buf = s.buf := by
  unfold takeError; split <;> rfl
@[simp] theorem takeError_config (e : ErrCode) (s : State) : (takeError e s).config = s.config := by
  unfold takeError; split <;> rfl
@[simp] theorem takeError_port (e : ErrCode) (s : State) : (takeError e s).port = s.port := by
  unfold takeError; split <;> rfl
@[simp] theorem takeError_readData (e : ErrCode) (s : State) : (takeError e s).readData = s.readData := by
  unfold takeError; split <;> rfl

/-- An error is latched where none was (R147). -/
theorem takeError_of_clear (e : ErrCode) {s : State} (h : s.err = .none) : takeError e s = { s with err := e } := by
  simp [takeError, h]

/-- The first error wins (R147). -/
theorem takeError_of_latched (e : ErrCode) {s : State} (h : s.err ≠ .none) : takeError e s = s := by
  simp [takeError, h]

/-! ## resetUnit -/

@[simp] theorem resetUnit_codIRange (s : State) : (resetUnit s).codIRange = State.reset.codIRange := rfl
@[simp] theorem resetUnit_codIOffset (s : State) : (resetUnit s).codIOffset = State.reset.codIOffset := rfl
@[simp] theorem resetUnit_eng (s : State) : (resetUnit s).eng = State.reset.eng := rfl
@[simp] theorem resetUnit_ctxv (s : State) : (resetUnit s).ctxv = State.reset.ctxv := rfl
@[simp] theorem resetUnit_ctx (s : State) : (resetUnit s).ctx = State.reset.ctx := rfl
@[simp] theorem resetUnit_selctx (s : State) : (resetUnit s).selctx = State.reset.selctx := rfl
@[simp] theorem resetUnit_selv (s : State) : (resetUnit s).selv = State.reset.selv := rfl
@[simp] theorem resetUnit_eq1cnt (s : State) : (resetUnit s).eq1cnt = State.reset.eq1cnt := rfl
@[simp] theorem resetUnit_gt1cnt (s : State) : (resetUnit s).gt1cnt = State.reset.gt1cnt := rfl
@[simp] theorem resetUnit_err (s : State) : (resetUnit s).err = State.reset.err := rfl
@[simp] theorem resetUnit_result (s : State) : (resetUnit s).result = State.reset.result := rfl
@[simp] theorem resetUnit_resultv (s : State) : (resetUnit s).resultv = State.reset.resultv := rfl
@[simp] theorem resetUnit_cursor (s : State) : (resetUnit s).cursor = s.cursor := rfl
@[simp] theorem resetUnit_buf (s : State) : (resetUnit s).buf = s.buf := rfl
@[simp] theorem resetUnit_config (s : State) : (resetUnit s).config = s.config := rfl
@[simp] theorem resetUnit_port (s : State) : (resetUnit s).port = s.port := rfl
@[simp] theorem resetUnit_readData (s : State) : (resetUnit s).readData = s.readData := rfl

/-! ## withFetchWord -/

@[simp] theorem withFetchWord_codIRange (s : State) (n w : Nat) : (s.withFetchWord n w).codIRange = s.codIRange := rfl
@[simp] theorem withFetchWord_codIOffset (s : State) (n w : Nat) : (s.withFetchWord n w).codIOffset = s.codIOffset := rfl
@[simp] theorem withFetchWord_eng (s : State) (n w : Nat) : (s.withFetchWord n w).eng = s.eng := rfl
@[simp] theorem withFetchWord_ctxv (s : State) (n w : Nat) : (s.withFetchWord n w).ctxv = s.ctxv := rfl
@[simp] theorem withFetchWord_ctx (s : State) (n w : Nat) : (s.withFetchWord n w).ctx = s.ctx := rfl
@[simp] theorem withFetchWord_selctx (s : State) (n w : Nat) : (s.withFetchWord n w).selctx = s.selctx := rfl
@[simp] theorem withFetchWord_selv (s : State) (n w : Nat) : (s.withFetchWord n w).selv = s.selv := rfl
@[simp] theorem withFetchWord_eq1cnt (s : State) (n w : Nat) : (s.withFetchWord n w).eq1cnt = s.eq1cnt := rfl
@[simp] theorem withFetchWord_gt1cnt (s : State) (n w : Nat) : (s.withFetchWord n w).gt1cnt = s.gt1cnt := rfl
@[simp] theorem withFetchWord_err (s : State) (n w : Nat) : (s.withFetchWord n w).err = s.err := rfl
@[simp] theorem withFetchWord_result (s : State) (n w : Nat) : (s.withFetchWord n w).result = s.result := rfl
@[simp] theorem withFetchWord_resultv (s : State) (n w : Nat) : (s.withFetchWord n w).resultv = s.resultv := rfl
@[simp] theorem withFetchWord_cursor (s : State) (n w : Nat) : (s.withFetchWord n w).cursor = s.cursor := rfl
@[simp] theorem withFetchWord_buf (s : State) (n w : Nat) : (s.withFetchWord n w).buf = s.buf := rfl
@[simp] theorem withFetchWord_config (s : State) (n w : Nat) : (s.withFetchWord n w).config = s.config := rfl
@[simp] theorem withFetchWord_port (s : State) (n w : Nat) : (s.withFetchWord n w).port = .command (tableWord n w) :: s.port := rfl
@[simp] theorem withFetchWord_readData (s : State) (n w : Nat) : (s.withFetchWord n w).readData = s.readData := rfl

/-! ## withTables -/

@[simp] theorem withTables_codIRange (t : ConstTables) (s : State) : (s.withTables t).codIRange = s.codIRange := rfl
@[simp] theorem withTables_codIOffset (t : ConstTables) (s : State) : (s.withTables t).codIOffset = s.codIOffset := rfl
@[simp] theorem withTables_eng (t : ConstTables) (s : State) : (s.withTables t).eng = s.eng := rfl
@[simp] theorem withTables_ctxv (t : ConstTables) (s : State) : (s.withTables t).ctxv = s.ctxv := rfl
@[simp] theorem withTables_ctx (t : ConstTables) (s : State) : (s.withTables t).ctx = s.ctx := rfl
@[simp] theorem withTables_selctx (t : ConstTables) (s : State) : (s.withTables t).selctx = s.selctx := rfl
@[simp] theorem withTables_selv (t : ConstTables) (s : State) : (s.withTables t).selv = s.selv := rfl
@[simp] theorem withTables_eq1cnt (t : ConstTables) (s : State) : (s.withTables t).eq1cnt = s.eq1cnt := rfl
@[simp] theorem withTables_gt1cnt (t : ConstTables) (s : State) : (s.withTables t).gt1cnt = s.gt1cnt := rfl
@[simp] theorem withTables_err (t : ConstTables) (s : State) : (s.withTables t).err = s.err := rfl
@[simp] theorem withTables_result (t : ConstTables) (s : State) : (s.withTables t).result = s.result := rfl
@[simp] theorem withTables_resultv (t : ConstTables) (s : State) : (s.withTables t).resultv = s.resultv := rfl
@[simp] theorem withTables_cursor (t : ConstTables) (s : State) : (s.withTables t).cursor = s.cursor := rfl
@[simp] theorem withTables_buf (t : ConstTables) (s : State) : (s.withTables t).buf = s.buf := rfl
@[simp] theorem withTables_port (t : ConstTables) (s : State) : (s.withTables t).port = s.port := rfl
@[simp] theorem withTables_readData (t : ConstTables) (s : State) : (s.withTables t).readData = s.readData := rfl
@[simp] theorem withTables_tables (t : ConstTables) (s : State) : (s.withTables t).config.tables = t := rfl
@[simp] theorem withTables_ctxInitMN (t : ConstTables) (s : State) :
    (s.withTables t).config.ctxInitMN = s.config.ctxInitMN := rfl
@[simp] theorem withTables_epbPolicy (t : ConstTables) (s : State) :
    (s.withTables t).config.epbPolicy = s.config.epbPolicy := rfl

/-- Two states with equal fields are equal. -/
theorem State.ext_fields {s t : State}
    (h_codIRange : s.codIRange = t.codIRange)
    (h_codIOffset : s.codIOffset = t.codIOffset)
    (h_eng : s.eng = t.eng)
    (h_ctxv : s.ctxv = t.ctxv)
    (h_ctx : s.ctx = t.ctx)
    (h_selctx : s.selctx = t.selctx)
    (h_selv : s.selv = t.selv)
    (h_eq1cnt : s.eq1cnt = t.eq1cnt)
    (h_gt1cnt : s.gt1cnt = t.gt1cnt)
    (h_err : s.err = t.err)
    (h_result : s.result = t.result)
    (h_resultv : s.resultv = t.resultv)
    (h_cursor : s.cursor = t.cursor)
    (h_buf : s.buf = t.buf)
    (h_config : s.config = t.config)
    (h_port : s.port = t.port)
    (h_readData : s.readData = t.readData) : s = t := by
  cases s; cases t; simp_all

end Sys2Proof.Machine
end

