-- ==== Sys2Proof/Laws/Table.lean ====
section
/-! SUPPORT. The laws of a table (R23, R40): a read after a write, and what a write leaves alone. -/

namespace Sys2Proof

namespace Table

variable {w : Nat} {α β : Type}

/-- A read of the entry just written gives the value written. -/
@[simp] theorem get_set_same (t : Table w α) (i : BitVec w) (x : α) : (t.set i x).get i = x := by
  simp [get, set]

/-- A write leaves every other entry alone. -/
theorem get_set_of_ne (t : Table w α) {i j : BitVec w} (x : α) (h : j ≠ i) : (t.set i x).get j = t.get j := by
  have : i.toNat ≠ j.toNat := fun e => h (BitVec.eq_of_toNat_eq e.symm)
  simp [get, set, this]

/-- A read after a write, either way. -/
theorem get_set (t : Table w α) (i j : BitVec w) (x : α) :
    (t.set i x).get j = if j = i then x else t.get j := by
  by_cases h : j = i
  · simp [h]
  · simp [h, get_set_of_ne]

@[simp] theorem get_map (f : α → β) (t : Table w α) (i : BitVec w) : (t.map f).get i = f (t.get i) := by
  simp [get, map]

@[simp] theorem get_fill (x : α) (i : BitVec w) : (fill x : Table w α).get i = x := by
  simp only [get, fill, List.getElem_replicate]

@[simp] theorem get_ofFn (f : BitVec w → α) (i : BitVec w) : (ofFn f).get i = f i := by
  simp only [get, ofFn, List.getElem_map, List.getElem_range]
  congr 1
  exact BitVec.eq_of_toNat_eq (by simp)

/-- Tables with equal entries are equal. -/
theorem ext_get {t u : Table w α} (h : ∀ i, t.get i = u.get i) : t = u := by
  obtain ⟨l, hl⟩ := t
  obtain ⟨m, hm⟩ := u
  have : l = m := by
    apply List.ext_getElem (hl.trans hm.symm)
    intro n h1 _
    have := h (BitVec.ofNat w n)
    have e : (BitVec.ofNat w n).toNat = n := by simpa using Nat.mod_eq_of_lt (hl ▸ h1)
    simpa only [get, e] using this
  subst this
  rfl

/-- A write of what an entry already holds changes nothing. -/
theorem set_get_self (t : Table w α) (i : BitVec w) : t.set i (t.get i) = t :=
  ext_get fun j => by
    rw [get_set]
    split
    · next h => rw [h]
    · rfl

end Table

end Sys2Proof
end

