-- ==== Sys2Proof/Laws/Ops.lean ====
section
/-! SUPPORT. What each shared operation can do, said once: issuing a command, bit input, renormalisation and the end of
a decoding command. -/

namespace Sys2Proof.Machine

open Sys2Proof

/-! ## Issuing -/

/-- A command whose opcode is refused changes nothing (R147). -/
theorem issue_refused {op : Opcode} {s : State} (body : CmdEnd) (h : s.err ≠ .none) (he : op.exempt = false) :
    issue op s body = .next s := by
  simp [issue, h, he]

/-- A command that runs answers what its rule says. -/
theorem issue_runs {op : Opcode} {s : State} (body : CmdEnd) (h : s.err = .none ∨ op.exempt = true) :
    issue op s body =
      match body with
      | .done t => .next t
      | .raise e => .next (takeError e s)
      | .misfit => .fault .valueDoesNotFit := by
  have : ¬(s.err ≠ .none ∧ op.exempt = false) := by
    rcases h with h | h <;> simp [h]
  unfold issue
  cases body <;> exact if_neg this

/-- Everything that issuing a command can do when it answers a next state. -/
theorem issue_cases {op : Opcode} {s t : State} {body : CmdEnd} (h : issue op s body = .next t) :
    (s.err ≠ .none ∧ op.exempt = false ∧ t = s) ∨
    ((s.err = .none ∨ op.exempt = true) ∧ (body = .done t ∨ ∃ e, body = .raise e ∧ t = takeError e s)) := by
  by_cases hr : s.err ≠ .none ∧ op.exempt = false
  · rw [issue_refused body hr.1 hr.2] at h
    exact .inl ⟨hr.1, hr.2, by simpa using h.symm⟩
  · have hg : s.err = .none ∨ op.exempt = true := by
      by_cases he : s.err = .none
      · exact .inl he
      · exact .inr (by cases hx : op.exempt <;> simp_all)
    rw [issue_runs body hg] at h
    refine .inr ⟨hg, ?_⟩
    cases body with
    | done u => exact .inl (by simpa using h)
    | raise e => exact .inr ⟨e, rfl, by simpa using h.symm⟩
    | misfit => simp at h

/-- Issuing a command never refuses in the model's sense. -/
theorem issue_ne_refused {op : Opcode} {s : State} {body : CmdEnd} {r : Refusal} : issue op s body ≠ .refused r := by
  unfold issue
  split
  · simp
  · cases body <;> simp

/-- Issuing a command stops only where its rule would store a value that does not fit (R8). -/
theorem issue_goesOn {op : Opcode} {s : State} {body : CmdEnd} (h : body ≠ .misfit) : GoesOn (issue op s body) := by
  unfold issue GoesOn
  split
  · exact ⟨_, rfl⟩
  · cases body with
    | done t => exact ⟨t, rfl⟩
    | raise e => exact ⟨_, rfl⟩
    | misfit => exact absurd rfl h

/-! ## Bit input -/

/-- There is a bit exactly below 8*LEN (R38). -/
theorem readBit_isSome_iff (buf : List Byte) (c : Nat) : (readBit buf c).isSome = true ↔ c < 8 * buf.length := by
  unfold readBit
  by_cases h : c / 8 < buf.length
  · simp [h]; omega
  · simp [h]; omega

/-- A bit read at or past the end finds none (R38). -/
theorem readBit_eq_none {buf : List Byte} {c : Nat} (h : 8 * buf.length ≤ c) : readBit buf c = none := by
  have := readBit_isSome_iff buf c
  cases hb : readBit buf c with
  | none => rfl
  | some b => simp [hb] at this; omega

/-- A bit read below the end finds one (R38). -/
theorem readBit_eq_some {buf : List Byte} {c : Nat} (h : c < 8 * buf.length) : ∃ b, readBit buf c = some b :=
  Option.isSome_iff_exists.mp ((readBit_isSome_iff buf c).mpr h)

/-- A bit that was read lies below the end (R38). -/
theorem lt_of_readBit {buf : List Byte} {c : Nat} {b : Bool} (h : readBit buf c = some b) : c < 8 * buf.length :=
  (readBit_isSome_iff buf c).mp (by simp [h])

/-- Extending the buffer keeps every bit that could be read before (R50, R172). -/
theorem readBit_append {buf more : List Byte} {c : Nat} {b : Bool} (h : readBit buf c = some b) :
    readBit (buf ++ more) c = some b := by
  have hc := lt_of_readBit h
  have : c / 8 < buf.length := by omega
  simpa [readBit, List.getElem?_append_left this] using h

/-- ReadBits(n + 1) is one bit and then n (R39). -/
theorem readBits_succ {buf : List Byte} {n c v : Nat} (h : readBits buf (n + 1) c = some v) :
    ∃ b u, readBit buf c = some b ∧ readBits buf n (c + 1) = some u ∧ v = b.toNat * 2 ^ n + u := by
  simp only [readBits] at h
  cases hb : readBit buf c with
  | none => simp [hb] at h
  | some b =>
    cases hu : readBits buf n (c + 1) with
    | none => simp [hb, hu] at h
    | some u => exact ⟨b, u, rfl, rfl, by simpa [hb, hu] using h.symm⟩

/-- A value of n bits is below 2^n (R39). -/
theorem readBits_lt {buf : List Byte} {n c v : Nat} (h : readBits buf n c = some v) : v < 2 ^ n := by
  induction n generalizing c v with
  | zero => simp [readBits] at h; omega
  | succ n ih =>
    obtain ⟨b, u, -, hu, rfl⟩ := readBits_succ h
    have := ih hu
    cases b <;> simp [Nat.pow_succ] <;> omega

/-- n bits that were read all lie below the end (R39). -/
theorem le_of_readBits {buf : List Byte} {n c v : Nat} (hn : 0 < n) (h : readBits buf n c = some v) :
    c + n ≤ 8 * buf.length := by
  induction n generalizing c v with
  | zero => omega
  | succ n ih =>
    obtain ⟨b, u, hb, hu, -⟩ := readBits_succ h
    have := lt_of_readBit hb
    rcases Nat.eq_zero_or_pos n with hz | hp
    · omega
    · have := ih hp hu; omega

/-- The cells of a buffer are in canonical form whatever the buffer is: no operation can break it (log 17). -/
theorem bufCells_wf (buf : List Byte) : Memory.wf (bufCells buf) = true := by
  suffices h : ∀ (l : List Byte) (n : Nat), Memory.wf ((l.zipIdx n).map fun (b, a) => (a, b)) = true from h buf 0
  intro l
  induction l with
  | nil => intro n; rfl
  | cons b l ih =>
    intro n
    cases l with
    | nil => rfl
    | cons d l =>
      have := ih (n + 1)
      simp only [List.zipIdx_cons, List.map_cons, Memory.wf, Bool.and_eq_true, decide_eq_true_eq] at this ⊢
      exact ⟨by omega, this⟩

/-! ## Integers -/

/-- `clip` stays inside its bounds (R9). -/
theorem clip_bounds {lo hi v : Int} (h : lo ≤ hi) : lo ≤ clip lo hi v ∧ clip lo hi v ≤ hi := by
  unfold clip; split
  · omega
  · split <;> omega

/-- `clip` as Max and Min (R9). -/
theorem clip_eq_max_min {lo hi v : Int} (h : lo ≤ hi) : clip lo hi v = max lo (min hi v) := by
  unfold clip; split
  · omega
  · split <;> omega

/-! ## Renormalisation -/

/-- RenormD is the loop of R88, word for word. -/
theorem renorm_eq (buf : List Byte) (v : EngineVals) :
    renorm buf v =
      if v.range < 256 then
        match readBit buf v.cursor with
        | none => none
        | some b => renorm buf ⟨2 * v.range, 2 * v.offset + b.toInt, v.cursor + 1⟩
      else some v := by
  by_cases hr : v.range < 256
  · rw [if_pos hr]
    cases hb : readBit buf v.cursor with
    | none =>
      have hc : 8 * buf.length ≤ v.cursor := by
        by_contra hlt
        obtain ⟨b, hb'⟩ := readBit_eq_some (buf := buf) (c := v.cursor) (by omega)
        simp [hb] at hb'
      have : 8 * buf.length - v.cursor = 0 := by omega
      simp [renorm, this, renormLoop, hr]
    | some b =>
      have hc := lt_of_readBit hb
      obtain ⟨n, hn⟩ : ∃ n, 8 * buf.length - v.cursor = n + 1 := ⟨8 * buf.length - v.cursor - 1, by omega⟩
      have hn' : 8 * buf.length - (v.cursor + 1) = n := by omega
      simp [renorm, hn, hn', renormLoop, hr, hb]
  · rw [if_neg hr]
    unfold renorm
    cases 8 * buf.length - v.cursor <;> simp [renormLoop, hr]

/-- A range of 256 or more is left as it is (R88). -/
theorem renorm_of_ge {buf : List Byte} {v : EngineVals} (h : 256 ≤ v.range) : renorm buf v = some v := by
  rw [renorm_eq, if_neg (by omega)]

/-- A range below 256 takes a bit (R88). -/
theorem renorm_of_lt {buf : List Byte} {v : EngineVals} (h : v.range < 256) :
    renorm buf v =
      match readBit buf v.cursor with
      | none => none
      | some b => renorm buf ⟨2 * v.range, 2 * v.offset + b.toInt, v.cursor + 1⟩ := by
  rw [renorm_eq, if_pos h]

/-- What RenormD keeps and reaches, whatever the number of iterations: from a positive range and an offset below it,
it ends at a range of at least 256 with the offset below it (R88, R89). The range does not exceed 510 and CURSOR moves
by at most the number of doublings that fit. -/
theorem renorm_spec {buf : List Byte} (n : Nat) :
    ∀ {v w : EngineVals}, renorm buf v = some w → 256 ≤ v.range * 2 ^ n → v.range ≤ 510 →
      0 ≤ v.offset → v.offset < v.range →
      256 ≤ w.range ∧ w.range ≤ 510 ∧ 0 ≤ w.offset ∧ w.offset < w.range ∧
        v.cursor ≤ w.cursor ∧ w.cursor ≤ v.cursor + n := by
  induction n with
  | zero =>
    intro v w h hn hr ho hlt
    have hge : 256 ≤ v.range := by simpa using hn
    rw [renorm_of_ge hge] at h
    cases h
    exact ⟨hge, hr, ho, hlt, by omega, by omega⟩
  | succ n ih =>
    intro v w h hn hr ho hlt
    by_cases hge : 256 ≤ v.range
    · rw [renorm_of_ge hge] at h
      cases h
      exact ⟨hge, hr, ho, hlt, by omega, by omega⟩
    · rw [renorm_of_lt (by omega)] at h
      split at h
      · simp at h
      · next b hb =>
        have hb01 : 0 ≤ b.toInt ∧ b.toInt ≤ 1 := by cases b <;> simp
        have hn' : 256 ≤ (2 * v.range) * 2 ^ n := by
          have : v.range * 2 ^ (n + 1) = (2 * v.range) * 2 ^ n := by rw [pow_succ]; ring
          omega
        have := ih h hn' (by simp; omega) (by simp; omega) (by simp; omega)
        simp only at this
        omega

/-- RenormD never moves CURSOR back, and stays inside the buffer. -/
theorem renorm_cursor {buf : List Byte} :
    ∀ {v w : EngineVals}, v.cursor ≤ 8 * buf.length → renorm buf v = some w →
      v.cursor ≤ w.cursor ∧ w.cursor ≤ 8 * buf.length := by
  suffices hk : ∀ (k : Nat) (v w : EngineVals), 8 * buf.length - v.cursor = k → v.cursor ≤ 8 * buf.length →
      renorm buf v = some w → v.cursor ≤ w.cursor ∧ w.cursor ≤ 8 * buf.length from
    fun {v w} hv h => hk _ v w rfl hv h
  intro k
  induction k with
  | zero =>
    intro v w hk hv h
    by_cases hr : v.range < 256
    · rw [renorm_of_lt hr, readBit_eq_none (by omega)] at h; simp at h
    · rw [renorm_of_ge (by omega)] at h; cases h; omega
  | succ k ih =>
    intro v w hk hv h
    by_cases hr : v.range < 256
    · rw [renorm_of_lt hr] at h
      split at h
      · simp at h
      · have := ih _ _ (by simp; omega) (by simp; omega) h
        simp only at this; omega
    · rw [renorm_of_ge (by omega)] at h; cases h; omega

/-! ## The end of a decoding command -/

/-- Values that fit are stored as they are (R8). -/
theorem finishEngine_fits {v : EngineVals} {bin : Bool} {s : State} (hr : 0 ≤ v.range ∧ v.range < 512)
    (ho : 0 ≤ v.offset ∧ v.offset < 512) :
    finishEngine v bin s =
      .done (complete (binWord bin)
        { s with codIRange := BitVec.ofInt 9 v.range, codIOffset := BitVec.ofInt 9 v.offset, cursor := v.cursor }) := by
  simp [finishEngine, fits9, hr, ho]

/-- What the end of a decoding command can do when it completes. -/
theorem finishEngine_done {v : EngineVals} {bin : Bool} {s t : State} (h : finishEngine v bin s = .done t) :
    0 ≤ v.range ∧ v.range < 512 ∧ 0 ≤ v.offset ∧ v.offset < 512 ∧
    t = complete (binWord bin)
      { s with codIRange := BitVec.ofInt 9 v.range, codIOffset := BitVec.ofInt 9 v.offset, cursor := v.cursor } := by
  unfold finishEngine at h
  split at h
  · next hf =>
    simp only [fits9, Bool.and_eq_true, decide_eq_true_eq] at hf
    exact ⟨hf.1.1, hf.1.2, hf.2.1, hf.2.2, by simpa using h.symm⟩
  · simp at h

/-- The end of a decoding command raises nothing. -/
theorem finishEngine_ne_raise {v : EngineVals} {bin : Bool} {s : State} {e : ErrCode} :
    finishEngine v bin s ≠ .raise e := by
  unfold finishEngine; split <;> simp

/-- A value that fits 9 bits is read back as it was stored (R8). -/
theorem toNat_ofInt9 {v : Int} (h0 : 0 ≤ v) (h1 : v < 512) : ((BitVec.ofInt 9 v).toNat : Int) = v := by
  rw [BitVec.toNat_ofInt]
  have : v % ((2 ^ 9 : Nat) : Int) = v := Int.emod_eq_of_lt h0 (by simpa using h1)
  rw [this]
  omega

end Sys2Proof.Machine
end

