-- ==== Sys2Proof/Laws/Engine.lean ====
section
/-! SUPPORT. The engine's tables and arithmetic: the bounds that the invariant rests on (41_engine R80 to R92). -/

namespace Sys2Proof.Machine

open Sys2Proof

/-! ## Tables -/

/-- The intended tables meet R80's bounds on the ranges. -/
theorem intended_range (p : BitVec 6) (q : Nat) (hq : q < 4) :
    2 ≤ rangeTabLPS intendedTables p q ∧ rangeTabLPS intendedTables p q ≤ 240 ∧
      rangeTabLPS intendedTables p q ≤ 128 + 48 * q := by
  have h : ∀ (p : BitVec 6) (q : Fin 4),
      2 ≤ rangeTabLPS intendedTables p q ∧ rangeTabLPS intendedTables p q ≤ 240 ∧
      rangeTabLPS intendedTables p q ≤ 128 + 48 * q.val := by decide +kernel
  exact h p ⟨q, hq⟩

/-- Rows 0 to 62 of the intended RANGE_TAB_LPS have entries of at least 6 (R80). -/
theorem intended_rangeBelow63 (p : BitVec 6) (q : Nat) (hp : p.toNat ≤ 62) (hq : q < 4) :
    6 ≤ rangeTabLPS intendedTables p q := by
  have h : ∀ (p : BitVec 6) (q : Fin 4), p.toNat ≤ 62 → 6 ≤ rangeTabLPS intendedTables p q := by decide +kernel
  exact h p ⟨q, hq⟩ hp

/-- An LPS leads to pStateIdx 38 at most, from anywhere but 63, by the intended table (R81, R92). -/
theorem intended_lps {p : BitVec 6} (hp : p.toNat ≤ 62) : (transIdxLPS intendedTables p).toNat ≤ 38 := by
  have h : ∀ p : BitVec 6, p.toNat ≤ 62 → (transIdxLPS intendedTables p).toNat ≤ 38 := by decide +kernel
  exact h p hp

/-- An MPS leads to 1..62, from anywhere but 63, by the intended table (R82, R92). -/
theorem intended_mps {p : BitVec 6} (hp : p.toNat ≤ 62) :
    1 ≤ (transIdxMPS intendedTables p).toNat ∧ (transIdxMPS intendedTables p).toNat ≤ 62 := by
  have h : ∀ p : BitVec 6, p.toNat ≤ 62 →
      1 ≤ (transIdxMPS intendedTables p).toNat ∧ (transIdxMPS intendedTables p).toNat ≤ 62 := by decide +kernel
  exact h p hp

/-- The column index is one of four (R78). -/
theorem qCodIRangeIdx_lt (range : Int) : qCodIRangeIdx range < 4 := by
  unfold qCodIRangeIdx; omega

/-- The LPS sub-range is at most 128 + 48 q, and q is the quarter the range lies in (R78, R80). -/
theorem codIRangeLPS_bounds {t : ConstTables} (ht : CheckedTables t) (x : Ctx) {range : Int} (h0 : 256 ≤ range)
    (h1 : range ≤ 510) :
    2 ≤ codIRangeLPS t x range ∧ codIRangeLPS t x range ≤ 240 ∧ codIRangeLPS t x range + 128 ≤ range := by
  have hq := qCodIRangeIdx_lt range
  have hb := ht.range x.pStateIdx _ hq
  unfold codIRangeLPS
  have hqv : (qCodIRangeIdx range : Int) = range / 64 - 4 := by unfold qCodIRangeIdx; omega
  omega

/-- From an engine that meets R89, DecodeDecision leaves a range of at least 2 and an offset below it; RenormD then needs
at most seven doublings, and six where the context is not at 63 (R88, R89, R91). -/
theorem decodeDecision_bounds {t : ConstTables} (ht : CheckedTables t) (x : Ctx) {range offset : Int}
    (h0 : 256 ≤ range) (h1 : range ≤ 510) (h2 : 0 ≤ offset) (h3 : offset < range) :
    2 ≤ (decodeDecision t x range offset).range ∧ (decodeDecision t x range offset).range ≤ 510 ∧
    0 ≤ (decodeDecision t x range offset).offset ∧
    (decodeDecision t x range offset).offset < (decodeDecision t x range offset).range ∧
    (x.pStateIdx.toNat ≤ 62 → 6 ≤ (decodeDecision t x range offset).range) := by
  have hb := codIRangeLPS_bounds ht x h0 h1
  unfold decodeDecision
  split
  · refine ⟨by simp; omega, by simp; omega, by simp; omega, by simp; omega, fun hp => ?_⟩
    have := ht.rangeBelow63 _ _ hp (qCodIRangeIdx_lt range)
    simp only [codIRangeLPS]; omega
  · exact ⟨by simp; omega, by simp; omega, by simp; omega, by simp; omega, fun _ => by simp; omega⟩

/-- DecodeDecision never moves a context from 0..62 to 63 (R92). -/
theorem decodeDecision_ctx_le {t : ConstTables} (ht : CheckedTables t) {x : Ctx} {range offset : Int} (hp : x.pStateIdx.toNat ≤ 62) :
    (decodeDecision t x range offset).ctx.pStateIdx.toNat ≤ 62 := by
  unfold decodeDecision
  split
  · exact ht.lps _ hp
  · exact ht.mps _ hp

/-! ## Context initialisation -/

/-- preCtxState is 1 to 126 (R75). -/
theorem preCtxState_bounds (mn : Int × Int) (qp : Int) : 1 ≤ preCtxState mn qp ∧ preCtxState mn qp ≤ 126 :=
  clip_bounds (by decide)

/-- The pStateIdx of an initialised context, as the number the rule computes (R75). -/
theorem initCtx_pStateIdx (qp : Int) (mn : Int × Int) :
    ((initCtx qp mn).pStateIdx.toNat : Int) =
      if preCtxState mn qp ≤ 63 then 63 - preCtxState mn qp else preCtxState mn qp - 64 := by
  have hb := preCtxState_bounds mn qp
  unfold initCtx
  split
  · simp only [BitVec.toNat_ofInt]; omega
  · simp only [BitVec.toNat_ofInt]; omega

/-- The valMPS of an initialised context: 0 exactly when preCtxState is at most 63 (R75). -/
theorem initCtx_valMPS (qp : Int) (mn : Int × Int) :
    (initCtx qp mn).valMPS = decide (63 < preCtxState mn qp) := by
  unfold initCtx
  split
  · next h => simp; omega
  · next h => simp; omega

/-- CINIT leaves pStateIdx between 0 and 62 (R75, R92). -/
theorem initCtx_le (qp : Int) (mn : Int × Int) : (initCtx qp mn).pStateIdx.toNat ≤ 62 := by
  have hb := preCtxState_bounds mn qp
  have h := initCtx_pStateIdx qp mn
  split at h <;> omega

end Sys2Proof.Machine
end

