-- ==== Sys2Proof/Laws/ContextSelect.lean ====
section
/-! SUPPORT. Context selection: the index that CSEL reports lies in the range its element owns (42_context_select R104,
R107), and the counters saturate (R124). -/

namespace Sys2Proof.Machine

open Sys2Proof

@[simp] theorem intended_ctxIdxOffset :
    intendedTables.ctxIdxOffset = ⟨3, 399, 68, 69, 64, 73, 77, 60, 85, 1012, 105, 402, 166, 417, 227, 426, 276⟩ := rfl
@[simp] theorem intended_cbfCatOffset : intendedTables.cbfCatOffset = ⟨0, 4, 8, 12, 16, 0⟩ := rfl
@[simp] theorem intended_sigCatOffset : intendedTables.sigCatOffset = ⟨0, 15, 29, 44, 47, 0⟩ := rfl
@[simp] theorem intended_absCatOffset : intendedTables.absCatOffset = ⟨0, 10, 20, 30, 39, 0⟩ := rfl

/-- An 8x8 map whose entries are at most `n` reads at most `n` everywhere. -/
theorem mapEntry_le {m : Vector Nat 63} {n : Nat} (h : ∀ i : Fin 63, mapEntry m i.val ≤ n) (idx : Nat) :
    mapEntry m idx ≤ n := by
  by_cases hi : idx < 63
  · exact h ⟨idx, hi⟩
  · unfold mapEntry
    rw [List.getD_eq_getElem?_getD, List.getElem?_eq_none (by simpa using hi)]
    simp

/-- The intended SIG8x8_FRAME lies in 0 to 14 (R106). -/
theorem intended_sig8x8_le (idx : Nat) : mapEntry intendedTables.sig8x8 idx ≤ 14 := mapEntry_le (by decide) idx

/-- The intended LAST8x8 lies in 0 to 8 (R106). -/
theorem intended_last8x8_le (idx : Nat) : mapEntry intendedTables.last8x8 idx ≤ 8 := mapEntry_le (by decide) idx

/-- What a selection can be: a context-coded bin, a bypass bin with index 0, or a terminate bin with its table's index
(R102, R103). -/
theorem select_cases {t : ConstTables} {se : SyntaxElement} {cat : BlockCat} {idx : Nat} {a b x c : Bool} {eq1 gt1 : Nat}
    {sel : Selection} (h : select t se cat idx a b x c eq1 gt1 = some sel) :
    sel = ⟨.bypass, 0⟩ ∨ sel = ⟨.terminate, t.ctxIdxOffset.endOfSlice⟩ ∨
      ∃ offset catOffset, ctxIdxOffset t se cat = some offset ∧ ctxBlockCatOffset t se cat = some catOffset ∧
        binKind se idx = .context ∧
        sel = ⟨.context, offset + catOffset + ctxIdxInc t se cat idx a b x c eq1 gt1⟩ := by
  unfold select at h
  cases hc : ctxBlockCatOffset t se cat with
  | none => simp [hc] at h
  | some catOffset =>
    cases hk : binKind se idx with
    | bypass => simp [hc, hk] at h; exact .inl h.symm
    | terminate => simp [hc, hk] at h; exact .inr (.inl h.symm)
    | context =>
      cases ho : ctxIdxOffset t se cat with
      | none => simp [hc, hk, ho] at h
      | some offset => simp [hc, hk, ho] at h; exact .inr (.inr ⟨offset, catOffset, rfl, rfl, rfl, h.symm⟩)

/-- `selectable` says that the index lies in one of the ranges R107 marks as selectable. -/
theorem selectable_iff (ci : Nat) :
    selectable ci = true ↔
      (3 ≤ ci ∧ ci ≤ 10) ∨ (60 ≤ ci ∧ ci ≤ 69) ∨ (73 ≤ ci ∧ ci ≤ 275) ∨ (399 ≤ ci ∧ ci ≤ 435) ∨
        (1012 ≤ ci ∧ ci ≤ 1015) := by
  simp [selectable, ctxAllocation]
  omega

/-- With the intended tables CSEL reports a context-coded bin only with an index that R107 marks as selectable. -/
theorem intended_selects {se : SyntaxElement} {cat : BlockCat} {idx : Nat} {a b x c : Bool} {eq1 gt1 : Nat}
    {sel : Selection} (hidx : idxOutOfRange se cat idx c = false)
    (h : select intendedTables se cat idx a b x c eq1 gt1 = some sel) (hk : sel.kind = .context) :
    selectable sel.ctxIdx = true := by
  rw [selectable_iff]
  rcases select_cases h with rfl | rfl | ⟨offset, co, ho, hc, hb, rfl⟩
  · simp at hk
  · simp at hk
  · have ha : a.toNat ≤ 1 := by cases a <;> simp
    have hbb : b.toNat ≤ 1 := by cases b <;> simp
    have hs := intended_sig8x8_le idx
    have hl := intended_last8x8_le idx
    cases se <;> simp only [ctxIdxOffset, ctxBlockCatOffset, Option.some.injEq, reduceCtorEq, intended_ctxIdxOffset,
        intended_cbfCatOffset, intended_sigCatOffset, intended_absCatOffset] at ho hc <;>
      simp only [idxOutOfRange, idxMax, decide_eq_false_iff_not, Nat.not_lt, gt_iff_lt] at hidx <;>
      simp only [ctxIdxInc] <;> try omega
    case endOfSlice => simp [binKind] at hb
    case mbTypeI =>
      subst ho; subst hc
      simp only [mbTypeInc]
      split <;> (try split) <;> omega
    case chromaPred => split <;> omega
    case cbpChroma => split <;> omega
    case mbQpDelta => split <;> (try split) <;> omega
    case cbf => cases cat <;> simp [catOffset] at ho hc <;> omega
    case sig =>
      have hm : sigInc intendedTables.sig8x8 .chromaDC idx c ≤ 2 := Nat.min_le_right _ _
      cases cat <;> simp [catOffset] at ho hc <;> simp [sigIdxMax] at hidx <;>
        first
        | omega
        | (simp only [sigInc]; omega)
    case last =>
      have hm : sigInc intendedTables.last8x8 .chromaDC idx c ≤ 2 := Nat.min_le_right _ _
      cases cat <;> simp [catOffset] at ho hc <;> simp [sigIdxMax] at hidx <;>
        first
        | omega
        | (simp only [sigInc]; omega)
    case absLevel =>
      have : absLevelInc cat idx eq1 gt1 ≤ 9 - (if cat = .chromaDC then 1 else 0) := by
        unfold absLevelInc; split
        · split <;> split <;> omega
        · split <;> omega
      have h0 : absLevelInc cat idx eq1 gt1 ≤ 9 := by split at this <;> omega
      cases cat <;> simp [catOffset] at ho hc <;> omega

/-- The intended tables are checked. -/
theorem intendedTables_checked : CheckedTables intendedTables where
  range := intended_range
  rangeBelow63 := intended_rangeBelow63
  lps _ hp := (intended_lps hp).trans (by decide)
  mps _ hp := (intended_mps hp).2
  selects _ _ _ _ _ _ _ _ _ _ := intended_selects
  terminate := rfl

/-- Every index that CSEL reports with checked tables fits SELCTX (R21, R8). -/
theorem select_lt {t : ConstTables} (ht : CheckedTables t) {se : SyntaxElement} {cat : BlockCat} {idx : Nat}
    {a b x c : Bool} {eq1 gt1 : Nat} {sel : Selection} (hidx : idxOutOfRange se cat idx c = false)
    (h : select t se cat idx a b x c eq1 gt1 = some sel) : sel.ctxIdx < 1024 := by
  rcases select_cases h with rfl | rfl | ⟨offset, catOffset, -, -, -, hs⟩
  · simp
  · simp [ht.terminate]
  · have := ht.selects _ _ _ _ _ _ _ _ _ _ hidx h (by rw [hs])
    rw [selectable_iff] at this
    omega

/-- The unit selects something for every admitted element in a supported category (R102). -/
theorem select_isSome (t : ConstTables) {se : SyntaxElement} {cat : BlockCat} (idx : Nat) (a b x c : Bool) (eq1 gt1 : Nat)
    (hr : se.isReserved = false) (hu : se.isUnsupported = false)
    (hc : (se.isResidual && cat.isUnsupported) = false) : (select t se cat idx a b x c eq1 gt1).isSome = true := by
  have hcat : (ctxBlockCatOffset t se cat).isSome = true := by
    cases se <;> simp_all [SyntaxElement.isReserved, SyntaxElement.isUnsupported, SyntaxElement.isResidual,
      ctxBlockCatOffset] <;>
      (cases cat <;> simp_all [BlockCat.isUnsupported, catOffset])
  obtain ⟨k, hk⟩ := Option.isSome_iff_exists.mp hcat
  unfold select
  rw [hk]
  cases hb : binKind se idx with
  | bypass => rfl
  | terminate => rfl
  | context =>
    have : (ctxIdxOffset t se cat).isSome = true := by
      cases se <;> simp_all [SyntaxElement.isReserved, SyntaxElement.isUnsupported, ctxIdxOffset, binKind]
    obtain ⟨o, ho⟩ := Option.isSome_iff_exists.mp this
    simp [ho]

/-- The end of CSEL where the index fits SELCTX (R102). -/
theorem finishSelect_fits {sel : Selection} (h : sel.ctxIdx < 1024) (s : State) :
    finishSelect sel s =
      .done (complete (selectionWord sel)
        { s with selctx := BitVec.ofNat 10 sel.ctxIdx, selv := sel.kind == .context }) := if_pos h

/-- What the end of CSEL can do when it completes (R102, R8). -/
theorem finishSelect_done {sel : Selection} {s t : State} (h : finishSelect sel s = .done t) :
    sel.ctxIdx < 1024 ∧
    t = complete (selectionWord sel)
      { s with selctx := BitVec.ofNat 10 sel.ctxIdx, selv := sel.kind == .context } := by
  unfold finishSelect at h
  split at h
  · next hf => exact ⟨hf, by simpa using h.symm⟩
  · simp at h

/-- The end of CSEL raises nothing. -/
theorem finishSelect_ne_raise {sel : Selection} {s : State} {e : ErrCode} : finishSelect sel s ≠ .raise e := by
  unfold finishSelect; split <;> simp

/-- CSEL's range check is R103's, in numbers. -/
theorem idxOutOfRange_iff {se : SyntaxElement} (hse : se.wellFormed = true) (cat : BlockCat) (idx : Nat) (c : Bool) :
    idxOutOfRange se cat idx c = true ↔ IdxAboveR103 se.code cat.code idx c.toNat := by
  cases se with
  | reserved n =>
    have h : n.toNat = 14 ∨ n.toNat = 15 ∨ 26 ≤ n.toNat := by
      revert hse; revert n; decide
    simp [idxOutOfRange, idxMax, IdxAboveR103, SyntaxElement.code]
    omega
  | sig => cases cat <;> cases c <;> simp [idxOutOfRange, idxMax, sigIdxMax, numC8x8, IdxAboveR103, SyntaxElement.code, BlockCat.code]
  | last => cases cat <;> cases c <;> simp [idxOutOfRange, idxMax, sigIdxMax, numC8x8, IdxAboveR103, SyntaxElement.code, BlockCat.code]
  | _ => simp [idxOutOfRange, idxMax, IdxAboveR103, SyntaxElement.code]

/-- A level counter counts to 127 and stays there (R22, R124). -/
theorem countUp_toNat (n : BitVec 7) : (countUp n).toNat = min 127 (n.toNat + 1) := by
  simp only [countUp, BitVec.toNat_ofNat]
  omega

/-- CSEL's result word holds KIND above an index that fits 10 bits (R70). -/
theorem selectionWord_toNat {sel : Selection} (h : sel.ctxIdx < 1024) :
    (selectionWord sel).toNat = sel.kind.code * 4096 + sel.ctxIdx := by
  obtain ⟨kind, ci⟩ := sel
  simp only at h
  have hd : ∀ k : Nat, k < 4 → ((BitVec.ofNat 32 k <<< 12) ||| BitVec.ofNat 32 ci).toNat = k * 4096 + ci := by
    intro k hk
    simp only [BitVec.toNat_or, BitVec.toNat_shiftLeft, BitVec.toNat_ofNat]
    rw [Nat.mod_eq_of_lt (show k < 2 ^ 32 by omega), Nat.mod_eq_of_lt (show ci < 2 ^ 32 by omega),
      Nat.shiftLeft_eq, Nat.mod_eq_of_lt (show k * 2 ^ 12 < 2 ^ 32 by omega)]
    rw [← Nat.shiftLeft_eq, ← Nat.shiftLeft_add_eq_or_of_lt (show ci < 2 ^ 12 by omega), Nat.shiftLeft_eq]
  cases kind
  · exact hd 0 (by omega)
  · exact hd 1 (by omega)
  · exact hd 2 (by omega)

end Sys2Proof.Machine
end

