-- ==== Sys2Proof/Laws/PerInstr.lean ====
section
/-! SUPPORT. What is said of every instruction, one lemma for each constructor: the word of a well-formed command has its
opcode in bits 31:28 and its operand bits in bits 27:0 (30_encoding R54 to R60). -/

namespace Sys2Proof.Laws.EncodeLayout

open Sys2Proof

/-- The opcode and the operand bits stand in the word unmixed. -/
def Statement (i : Instr) : Prop :=
  i.wellFormed = true →
    bits (encode i) 31 28 = i.opcode.number ∧ bits (encode i) 27 0 = i.operandBits

/-- Operand bits below 2^28 leave the opcode field alone. -/
theorem of_operandBits_lt {i : Instr} (h : i.operandBits < 2 ^ 28) :
    bits (encode i) 31 28 = i.opcode.number ∧ bits (encode i) 27 0 = i.operandBits := by
  have hop : i.opcode.number ≤ 10 := by cases i.opcode <;> decide
  simp only [bits, encode, BitVec.toNat_ofNat]
  omega

/-- A well-formed slice type has a 3-bit code. -/
theorem sliceType_code_lt (slt : SliceType) : slt.code < 8 := by
  cases slt with
  | reserved c => exact c.isLt
  | _ => decide

/-- A block category has a 3-bit code. -/
theorem blockCat_code_lt (cat : BlockCat) : cat.code < 8 := by cases cat <;> decide

/-- A syntax element has a 5-bit code. -/
theorem syntaxElement_code_lt (se : SyntaxElement) : se.code < 32 := by
  cases se with
  | reserved c => exact c.isLt
  | _ => decide

/-- A two's-complement field has 8 bits. -/
theorem field8_lt (v : Int) : field8 v < 256 := by unfold field8; omega

theorem cinit (slt : SliceType) (idc qbd : Nat) (sqd piq : Int) : Statement (.cinit slt idc qbd sqd piq) := by
  intro h
  simp only [Instr.wellFormed, Bool.and_eq_true, decide_eq_true_eq] at h
  have h1 := sliceType_code_lt slt
  have h2 := field8_lt sqd
  have h3 := field8_lt piq
  apply of_operandBits_lt
  simp only [Instr.operandBits]
  omega

theorem einit : Statement .einit := fun _ => of_operandBits_lt (by decide)

theorem dec (k : CtxIdx) : Statement (.dec k) := fun _ => of_operandBits_lt (by simp only [Instr.operandBits]; omega)

theorem decS : Statement .decS := fun _ => of_operandBits_lt (by decide)

theorem byp : Statement .byp := fun _ => of_operandBits_lt (by decide)

theorem trm : Statement .trm := fun _ => of_operandBits_lt (by decide)

theorem csel (se : SyntaxElement) (cat : BlockCat) (idx : Nat) (a b x c : Bool) :
    Statement (.csel se cat idx a b x c) := by
  intro h
  simp only [Instr.wellFormed, Bool.and_eq_true, decide_eq_true_eq] at h
  have h1 := syntaxElement_code_lt se
  have h2 := blockCat_code_lt cat
  have h3 := Bool.toNat_lt a
  have h4 := Bool.toNat_lt b
  have h5 := Bool.toNat_lt x
  have h6 := Bool.toNat_lt c
  apply of_operandBits_lt
  simp only [Instr.operandBits]
  omega

theorem lvlrst : Statement .lvlrst := fun _ => of_operandBits_lt (by decide)

theorem lvlacc (g : LevelClass) : Statement (.lvlacc g) := fun _ => of_operandBits_lt (by cases g <;> decide)

theorem rdctx (k : CtxIdx) : Statement (.rdctx k) :=
  fun _ => of_operandBits_lt (by simp only [Instr.operandBits]; omega)

theorem rdeng : Statement .rdeng := fun _ => of_operandBits_lt (by decide)

end Sys2Proof.Laws.EncodeLayout
end

