-- ==== Sys2Proof/Laws/Encoding.lean ====
section
/-! SUPPORT. The fields of a command word and their codes: a field is read from the operand bits alone, and each code
goes round (30_encoding R54 to R63). -/

namespace Sys2Proof

/-- A field that lies in bits 27:0 is a field of the operand bits. -/
theorem bits_of_operand {w : Word} {n : Nat} (hw : bits w 27 0 = n) (hi lo v : Nat) (hl : hi ≤ 27)
    (h : n / 2 ^ lo % 2 ^ (hi + 1 - lo) = v) : bits w hi lo = v := by
  rw [← h, ← hw]
  unfold bits
  apply Nat.eq_of_testBit_eq
  intro j
  simp only [Nat.testBit_mod_two_pow, Nat.testBit_div_two_pow]
  by_cases hj : j < hi + 1 - lo
  · have h1 : j + lo < 27 + 1 - 0 := by omega
    simp [hj, h1]
  · simp [hj]

/-- A field of n bits is below 2^n. -/
theorem bits_lt (w : Word) (hi lo : Nat) : bits w hi lo < 2 ^ (hi + 1 - lo) := Nat.mod_lt _ (by positivity)

/-- An opcode's number is the one it is read from (R54). -/
theorem opcode_number_of {n : Nat} {o : Opcode} (h : opcodeOf n = some o) : o.number = n := by
  unfold opcodeOf at h
  split at h <;> simp_all <;> subst h <;> rfl

/-- An opcode is read from its number (R54). -/
theorem opcodeOf_number (o : Opcode) : opcodeOf o.number = some o := by cases o <;> rfl

/-- A well-formed slice type is read from its code (R56). -/
theorem sliceTypeOf_code (x : SliceType) (h : x.wellFormed = true) : sliceTypeOf x.code = x := by
  cases x with
  | reserved c => revert c; decide
  | _ => rfl

/-- A 3-bit code is a well-formed slice type's (R56). -/
theorem code_sliceTypeOf (n : Nat) (h : n < 8) :
    (sliceTypeOf n).code = n ∧ (sliceTypeOf n).wellFormed = true := by
  interval_cases n <;> decide

/-- A block category is read from its code (R63). -/
theorem blockCatOf_code (x : BlockCat) : blockCatOf x.code = x := by cases x <;> rfl

/-- A 3-bit code is a block category's (R63). -/
theorem code_blockCatOf (n : Nat) (h : n < 8) : (blockCatOf n).code = n := by interval_cases n <;> decide

/-- A well-formed syntax element is read from its code (R62). -/
theorem syntaxElementOf_code (x : SyntaxElement) (h : x.wellFormed = true) : syntaxElementOf x.code = x := by
  cases x with
  | reserved c =>
    have hall : ∀ c : BitVec 5, (SyntaxElement.reserved c).wellFormed = true →
        syntaxElementOf (SyntaxElement.reserved c).code = .reserved c := by decide +kernel
    exact hall c h
  | _ => rfl

/-- A 5-bit code is a well-formed syntax element's (R62). -/
theorem code_syntaxElementOf (n : Nat) (h : n < 32) :
    (syntaxElementOf n).code = n ∧ (syntaxElementOf n).wellFormed = true := by
  interval_cases n <;> decide

/-- A number that fits 8 bits in two's complement is read from its field (R61). -/
theorem signed8_field8 (v : Int) (h : fitsSigned8 v = true) : signed8 (field8 v) = v := by
  simp only [fitsSigned8, Bool.and_eq_true, decide_eq_true_eq] at h
  unfold signed8 field8
  omega

/-- An 8-bit field holds a number that fits it (R61). -/
theorem field8_signed8 (n : Nat) (h : n < 256) : field8 (signed8 n) = n ∧ fitsSigned8 (signed8 n) = true := by
  have hall : ∀ n : Fin 256, field8 (signed8 n) = n.val ∧ fitsSigned8 (signed8 n) = true := by decide +kernel
  exact hall ⟨n, h⟩

end Sys2Proof
end

