-- ==== Sys2Proof/Laws/Exec.lean ====
section
/-! SUPPORT. One inversion lemma for each command: if it answers a next state, one of the cases of its rule holds. The
provers cite these instead of unfolding a meaning. -/

namespace Sys2Proof.Machine

open Sys2Proof

/-- How a command that raised `e` left the state, or that it was refused: the two ways in which a command has no effect
of its own (R146, R147). -/
theorem takeError_or_same {s t : State} {e : ErrCode} (h : t = takeError e s) :
    (s.err = .none ∧ t = { s with err := e }) ∨ (s.err ≠ .none ∧ t = s) := by
  by_cases he : s.err = .none
  · exact .inl ⟨he, by rw [h, takeError_of_clear e he]⟩
  · exact .inr ⟨he, by rw [h, takeError_of_latched e he]⟩

/-! ## The ends of the commands' rules -/

/-- CINIT's rule completes only for an I slice with cabac_init_idc other than 3, and then it does what R76 says. -/
theorem cinitBody_done {slt : SliceType} {idc qbd : Nat} {sqd piq : Int} {s t : State}
    (h : cinitBody slt idc qbd sqd piq s = .done t) :
    slt = .i ∧ idc ≠ 3 ∧
    t = complete (BitVec.ofInt 32 (sliceQPY qbd sqd piq))
      (returnFromError
        { s with
          ctx := s.config.ctxInitMN.map (initCtx (clip 0 51 (sliceQPY qbd sqd piq))), ctxv := true, eng := .uninit }) := by
  unfold cinitBody at h
  cases slt with
  | i =>
    simp only at h
    split at h
    · simp at h
    · next hi => exact ⟨rfl, hi, by simpa using h.symm⟩
  | reserved c => simp at h
  | p => simp only at h; split at h <;> simp at h
  | b => simp only at h; split at h <;> simp at h
  | sp => simp only at h; split at h <;> simp at h
  | si => simp only at h; split at h <;> simp at h

/-- CINIT raises three errors at most (R76). -/
theorem cinitBody_raise {slt : SliceType} {idc qbd : Nat} {sqd piq : Int} {s : State} {e : ErrCode}
    (h : cinitBody slt idc qbd sqd piq s = .raise e) :
    e = .illegalOperand ∨ e = .structural ∨ e = .unsupported := by
  unfold cinitBody at h
  cases slt <;> simp only at h <;> (try split at h) <;> simp_all

/-- CINIT stores nothing that does not fit. -/
theorem cinitBody_ne_misfit {slt : SliceType} {idc qbd : Nat} {sqd piq : Int} {s : State} :
    cinitBody slt idc qbd sqd piq s ≠ .misfit := by
  unfold cinitBody
  cases slt <;> simp only <;> (try split) <;> simp

/-- DEC's rule completes only with its two conditions, and then a renormalised decision is stored (R83). -/
theorem decBody_done {ci : CtxIdx} {s t : State} (h : decBody ci s = .done t) :
    s.ctxv = true ∧ s.eng = .active ∧
    ∃ v,
      renorm s.buf
        ⟨(decodeDecision s.config.tables (s.ctx.get ci) s.codIRange.toNat s.codIOffset.toNat).range,
          (decodeDecision s.config.tables (s.ctx.get ci) s.codIRange.toNat s.codIOffset.toNat).offset, s.cursor⟩ = some v ∧
      finishEngine v (decodeDecision s.config.tables (s.ctx.get ci) s.codIRange.toNat s.codIOffset.toNat).bin
        { s with
          ctx := s.ctx.set ci (decodeDecision s.config.tables (s.ctx.get ci) s.codIRange.toNat s.codIOffset.toNat).ctx } = .done t := by
  unfold decBody at h
  split at h
  · simp at h
  · next hg =>
    simp only [not_or, ne_eq, Bool.not_eq_false, not_not] at hg
    simp only at h
    split at h
    · simp at h
    · next v hv => exact ⟨hg.1, hg.2, v, hv, h⟩

/-- DEC raises two errors at most (R83). -/
theorem decBody_raise {ci : CtxIdx} {s : State} {e : ErrCode} (h : decBody ci s = .raise e) :
    (e = .notInit ∧ (s.ctxv = false ∨ s.eng ≠ .active)) ∨ (e = .exhausted ∧ s.ctxv = true ∧ s.eng = .active) := by
  unfold decBody at h
  split at h
  · next hg => exact .inl ⟨by simpa using h.symm, hg⟩
  · next hg =>
    simp only [not_or, ne_eq, Bool.not_eq_false, not_not] at hg
    simp only at h
    split at h
    · exact .inr ⟨by simpa using h.symm, hg⟩
    · exact absurd h finishEngine_ne_raise

/-- CSEL's rule completes only past its checks, and then it reports a selection (R102). -/
theorem cselBody_done {se : SyntaxElement} {cat : BlockCat} {idx : Nat} {a b x c : Bool} {s t : State}
    (h : cselBody se cat idx a b x c s = .done t) :
    se.isReserved = false ∧ idxOutOfRange se cat idx c = false ∧ se.isUnsupported = false ∧
    (se.isResidual && cat.isUnsupported) = false ∧
    ∃ sel, select s.config.tables se cat idx a b x c s.eq1cnt.toNat s.gt1cnt.toNat = some sel ∧ sel.ctxIdx < 1024 ∧
      t = complete (selectionWord sel)
        { s with selctx := BitVec.ofNat 10 sel.ctxIdx, selv := sel.kind == .context } := by
  unfold cselBody at h
  split at h
  · simp at h
  · next h1 =>
    split at h
    · simp at h
    · next h2 =>
      split at h
      · simp at h
      · next h3 =>
        split at h
        · simp at h
        · next h4 =>
          split at h
          · simp at h
          · next sel hsel =>
            exact ⟨by simpa using h1, by simpa using h2, by simpa using h3, by simpa using h4, sel, hsel,
              finishSelect_done h⟩

/-- CSEL raises two errors at most (R102). -/
theorem cselBody_raise {se : SyntaxElement} {cat : BlockCat} {idx : Nat} {a b x c : Bool} {s : State} {e : ErrCode}
    (h : cselBody se cat idx a b x c s = .raise e) : e = .illegalOperand ∨ e = .unsupported := by
  unfold cselBody at h
  repeat' split at h
  all_goals first
    | exact absurd h finishSelect_ne_raise
    | simp_all

/-- With checked tables CSEL stores nothing that does not fit. -/
theorem cselBody_ne_misfit {se : SyntaxElement} {cat : BlockCat} {idx : Nat} {a b x c : Bool} {s : State}
    (ht : CheckedTables s.config.tables) : cselBody se cat idx a b x c s ≠ .misfit := by
  unfold cselBody
  by_cases hi : idxOutOfRange se cat idx c = true
  · simp only [hi, if_true]
    repeat' split
    all_goals simp
  · repeat' split
    all_goals first
      | simp; done
      | next hsel => rw [finishSelect_fits (select_lt ht (by simpa using hi) hsel)]; simp

/-! ## The commands -/

/-- CINIT (R76): it completes, clearing ERR, or raises one of its three errors. -/
theorem execCinit_cases {slt : SliceType} {idc qbd : Nat} {sqd piq : Int} {s t : State}
    (h : execCinit slt idc qbd sqd piq s = .next t) :
    (slt = .i ∧ idc ≠ 3 ∧
      t = complete (BitVec.ofInt 32 (sliceQPY qbd sqd piq))
        (returnFromError
          { s with
            ctx := s.config.ctxInitMN.map (initCtx (clip 0 51 (sliceQPY qbd sqd piq))), ctxv := true,
            eng := .uninit })) ∨
    (∃ e, (e = .illegalOperand ∨ e = .structural ∨ e = .unsupported) ∧ t = takeError e s) := by
  rcases issue_cases h with ⟨-, he, -⟩ | ⟨-, hd | ⟨e, hr, ht⟩⟩
  · simp [Opcode.exempt] at he
  · exact .inl (cinitBody_done hd)
  · exact .inr ⟨e, cinitBody_raise hr, ht⟩

/-- EINIT (R77): refused, or out of bits, or a value above 509, or done. -/
theorem execEinit_cases {s t : State} (h : execEinit s = .next t) :
    (s.err ≠ .none ∧ t = s) ∨
    (s.err = .none ∧
      ((readBits s.buf 9 s.cursor = none ∧ t = takeError .exhausted s) ∨
        ∃ v, readBits s.buf 9 s.cursor = some v ∧
          ((510 ≤ v ∧ t = takeError .offsetInit s) ∨
            (v < 510 ∧
              t = complete (BitVec.ofNat 32 v)
                { s with codIRange := 510, codIOffset := BitVec.ofNat 9 v, eng := .active,
                         cursor := s.cursor + 9 })))) := by
  rcases issue_cases h with ⟨he, -, ht⟩ | ⟨hg, hb⟩
  · exact .inl ⟨he, ht⟩
  · have hg : s.err = .none := hg.resolve_right (by simp [Opcode.exempt])
    refine .inr ⟨hg, ?_⟩
    cases hv : readBits s.buf 9 s.cursor with
    | none => simp only [hv] at hb; simp at hb; exact .inl ⟨rfl, hb⟩
    | some v =>
      simp only [hv] at hb
      by_cases h510 : v ≥ 510
      · simp [h510] at hb; exact .inr ⟨v, rfl, .inl ⟨h510, hb⟩⟩
      · simp [h510] at hb; exact .inr ⟨v, rfl, .inr ⟨by omega, hb.symm⟩⟩

/-- DEC and DEC.S alike, on the context `ci` (R83): refused, without their conditions, out of bits, or done. -/
theorem issue_decBody_cases {ci : CtxIdx} {s t : State} (h : issue .dec s (decBody ci s) = .next t) :
    (s.err ≠ .none ∧ t = s) ∨
    (s.err = .none ∧
      (((s.ctxv = false ∨ s.eng ≠ .active) ∧ t = takeError .notInit s) ∨
        (s.ctxv = true ∧ s.eng = .active ∧ t = takeError .exhausted s) ∨
        decBody ci s = .done t)) := by
  rcases issue_cases h with ⟨he, -, ht⟩ | ⟨hg, hd | ⟨e, hr, ht⟩⟩
  · exact .inl ⟨he, ht⟩
  · exact .inr ⟨hg.resolve_right (by simp [Opcode.exempt]), .inr (.inr hd)⟩
  · refine .inr ⟨hg.resolve_right (by simp [Opcode.exempt]), ?_⟩
    rcases decBody_raise hr with ⟨rfl, hc⟩ | ⟨rfl, hc, ha⟩
    · exact .inl ⟨hc, ht⟩
    · exact .inr (.inl ⟨hc, ha, ht⟩)

/-- DEC.S with SELV = 1 is DEC on SELCTX (R83). -/
theorem execDecS_of_selv {s : State} (h : s.selv = true) : execDecS s = execDec s.selctx s := by
  simp [execDecS, execDec, h]

/-- DEC.S with SELV = 0 raises E_NOT_INIT, unless it is refused (R83). -/
theorem execDecS_of_not_selv {s : State} (h : s.selv = false) :
    execDecS s = if s.err = .none then .next (takeError .notInit s) else .next s := by
  by_cases he : s.err = .none
  · simp [execDecS, h, he, issue_runs]
  · rw [if_neg he]
    exact issue_refused _ he rfl

/-- BYP (R86): refused, without its condition, out of bits, or one bit decoded. -/
theorem execByp_cases {s t : State} (h : execByp s = .next t) :
    (s.err ≠ .none ∧ t = s) ∨
    (s.err = .none ∧
      ((s.eng ≠ .active ∧ t = takeError .notInit s) ∨
        (s.eng = .active ∧ readBit s.buf s.cursor = none ∧ t = takeError .exhausted s) ∨
        (s.eng = .active ∧ ∃ b, readBit s.buf s.cursor = some b ∧
          (((s.codIRange.toNat : Int) ≤ 2 * s.codIOffset.toNat + b.toInt ∧
              finishEngine
                ⟨s.codIRange.toNat, 2 * s.codIOffset.toNat + b.toInt - s.codIRange.toNat, s.cursor + 1⟩ true s =
                .done t) ∨
            (2 * s.codIOffset.toNat + b.toInt < (s.codIRange.toNat : Int) ∧
              finishEngine ⟨s.codIRange.toNat, 2 * s.codIOffset.toNat + b.toInt, s.cursor + 1⟩ false s =
                .done t))))) := by
  rcases issue_cases h with ⟨he, -, ht⟩ | ⟨hg, hb⟩
  · exact .inl ⟨he, ht⟩
  · have hg : s.err = .none := hg.resolve_right (by simp [Opcode.exempt])
    refine .inr ⟨hg, ?_⟩
    by_cases ha : s.eng = .active
    · cases hv : readBit s.buf s.cursor with
      | none => simp [ha, hv] at hb; exact .inr (.inl ⟨ha, rfl, hb⟩)
      | some b =>
        simp only [ne_eq, ha, not_true_eq_false, if_false, hv] at hb
        refine .inr (.inr ⟨ha, b, rfl, ?_⟩)
        split at hb
        · next hc => exact .inl ⟨hc, hb.resolve_right fun ⟨e, he, _⟩ => finishEngine_ne_raise he⟩
        · next hc => exact .inr ⟨by omega, hb.resolve_right fun ⟨e, he, _⟩ => finishEngine_ne_raise he⟩
    · simp [ha] at hb; exact .inl ⟨ha, hb⟩

/-- TRM (R87): refused, without its condition, a terminating 1, out of bits, or a 0 with renormalisation. -/
theorem execTrm_cases {s t : State} (h : execTrm s = .next t) :
    (s.err ≠ .none ∧ t = s) ∨
    (s.err = .none ∧
      ((s.eng ≠ .active ∧ t = takeError .notInit s) ∨
        (s.eng = .active ∧ (s.codIRange.toNat : Int) - 2 ≤ s.codIOffset.toNat ∧
          finishEngine ⟨(s.codIRange.toNat : Int) - 2, s.codIOffset.toNat, s.cursor⟩ true { s with eng := .terminated } =
            .done t) ∨
        (s.eng = .active ∧ (s.codIOffset.toNat : Int) < s.codIRange.toNat - 2 ∧ t = takeError .exhausted s) ∨
        (s.eng = .active ∧ (s.codIOffset.toNat : Int) < s.codIRange.toNat - 2 ∧
          ∃ v, renorm s.buf ⟨(s.codIRange.toNat : Int) - 2, s.codIOffset.toNat, s.cursor⟩ = some v ∧
            finishEngine v false s = .done t))) := by
  rcases issue_cases h with ⟨he, -, ht⟩ | ⟨hg, hb⟩
  · exact .inl ⟨he, ht⟩
  · have hg : s.err = .none := hg.resolve_right (by simp [Opcode.exempt])
    refine .inr ⟨hg, ?_⟩
    by_cases ha : s.eng = .active
    · simp only [ne_eq, ha, not_true_eq_false, if_false] at hb
      split at hb
      · next hc =>
        exact .inr (.inl ⟨ha, hc, hb.resolve_right fun ⟨e, he, _⟩ => finishEngine_ne_raise he⟩)
      · next hc =>
        cases hv : renorm s.buf ⟨(s.codIRange.toNat : Int) - 2, s.codIOffset.toNat, s.cursor⟩ with
        | none => simp [hv] at hb; exact .inr (.inr (.inl ⟨ha, by omega, hb⟩))
        | some v =>
          simp only [hv] at hb
          exact .inr (.inr (.inr ⟨ha, by omega, v, rfl, hb.resolve_right fun ⟨e, he, _⟩ => finishEngine_ne_raise he⟩))
    · simp [ha] at hb; exact .inl ⟨ha, hb⟩

/-- CSEL (R102): refused, an error of its checks, or a selection. -/
theorem execCsel_cases {se : SyntaxElement} {cat : BlockCat} {idx : Nat} {a b x c : Bool} {s t : State}
    (h : execCsel se cat idx a b x c s = .next t) :
    (s.err ≠ .none ∧ t = s) ∨
    (s.err = .none ∧
      ((∃ e, (e = .illegalOperand ∨ e = .unsupported) ∧ t = takeError e s) ∨
        (idxOutOfRange se cat idx c = false ∧
          ∃ sel, select s.config.tables se cat idx a b x c s.eq1cnt.toNat s.gt1cnt.toNat = some sel ∧ sel.ctxIdx < 1024 ∧
            t = complete (selectionWord sel)
              { s with selctx := BitVec.ofNat 10 sel.ctxIdx, selv := sel.kind == .context }))) := by
  rcases issue_cases h with ⟨he, -, ht⟩ | ⟨hg, hd | ⟨e, hr, ht⟩⟩
  · exact .inl ⟨he, ht⟩
  · obtain ⟨-, hi, -, -, hs⟩ := cselBody_done hd
    exact .inr ⟨hg.resolve_right (by simp [Opcode.exempt]), .inr ⟨hi, hs⟩⟩
  · exact .inr ⟨hg.resolve_right (by simp [Opcode.exempt]), .inl ⟨e, cselBody_raise hr, ht⟩⟩

/-- LVLRST (R123): refused, or both counters cleared. -/
theorem execLvlrst_cases {s t : State} (h : execLvlrst s = .next t) :
    (s.err ≠ .none ∧ t = s) ∨ (s.err = .none ∧ t = complete 0 { s with eq1cnt := 0, gt1cnt := 0 }) := by
  rcases issue_cases h with ⟨he, -, ht⟩ | ⟨hg, hd | ⟨e, hr, -⟩⟩
  · exact .inl ⟨he, ht⟩
  · exact .inr ⟨hg.resolve_right (by simp [Opcode.exempt]), by simpa using hd.symm⟩
  · simp at hr

/-- LVLACC (R124): refused, or one counter counted up. -/
theorem execLvlacc_cases {g : LevelClass} {s t : State} (h : execLvlacc g s = .next t) :
    (s.err ≠ .none ∧ t = s) ∨
    (s.err = .none ∧
      ((g = .eq1 ∧
          t = complete (countersWord (countUp s.eq1cnt) s.gt1cnt) { s with eq1cnt := countUp s.eq1cnt }) ∨
        (g = .gt1 ∧
          t = complete (countersWord s.eq1cnt (countUp s.gt1cnt)) { s with gt1cnt := countUp s.gt1cnt }))) := by
  rcases issue_cases h with ⟨he, -, ht⟩ | ⟨hg, hd | ⟨e, hr, -⟩⟩
  · exact .inl ⟨he, ht⟩
  · refine .inr ⟨hg.resolve_right (by simp [Opcode.exempt]), ?_⟩
    cases g
    · exact .inl ⟨rfl, by simpa using hd.symm⟩
    · exact .inr ⟨rfl, by simpa using hd.symm⟩
  · cases g <;> simp at hr

/-- RDCTX (R141): never refused; E_NOT_INIT, or RESULT written. -/
theorem execRdctx_cases {k : CtxIdx} {s t : State} (h : execRdctx k s = .next t) :
    (s.ctxv = false ∧ t = takeError .notInit s) ∨ (s.ctxv = true ∧ t = complete (ctxWord (s.ctx.get k)) s) := by
  rcases issue_cases h with ⟨-, he, -⟩ | ⟨-, hb⟩
  · simp [Opcode.exempt] at he
  · cases hc : s.ctxv with
    | false => simp [hc] at hb; exact .inl ⟨rfl, hb⟩
    | true => simp [hc] at hb; exact .inr ⟨rfl, hb.symm⟩

/-- RDENG (R142): never refused; E_NOT_INIT, or RESULT written. -/
theorem execRdeng_cases {s t : State} (h : execRdeng s = .next t) :
    (s.eng = .uninit ∧ t = takeError .notInit s) ∨ (s.eng ≠ .uninit ∧ t = complete (engineWord s) s) := by
  rcases issue_cases h with ⟨-, he, -⟩ | ⟨-, hb⟩
  · simp [Opcode.exempt] at he
  · by_cases hu : s.eng = .uninit
    · simp [hu] at hb; exact .inl ⟨hu, hb⟩
    · simp [hu] at hb; exact .inr ⟨hu, hb.symm⟩

end Sys2Proof.Machine
end

