-- ==== Sys2Proof/Laws/Outcome.lean ====
section
/-! SUPPORT. What any command can do when it answers a next state, in one lemma: nothing, latch one error, or complete.
Every claim about all commands is a case analysis over it. -/

namespace Sys2Proof.Machine

open Sys2Proof

/-- The end of a completed decoding command: its values fit, and the registers, CURSOR and RESULT are written. -/
def Finishes (v : EngineVals) (bin : Bool) (s t : State) : Prop :=
  0 ≤ v.range ∧ v.range < 512 ∧ 0 ≤ v.offset ∧ v.offset < 512 ∧
  t = complete (binWord bin)
    { s with codIRange := BitVec.ofInt 9 v.range, codIOffset := BitVec.ofInt 9 v.offset, cursor := v.cursor }

/-- DecodeDecision on the context `ci` completes (R83). -/
def Decides (ci : CtxIdx) (s t : State) : Prop :=
  s.ctxv = true ∧ s.eng = .active ∧
  ∃ v,
    renorm s.buf
      ⟨(decodeDecision s.config.tables (s.ctx.get ci) s.codIRange.toNat s.codIOffset.toNat).range,
        (decodeDecision s.config.tables (s.ctx.get ci) s.codIRange.toNat s.codIOffset.toNat).offset, s.cursor⟩ = some v ∧
    Finishes v (decodeDecision s.config.tables (s.ctx.get ci) s.codIRange.toNat s.codIOffset.toNat).bin
      { s with
        ctx := s.ctx.set ci (decodeDecision s.config.tables (s.ctx.get ci) s.codIRange.toNat s.codIOffset.toNat).ctx } t

/-- What a command that completes leaves. -/
def Completes (i : Instr) (s t : State) : Prop :=
  match i with
  | .cinit slt idc qbd sqd piq =>
    slt = .i ∧ idc ≠ 3 ∧
    t = complete (BitVec.ofInt 32 (sliceQPY qbd sqd piq))
      (returnFromError
        { s with
          ctx := s.config.ctxInitMN.map (initCtx (clip 0 51 (sliceQPY qbd sqd piq))), ctxv := true, eng := .uninit })
  | .einit =>
    s.err = .none ∧ ∃ v, readBits s.buf 9 s.cursor = some v ∧ v < 510 ∧
      t = complete (BitVec.ofNat 32 v)
        { s with codIRange := 510, codIOffset := BitVec.ofNat 9 v, eng := .active, cursor := s.cursor + 9 }
  | .dec k => s.err = .none ∧ Decides k s t
  | .decS => s.err = .none ∧ s.selv = true ∧ Decides s.selctx s t
  | .byp =>
    s.err = .none ∧ s.eng = .active ∧ ∃ b, readBit s.buf s.cursor = some b ∧
      (((s.codIRange.toNat : Int) ≤ 2 * s.codIOffset.toNat + b.toInt ∧
          Finishes ⟨s.codIRange.toNat, 2 * s.codIOffset.toNat + b.toInt - s.codIRange.toNat, s.cursor + 1⟩ true s t) ∨
        (2 * s.codIOffset.toNat + b.toInt < (s.codIRange.toNat : Int) ∧
          Finishes ⟨s.codIRange.toNat, 2 * s.codIOffset.toNat + b.toInt, s.cursor + 1⟩ false s t))
  | .trm =>
    s.err = .none ∧ s.eng = .active ∧
      (((s.codIRange.toNat : Int) - 2 ≤ s.codIOffset.toNat ∧
          Finishes ⟨(s.codIRange.toNat : Int) - 2, s.codIOffset.toNat, s.cursor⟩ true { s with eng := .terminated } t) ∨
        ((s.codIOffset.toNat : Int) < s.codIRange.toNat - 2 ∧
          ∃ v, renorm s.buf ⟨(s.codIRange.toNat : Int) - 2, s.codIOffset.toNat, s.cursor⟩ = some v ∧
            Finishes v false s t))
  | .csel se cat idx a b x c =>
    s.err = .none ∧ idxOutOfRange se cat idx c = false ∧
      ∃ sel, select s.config.tables se cat idx a b x c s.eq1cnt.toNat s.gt1cnt.toNat = some sel ∧ sel.ctxIdx < 1024 ∧
        t = complete (selectionWord sel)
          { s with selctx := BitVec.ofNat 10 sel.ctxIdx, selv := sel.kind == .context }
  | .lvlrst => s.err = .none ∧ t = complete 0 { s with eq1cnt := 0, gt1cnt := 0 }
  | .lvlacc .eq1 =>
    s.err = .none ∧ t = complete (countersWord (countUp s.eq1cnt) s.gt1cnt) { s with eq1cnt := countUp s.eq1cnt }
  | .lvlacc .gt1 =>
    s.err = .none ∧ t = complete (countersWord s.eq1cnt (countUp s.gt1cnt)) { s with gt1cnt := countUp s.gt1cnt }
  | .rdctx k => s.ctxv = true ∧ t = complete (ctxWord (s.ctx.get k)) s
  | .rdeng => s.eng ≠ .uninit ∧ t = complete (engineWord s) s

/-- The errors a command's rule can raise (R163). -/
def Raises (i : Instr) (e : ErrCode) : Prop :=
  match i with
  | .cinit _ _ _ _ _ => e = .illegalOperand ∨ e = .structural ∨ e = .unsupported
  | .einit => e = .exhausted ∨ e = .offsetInit
  | .dec _ | .decS | .byp | .trm => e = .notInit ∨ e = .exhausted
  | .csel _ _ _ _ _ _ _ => e = .illegalOperand ∨ e = .unsupported
  | .lvlrst | .lvlacc _ => False
  | .rdctx _ | .rdeng => e = .notInit

/-- Every error is one. -/
theorem Raises.ne_none {i : Instr} {e : ErrCode} (h : Raises i e) : e ≠ .none := by
  rintro rfl
  cases i <;> simp [Raises] at h

/-- An error that is raised leaves the state as it was, or with its code latched (R146, R147). -/
theorem not_completed_of_takeError {i : Instr} {s t : State} {e : ErrCode} (hr : Raises i e) (ht : t = takeError e s) :
    (s.err ≠ .none ∧ t = s) ∨ (s.err = .none ∧ ∃ e, Raises i e ∧ t = { s with err := e }) ∨ Completes i s t := by
  rcases takeError_or_same ht with ⟨he, h⟩ | ⟨he, h⟩
  · exact .inr (.inl ⟨he, e, hr, h⟩)
  · exact .inl ⟨he, h⟩

/-- A decoding command's end, from its rule. -/
theorem finishes_of_done {v : EngineVals} {bin : Bool} {s t : State} (h : finishEngine v bin s = .done t) :
    Finishes v bin s t := finishEngine_done h

/-- A decision, from DEC's rule. -/
theorem decides_of_done {ci : CtxIdx} {s t : State} (h : decBody ci s = .done t) : Decides ci s t := by
  obtain ⟨hc, ha, v, hv, hd⟩ := decBody_done h
  exact ⟨hc, ha, v, hv, finishes_of_done hd⟩

/-- Whatever the command: it was refused or its error was not the first and nothing changed, or it latched one of its
errors, or it completed (R12, R146, R147). -/
theorem exec_cases {i : Instr} {s t : State} (h : exec i s = .next t) :
    (s.err ≠ .none ∧ t = s) ∨ (s.err = .none ∧ ∃ e, Raises i e ∧ t = { s with err := e }) ∨ Completes i s t := by
  cases i with
  | cinit slt idc qbd sqd piq =>
    rcases execCinit_cases h with h | ⟨e, he, h⟩
    · exact .inr (.inr h)
    · exact not_completed_of_takeError he h
  | einit =>
    rcases execEinit_cases h with h | ⟨he, ⟨-, h⟩ | ⟨v, hv, ⟨-, h⟩ | ⟨h5, h⟩⟩⟩
    · exact .inl h
    · exact not_completed_of_takeError (.inl rfl) h
    · exact not_completed_of_takeError (.inr rfl) h
    · exact .inr (.inr ⟨he, v, hv, h5, h⟩)
  | dec k =>
    rcases issue_decBody_cases h with h | ⟨he, ⟨-, h⟩ | ⟨-, -, h⟩ | h⟩
    · exact .inl h
    · exact not_completed_of_takeError (.inl rfl) h
    · exact not_completed_of_takeError (.inr rfl) h
    · exact .inr (.inr ⟨he, decides_of_done h⟩)
  | decS =>
    rcases Bool.eq_false_or_eq_true s.selv with hs | hs
    · have h : execDecS s = .next t := h
      rw [execDecS_of_selv hs] at h
      rcases issue_decBody_cases h with h | ⟨he, ⟨-, h⟩ | ⟨-, -, h⟩ | h⟩
      · exact .inl h
      · exact not_completed_of_takeError (.inl rfl) h
      · exact not_completed_of_takeError (.inr rfl) h
      · exact .inr (.inr ⟨he, hs, decides_of_done h⟩)
    · have h : execDecS s = .next t := h
      rw [execDecS_of_not_selv hs] at h
      split at h
      · exact not_completed_of_takeError (.inl rfl) (by simpa using h.symm)
      · next he => exact .inl ⟨he, by simpa using h.symm⟩
  | byp =>
    rcases execByp_cases h with h | ⟨he, ⟨-, h⟩ | ⟨-, -, h⟩ | ⟨ha, b, hb, h⟩⟩
    · exact .inl h
    · exact not_completed_of_takeError (.inl rfl) h
    · exact not_completed_of_takeError (.inr rfl) h
    · exact .inr (.inr ⟨he, ha, b, hb, h.imp (And.imp id finishes_of_done) (And.imp id finishes_of_done)⟩)
  | trm =>
    rcases execTrm_cases h with h | ⟨he, ⟨-, h⟩ | ⟨ha, hc, h⟩ | ⟨-, -, h⟩ | ⟨ha, hc, v, hv, h⟩⟩
    · exact .inl h
    · exact not_completed_of_takeError (.inl rfl) h
    · exact .inr (.inr ⟨he, ha, .inl ⟨hc, finishes_of_done h⟩⟩)
    · exact not_completed_of_takeError (.inr rfl) h
    · exact .inr (.inr ⟨he, ha, .inr ⟨hc, v, hv, finishes_of_done h⟩⟩)
  | csel se cat idx a b x c =>
    rcases execCsel_cases h with h | ⟨he, ⟨e, hr, h⟩ | h⟩
    · exact .inl h
    · exact not_completed_of_takeError hr h
    · exact .inr (.inr ⟨he, h⟩)
  | lvlrst => exact (execLvlrst_cases h).imp id .inr
  | lvlacc g =>
    rcases execLvlacc_cases h with h | ⟨he, ⟨rfl, ht⟩ | ⟨rfl, ht⟩⟩
    · exact .inl h
    · exact .inr (.inr ⟨he, ht⟩)
    · exact .inr (.inr ⟨he, ht⟩)
  | rdctx k =>
    rcases execRdctx_cases h with ⟨-, h⟩ | h
    · exact not_completed_of_takeError rfl h
    · exact .inr (.inr h)
  | rdeng =>
    rcases execRdeng_cases h with ⟨-, h⟩ | h
    · exact not_completed_of_takeError rfl h
    · exact .inr (.inr h)

/-- While ERR is not 0, every command but CINIT, RDCTX and RDENG is refused (R147). -/
theorem exec_refused {i : Instr} {s : State} (he : s.err ≠ .none) (hx : i.opcode.exempt = false) :
    exec i s = .next s := by
  cases i with
  | cinit _ _ _ _ _ => simp [Instr.opcode, Opcode.exempt] at hx
  | rdctx _ => simp [Instr.opcode, Opcode.exempt] at hx
  | rdeng => simp [Instr.opcode, Opcode.exempt] at hx
  | einit => exact issue_refused (op := .einit) _ he rfl
  | dec k => exact issue_refused (op := .dec) _ he rfl
  | decS => exact issue_refused (op := .dec) _ he rfl
  | byp => exact issue_refused (op := .byp) _ he rfl
  | trm => exact issue_refused (op := .trm) _ he rfl
  | csel se cat idx a b x c => exact issue_refused (op := .csel) _ he rfl
  | lvlrst => exact issue_refused (op := .lvlrst) (.done (complete 0 { s with eq1cnt := 0, gt1cnt := 0 })) he rfl
  | lvlacc g => unfold exec; unfold execLvlacc; exact issue_refused _ he rfl

/-- A command that is not CINIT, RDCTX or RDENG completes only while ERR is 0, and a completing command leaves ERR at 0
unless it only observes (R147). -/
theorem Completes.err {i : Instr} {s t : State} (h : Completes i s t) :
    (s.err = .none ∨ i.opcode.exempt = true) ∧ (t.err = s.err ∨ t.err = .none ∧ i.opcode = .cinit) := by
  rcases i with _ | _ | _ | _ | _ | _ | _ | _ | ⟨_ | _⟩ | _ | _ <;> simp only [Completes] at h
  case cinit => obtain ⟨-, -, rfl⟩ := h; simp [Instr.opcode, Opcode.exempt]
  case einit => obtain ⟨he, v, -, -, rfl⟩ := h; simp [he]
  case dec => obtain ⟨he, -, -, v, -, -, -, -, -, rfl⟩ := h; simp [he]
  case decS => obtain ⟨he, -, -, -, v, -, -, -, -, -, rfl⟩ := h; simp [he]
  case byp => obtain ⟨he, -, b, -, ⟨-, -, -, -, -, rfl⟩ | ⟨-, -, -, -, -, rfl⟩⟩ := h <;> simp [he]
  case trm => obtain ⟨he, -, ⟨-, -, -, -, -, rfl⟩ | ⟨-, v, -, -, -, -, -, rfl⟩⟩ := h <;> simp [he]
  case csel => obtain ⟨he, -, sel, -, -, rfl⟩ := h; simp [he]
  case lvlrst => obtain ⟨he, rfl⟩ := h; simp [he]
  case lvlacc.eq1 => obtain ⟨he, rfl⟩ := h; simp [he]
  case lvlacc.gt1 => obtain ⟨he, rfl⟩ := h; simp [he]
  case rdctx => obtain ⟨-, rfl⟩ := h; simp [Instr.opcode, Opcode.exempt]
  case rdeng => obtain ⟨-, rfl⟩ := h; simp [Instr.opcode, Opcode.exempt]

/-- A completed command has written RESULT, and the host's side is as it was (R12, R20). -/
theorem Completes.host {i : Instr} {s t : State} (h : Completes i s t) :
    t.resultv = true ∧ t.buf = s.buf ∧ t.config = s.config ∧ t.port = s.port ∧ t.readData = s.readData := by
  rcases i with _ | _ | _ | _ | _ | _ | _ | _ | ⟨_ | _⟩ | _ | _ <;> simp only [Completes] at h
  case cinit => obtain ⟨-, -, rfl⟩ := h; simp
  case einit => obtain ⟨-, v, -, -, rfl⟩ := h; simp
  case dec => obtain ⟨-, -, -, v, -, -, -, -, -, rfl⟩ := h; simp
  case decS => obtain ⟨-, -, -, -, v, -, -, -, -, -, rfl⟩ := h; simp
  case byp => obtain ⟨-, -, b, -, ⟨-, -, -, -, -, rfl⟩ | ⟨-, -, -, -, -, rfl⟩⟩ := h <;> simp
  case trm => obtain ⟨-, -, ⟨-, -, -, -, -, rfl⟩ | ⟨-, v, -, -, -, -, -, rfl⟩⟩ := h <;> simp
  case csel => obtain ⟨-, -, sel, -, -, rfl⟩ := h; simp
  case lvlrst => obtain ⟨-, rfl⟩ := h; simp
  case lvlacc.eq1 => obtain ⟨-, rfl⟩ := h; simp
  case lvlacc.gt1 => obtain ⟨-, rfl⟩ := h; simp
  case rdctx => obtain ⟨-, rfl⟩ := h; simp
  case rdeng => obtain ⟨-, rfl⟩ := h; simp

end Sys2Proof.Machine
end

