-- ==== Sys2Proof/Tests/Slice0.lean ====
section
/-! SUPPORT. Our own tests. Expected values come from spec/95_test_vectors.md (the vector's number is in the comment) or are
worked out by hand from the encoding tables; after them, one witness for each statement that has hypotheses. -/

namespace Sys2Proof.Tests

set_option Elab.async false

open Sys2Proof Sys2Proof.Machine

/-! ## Helpers -/

/-- The outcome is a next state that meets `p`. -/
def after (o : Host.Outcome State Fault Refusal) (p : State → Bool) : Bool :=
  match o with
  | .next t => p t
  | .fault _ => false
  | .refused _ => false

/-- A fresh unit over a buffer. -/
def fresh (buf : List Byte) (cursor : Nat) : State := { State.reset with buf := buf, cursor := cursor }

/-- An ACTIVE engine with CTXV = 1 and every context (0, 0). -/
def active (range offset : BitVec 9) (buf : List Byte) (cursor : Nat) : State :=
  { State.reset with
    codIRange := range, codIOffset := offset, eng := .active, ctxv := true, resultv := true, buf := buf,
    cursor := cursor }

/-- The same with one context set. -/
def withCtx (k : CtxIdx) (p : BitVec 6) (v : Bool) (s : State) : State := { s with ctx := s.ctx.set k ⟨p, v⟩ }

/-- An ACTIVE engine at the start of a slice with the offset `o`, contexts (0, 0) and fourteen more bits. -/
def sliceAt (o : BitVec 9) : State := active 510 o [0x9A, 0xC0, 0x5A] 0

/-- RANGE_TAB_LPS with another row 63, which no command reads (R92). -/
def otherRow63 : Table 6 (Table 2 (BitVec 8)) := intendedTables.rangeTabLPS.set 63 (Table.fill 0)

/-- The unit with another ctxIdxOffset for mb_type. -/
def withMbTypeOffset (n : Nat) : State :=
  State.reset.withTables { intendedTables with ctxIdxOffset := { intendedTables.ctxIdxOffset with mbTypeI := n } }

/-- The unit with an error latched. -/
def latched (e : ErrCode) : State := { State.reset with err := e }

/-! ## WellFormed refuses an ill-formed term for each check -/

theorem test_wf_reserved_slice_type_code_4 : (Instr.cinit (.reserved 4) 0 0 0 0).wellFormed = false := by decide
theorem test_wf_idc_4 : (Instr.cinit .i 4 0 0 0).wellFormed = false := by decide
theorem test_wf_qbd_128 : (Instr.cinit .i 0 128 0 0).wellFormed = false := by decide
theorem test_wf_sqd_128 : (Instr.cinit .i 0 0 128 0).wellFormed = false := by decide
theorem test_wf_piq_minus_129 : (Instr.cinit .i 0 0 0 (-129)).wellFormed = false := by decide
theorem test_wf_reserved_element_code_13 :
    (Instr.csel (.reserved 13) .luma4x4 0 false false false false).wellFormed = false := by decide
theorem test_wf_idx_64 : (Instr.csel .sig .luma4x4 64 false false false false).wellFormed = false := by decide
theorem test_wf_accepts_the_corners :
    (Instr.cinit (.reserved 7) 3 127 (-128) 127).wellFormed = true ∧
    (Instr.csel (.reserved 31) .cat7 63 true true true true).wellFormed = true := by decide

/-! ## Decoding: words written out from the encoding tables -/

/-- I4: opcode 0001, SLT 010, IDC 00, QBD 0001100, SQD 11101100, PIQ 11100110. -/
theorem test_decode_cinit :
    decodeWord 0b0001_010_00_0001100_11101100_11100110 = .ok (.cinit .i 0 12 (-20) (-26)) := by decide
/-- I6: SLT 010, IDC 10, QBD 36, SQD 0, PIQ -62. -/
theorem test_decode_cinit_fields :
    decodeWord 0b0001_010_10_0100100_00000000_11000010 = .ok (.cinit .i 2 36 0 (-62)) := by decide
theorem test_decode_einit : decodeWord 0b0010_0000000000000000000000000000 = .ok .einit := by decide
/-- DE7: opcode 0011, S 0, 17 zero bits, CTX 0100010100. -/
theorem test_decode_dec : decodeWord 0b0011_0_00000000000000000_0100010100 = .ok (.dec 276) := by decide
theorem test_decode_decS : decodeWord 0b0011_1_00000000000000000_0000000000 = .ok .decS := by decide
theorem test_decode_byp : decodeWord 0b0100_0000000000000000000000000000 = .ok .byp := by decide
theorem test_decode_trm : decodeWord 0b0101_0000000000000000000000000000 = .ok .trm := by decide
/-- S38: opcode 0110, SE 01001, CAT 011, IDX 000101, A 0, B 0, X 0, C 1. -/
theorem test_decode_csel :
    decodeWord 0b0110_01001_011_000101_0_0_0_1_0000000000 = .ok (.csel .sig .chromaDC 5 false false false true) := by
  decide
/-- S6 and S29: X, and A with B. -/
theorem test_decode_csel_flags :
    decodeWord 0b0110_00000_000_000100_0_0_1_0_0000000000 =
      .ok (.csel .mbTypeI .intra16x16DC 4 false false true false) ∧
    decodeWord 0b0110_01000_010_000000_1_1_0_0_0000000000 = .ok (.csel .cbf .luma4x4 0 true true false false) := by
  decide
theorem test_decode_lvlrst : decodeWord 0b0111_0000000000000000000000000000 = .ok .lvlrst := by decide
theorem test_decode_lvlacc :
    decodeWord 0b1000_0000000000000000000000000000 = .ok (.lvlacc .eq1) ∧
    decodeWord 0b1000_0000000000000000000000000001 = .ok (.lvlacc .gt1) := by decide
theorem test_decode_rdctx : decodeWord 0b1001_000000000000000000_1111111111 = .ok (.rdctx 1023) := by decide
theorem test_decode_rdeng : decodeWord 0b1010_0000000000000000000000000000 = .ok .rdeng := by decide
/-- CE1's section, E11, DE5, DE6, SE18, L3, O5 and step 1 of section 2.10. -/
theorem test_decode_rejects :
    decodeWord 0xF0000000 = .error .illegalCommand ∧ decodeWord 0 = .error .illegalCommand ∧
    decodeWord 0x20000001 = .error .illegalOperand ∧ decodeWord 0x38000005 = .error .illegalOperand ∧
    decodeWord 0x30100003 = .error .illegalOperand ∧ decodeWord 0x64A14001 = .error .illegalOperand ∧
    decodeWord 0x80000002 = .error .illegalOperand ∧ decodeWord 0x90000400 = .error .illegalOperand := by decide
theorem test_decodeTableWord : decodeTableWord 32 0xA0000000 = some .rdeng := by decide

/-! ## One step of each command -/

/-- I4: SliceQPY -12. -/
theorem test_cinit_result :
    after (exec (.cinit .i 0 12 (-20) (-26)) State.reset)
      (fun t => t.result == 0xFFFFFFF4 && t.ctxv && t.eng == .uninit) = true := by
  decide +kernel
/-- M1: the pair (20, -15) at QP 26 gives (46, 0). -/
theorem test_cinit_context :
    after (exec (.cinit .i 0 0 0 0) { State.reset with config := ⟨Table.fill (20, -15), false, intendedTables⟩ })
      (fun t => t.ctx.get 3 == ⟨46, false⟩ && t.ctx.get 1023 == ⟨46, false⟩) = true := by
  decide +kernel
/-- M8 and M11: the shift rounds down. -/
theorem test_initCtx : initCtx 1 (-1, 64) = ⟨0, false⟩ ∧ initCtx 17 (-16, 0) = ⟨62, false⟩ := by decide
/-- E7: an unaligned start. -/
theorem test_einit_unaligned :
    after (exec .einit (fresh [0x9A, 0xC0, 0x00] 3))
      (fun t => t.codIRange == 510 && t.codIOffset == 428 && t.cursor == 12 && t.result == 0x1AC) = true := by
  decide +kernel
/-- E4: the value 510 is refused. -/
theorem test_einit_510 :
    after (exec .einit (fresh [0xFF, 0x00] 0)) (fun t => t.err == .offsetInit && t.cursor == 0) = true := by
  decide +kernel
/-- D4: LPS at pStateIdx 0 flips valMPS after the bin is taken. -/
theorem test_dec_lps_swap :
    after (exec (.dec 5) (withCtx 5 0 true (active 300 299 [0x80] 0)))
      (fun t => t.result == 0 && t.ctx.get 5 == ⟨0, false⟩ && t.codIRange == 256 && t.codIOffset == 255) = true := by
  decide +kernel
/-- D6: six bits of renormalisation. -/
theorem test_dec_six_bits :
    after (exec (.dec 5) (withCtx 5 62 true (active 256 255 [0xAC] 0)))
      (fun t => t.result == 0 && t.ctx.get 5 == ⟨38, true⟩ && t.codIRange == 384 && t.codIOffset == 363 &&
        t.cursor == 6) = true := by
  decide +kernel
/-- DE8: DEC.S uses SELCTX and keeps SELV. -/
theorem test_decS :
    after (exec .decS { withCtx 7 4 true (active 510 0 [] 0) with selctx := 7, selv := true })
      (fun t => t.result == 1 && t.ctx.get 7 == ⟨5, true⟩ && t.selv) = true := by
  decide +kernel
/-- DE4: without SELV. -/
theorem test_decS_not_selected :
    after (exec .decS (active 510 309 [] 0)) (fun t => t.err == .notInit && statusWord t == 0x53) = true := by
  decide +kernel
/-- B3: the intermediate 1019 needs 10 bits. -/
theorem test_byp_wide :
    after (exec .byp (active 510 509 [0x80] 0))
      (fun t => t.result == 1 && t.codIOffset == 509 && t.codIRange == 510 && t.cursor == 1) = true := by
  decide +kernel
/-- B8: equality counts as 1. -/
theorem test_byp_equal :
    after (exec .byp (active 300 150 [0x00] 0)) (fun t => t.result == 1 && t.codIOffset == 0) = true := by
  decide +kernel
/-- T2: one bit at a range of 256. -/
theorem test_trm_zero :
    after (exec .trm (active 256 100 [0x80] 0))
      (fun t => t.result == 0 && t.codIRange == 508 && t.codIOffset == 201 && t.cursor == 1 && t.eng == .active) =
      true := by
  decide +kernel
/-- T4: a terminating 1 below 256 is not renormalised. -/
theorem test_trm_one :
    after (exec .trm (active 257 255 [0x00] 0))
      (fun t => t.result == 1 && t.codIRange == 255 && t.codIOffset == 255 && t.cursor == 0 && t.eng == .terminated) =
      true := by
  decide +kernel
/-- S38. -/
theorem test_csel_chroma_dc :
    after (exec (.csel .sig .chromaDC 5 false false false true) State.reset)
      (fun t => t.result == 0x97 && t.selctx == 151 && t.selv) = true := by
  decide +kernel
/-- S58: four counted levels at most, and one less for chroma DC. -/
theorem test_csel_abs_level :
    after (exec (.csel .absLevel .chromaDC 1 false false false false) { State.reset with gt1cnt := 7 })
      (fun t => t.result == 0x109) = true := by
  decide +kernel
/-- R100: ctxIdxOffset is the table's; an index of 1024 does not fit SELCTX (R8). -/
theorem test_csel_given_offset :
    after (exec (.csel .mbTypeI .intra16x16DC 0 false false false false) (withMbTypeOffset 1023))
      (fun t => t.selctx == 1023 && t.selv && t.result == 1023) = true ∧
    exec (.csel .mbTypeI .intra16x16DC 0 true false false false) (withMbTypeOffset 1023) =
      .fault .valueDoesNotFit := by
  exact ⟨by decide +kernel, rfl⟩
/-- L1's fourth command. -/
theorem test_lvlrst :
    after (exec .lvlrst { State.reset with eq1cnt := 2, gt1cnt := 1 })
      (fun t => t.eq1cnt == 0 && t.gt1cnt == 0 && t.result == 0) = true := by
  decide +kernel
/-- L2: saturation. -/
theorem test_lvlacc_saturates :
    after (exec (.lvlacc .gt1) { State.reset with eq1cnt := 127, gt1cnt := 127 })
      (fun t => t.gt1cnt == 127 && t.result == 0x7F7F) = true := by
  decide +kernel
/-- O1's word for (17, 1). -/
theorem test_rdctx :
    after (exec (.rdctx 6) (withCtx 6 17 true (active 510 309 [] 0))) (fun t => t.result == 0x51) = true := by
  decide +kernel
/-- TE1: RDENG in TERMINATED. -/
theorem test_rdeng :
    after (exec .rdeng { active 255 255 [] 0 with eng := .terminated }) (fun t => t.result == 0x80FF00FF) = true := by
  decide +kernel

/-! ## The host contract -/

/-- R126: mb_type 13 is luma 15 with chroma 0, 5 is luma 0 with chroma 1, 24 is luma 15 with chroma 2. -/
theorem test_mbType16x16Cbp :
    mbType16x16Cbp 13 = ⟨15, 0⟩ ∧ mbType16x16Cbp 5 = ⟨0, 1⟩ ∧ mbType16x16Cbp 24 = ⟨15, 2⟩ := by decide

/-- R126: mb_type 24 has prediction mode 3, 13 and 5 have 0; mb_type 0 is split by the transform flag. -/
theorem test_intraPrediction :
    intraPrediction 24 false = .intra16x16 3 ⟨15, 2⟩ ∧ intraPrediction 13 false = .intra16x16 0 ⟨15, 0⟩ ∧
    intraPrediction 5 true = .intra16x16 0 ⟨0, 1⟩ ∧ intraPrediction 0 true = .intra8x8 ∧
    intraPrediction 25 false = .pcm := by decide

/-- R136: block 3 counts by the bins of blocks 2 and 1; block 0 by the patterns of the neighbours, an I_PCM one as 0. -/
theorem test_cbpLumaFlags :
    cbpLumaFlags none none 3 0b010 = (true, false) ∧
    cbpLumaFlags (some ⟨.iNxN, false, 0, 0b1101, 0, 0⟩) (some ⟨.iPcm, false, 0, 0, 0, 0⟩) 0 0 = (true, false) := by decide

/-! ## Steps of the machine -/

/-- The word that is placed is the one that the next step runs. -/
theorem test_step_runs_the_word :
    after (step (State.reset.withFetchWord 32 0x14000000))
      (fun t => t.result == 0x1A && t.ctxv && t.port == []) = true := by
  decide +kernel
/-- Section 2.10, step 2: EINIT is refused while ERR is 1. -/
theorem test_step_refuses :
    after (step { (fresh [0x9A, 0xC0] 0).withFetchWord 32 0x20000000 with err := .illegalCommand })
      (fun t => t.err == .illegalCommand && t.eng == .uninit && t.cursor == 0 && !t.resultv) = true := by
  decide +kernel

/-! ## Witnesses: a state and operands that meet the hypotheses of each statement, each clause at a boundary -/

/-- R89 at its upper end. -/
theorem engineInv_active {r o : BitVec 9} {buf : List Byte} {c : Nat} (h0 : 256 ≤ r.toNat) (h1 : r.toNat ≤ 510)
    (h2 : o.toNat < r.toNat) : EngineInv (active r o buf c) :=
  ⟨fun _ => ⟨h0, h1, h2⟩, fun h => by cases h⟩

/-- R92 in those states. -/
theorem contextInv_active (r o : BitVec 9) (buf : List Byte) (c : Nat) : ContextInv (active r o buf c) := by
  intro _ k
  simp [active, State.reset]

/-- The whole invariant in an ACTIVE state. -/
theorem machineInv_active : MachineInv (active 510 509 [0x9A, 0xC0] 16) :=
  ⟨intendedTables_checked, engineInv_active (by decide) (by decide) (by decide), contextInv_active _ _ _ _,
    by unfold CursorInv; decide, fun h => (by cases h), fun _ => rfl⟩

/-- The two premises on the tables that statements have: the machine right after reset meets both. -/
theorem witness_tables : State.reset.config.tables = intendedTables ∧ CheckedTables State.reset.config.tables :=
  ⟨rfl, intendedTables_checked⟩

theorem witness_DecodeOfEncode : (Instr.cinit (.reserved 7) 3 127 (-128) 127).wellFormed = true := by decide
theorem witness_EncodeOfDecode : decodeWord 0x1FFFFFFF = .ok (.cinit (.reserved 7) 3 127 (-1) (-1)) := by decide
theorem witness_UndefinedOpcodes :
    bits 0x0FFFFFFF 31 28 = 0 ∧ bits 0xB0000000 31 28 = 11 ∧ bits 0xF0000000 31 28 = 15 := by decide
theorem witness_IllegalOperand :
    State.reset.err = .none ∧ bits 0x10000000 31 28 = 1 ∧ bits 0xA0000000 31 28 = 10 ∧ bits 0x1A000000 27 25 = 5 ∧
    bits 0x64B0C000 27 23 = 9 ∧ bits 0x64B0C000 22 20 = 3 ∧ bits 0x64B0C000 19 14 = 3 ∧ bits 0x64B0C000 10 10 = 0 := by
  decide
/-- R103 at its ends, by the fields' codes: the first IDX above the range, and not the last in it. -/
theorem witness_IdxAboveR103 :
    IdxAboveR103 0 0 7 0 ∧ ¬IdxAboveR103 0 0 6 0 ∧ IdxAboveR103 3 0 3 0 ∧ ¬IdxAboveR103 4 0 2 0 ∧
    IdxAboveR103 5 0 4 0 ∧ IdxAboveR103 6 0 2 0 ∧ ¬IdxAboveR103 6 0 1 0 ∧ ¬IdxAboveR103 7 0 63 0 ∧
    IdxAboveR103 8 7 1 0 ∧ IdxAboveR103 9 0 15 0 ∧ ¬IdxAboveR103 9 2 14 0 ∧ IdxAboveR103 9 1 14 0 ∧
    IdxAboveR103 9 3 3 0 ∧ ¬IdxAboveR103 9 3 3 1 ∧ IdxAboveR103 9 3 7 1 ∧ IdxAboveR103 10 5 63 0 ∧
    ¬IdxAboveR103 10 5 62 0 ∧ ¬IdxAboveR103 9 6 63 0 ∧ IdxAboveR103 13 0 1 0 := by
  simp [IdxAboveR103]
/-- A word that decodes, an undefined opcode, a set must-be-0 bit. -/
theorem witness_StepRunsDecodedCommand :
    (State.reset.withFetchWord 32 0x40000000).port = .command 0x40000000 :: [] ∧ decodeWord 0x40000000 = .ok .byp ∧
    decodeWord 0xB0000000 = .error .illegalCommand ∧ decodeWord 0x40000001 = .error .illegalOperand := by
  decide
theorem witness_StepWaits : State.reset.port = [] := rfl
theorem witness_StatusRead : ({ State.reset with port := [.readStatus] } : State).port = .readStatus :: [] := rfl
theorem witness_ResultRead :
    ({ active 510 0 [] 0 with port := [.readResult] } : State).port = .readResult :: [] ∧
    (active 510 0 [] 0).resultv = true ∧ State.reset.resultv = false := ⟨rfl, rfl, rfl⟩
/-- A word that completes, one that does not decode, one that is refused; another action of the host; a reset. -/
theorem witness_ResultRead_words :
    after (issueWord 0x70000000 State.reset) (fun t => t.err == .none && t.resultv) = true ∧
    after (issueWord 0 State.reset) (fun t => t.err == .illegalCommand && !t.resultv) = true ∧
    issueWord 0x70000000 (latched .notInit) = .next (latched .notInit) :=
  ⟨by decide +kernel, by decide +kernel, rfl⟩
theorem witness_ResultRead_actions :
    after (step { active 510 0 [7] 0 with port := [.setCursor 8] }) (fun t => t.resultv && t.cursor == 8) = true ∧
    after (step { active 510 0 [7] 0 with port := [.reset] }) (fun t => !t.resultv) = true := by
  decide +kernel
theorem witness_HostPlaces_setCursor :
    16 ≤ 8 * (fresh [1, 2] 0).buf.length ∧ 8 * (fresh [1, 2] 0).buf.length < 17 ∧
    ({ fresh [1, 2] 0 with port := [.setCursor 16] } : State).port = .setCursor 16 :: [] := by decide
theorem witness_HostPlaces_present :
    (active 510 0 [] 0).eng = .active ∧ (fresh [] 0).eng ≠ .active ∧ 8 ≤ 8 * [(0x9A : Byte)].length ∧
    8 * [(0x9A : Byte)].length < 9 ∧
    ({ fresh [] 0 with port := [.present [0x9A] 8] } : State).port = .present [0x9A] 8 :: [] := by decide
theorem witness_HostPlaces_extend :
    ({ active 510 0 [] 0 with port := [.extend [7]] } : State).port = .extend [7] :: [] := rfl
theorem witness_Reset : ({ latched .exhausted with port := [.reset] } : State).port = .reset :: [] := rfl
theorem witness_ErrorLatch_refuses :
    (latched .illegalCommand).err ≠ .none ∧ bits 0x20000000 31 28 = 2 ∧
    issueWord 0x20000000 (latched .illegalCommand) = .next (latched .illegalCommand) := by
  exact ⟨by decide, by decide, rfl⟩
theorem witness_ErrorLatch_words :
    decodeWord 0x14000000 = .ok (.cinit .i 0 0 0 0) ∧ decodeWord 0x90000003 = .ok (.rdctx 3) ∧
    decodeWord 0xA0000000 = .ok .rdeng := by decide
theorem witness_ErrorLatch_cleared :
    after (issueWord 0x14000000 (latched .illegalCommand)) (fun t => t.err == .none) = true := by decide +kernel
theorem witness_ErrorLatch_observes :
    after (issueWord 0xA0000000 { active 510 309 [] 0 with err := .exhausted })
      (fun t => t.err == .exhausted && t.result == 0x413501FE) = true := by decide +kernel
theorem witness_ErrorsRollBack :
    after (issueWord 0x40000000 (active 480 79 [0xFF] 8)) (fun t => t.err == .exhausted) = true := by decide +kernel
theorem witness_EachCommandRaises :
    after (exec .einit State.reset) (fun t => t.err == .exhausted) = true ∧
    after (exec (.rdctx 0) State.reset) (fun t => t.err == .notInit) = true := by decide +kernel
theorem witness_ErrorPrecedence_words :
    bits 0x38000005 27 27 = 1 ∧ bits 0x38000005 9 0 ≠ 0 ∧ bits 0x30000400 26 10 ≠ 0 ∧ bits 0x80000002 27 1 ≠ 0 ∧
    bits 0x90000400 27 10 ≠ 0 ∧ bits 0x40000001 27 0 ≠ 0 ∧ bits 0x1D800000 27 25 = 6 ∧
    (bits 0x11800000 27 25 ≤ 4 ∧ bits 0x11800000 24 23 = 3) ∧
    (bits 0x18000000 27 25 = 4 ∧ bits 0x18000000 24 23 ≠ 3) ∧ bits 0x64A14001 9 0 ≠ 0 := by decide
theorem witness_ErrorPrecedence_csel :
    decodeWord 0x64604000 = .ok (.csel .cbf .cat6 1 false false false false) ∧ IdxAboveR103 8 6 1 0 ∧
    decodeWord 0x64E50000 = .ok (.csel .sig .cat6 20 false false false false) ∧ ¬IdxAboveR103 9 6 20 0 ∧
    (8 ≤ 9 ∧ 9 ≤ 11 ∧ 6 ≤ BlockCat.cat6.code) ∧ SyntaxElement.sig.code = 9 ∧ SyntaxElement.cbf.code = 8 := by
  exact ⟨by decide, by simp [IdxAboveR103], by decide, by simp [IdxAboveR103], by decide, rfl, rfl⟩
theorem witness_ErrorPrecedence_state :
    State.reset.ctxv = false ∧ State.reset.eng = .uninit ∧ (active 510 0 [] 0).selv = false ∧
    decodeWord 0x30000000 = .ok (.dec 0) ∧ 8 * (active 510 0 [0xFF] 8).buf.length ≤ (active 510 0 [0xFF] 8).cursor ∧
    8 * (fresh [0xF0] 4).buf.length < (fresh [0xF0] 4).cursor + 9 ∧
    readBits (fresh [0xFF, 0x00] 0).buf 9 0 = some 510 := by decide
theorem witness_ReadBits : 8 + 8 ≤ 8 * [(1 : Byte), 2].length ∧ 8 * [(1 : Byte), 2].length < 8 + 9 := by decide
theorem witness_Cinit :
    (Instr.cinit .i 2 127 (-128) 127).wellFormed = true ∧ (Instr.cinit (.reserved 5) 0 0 0 0).wellFormed = true ∧
    (Instr.cinit .p 3 0 0 0).wellFormed = true ∧ (Instr.cinit .si 0 0 0 0).wellFormed = true := by decide
theorem witness_Einit :
    readBits (fresh [0xFE, 0xFF] 0).buf 9 0 = some 509 ∧ readBits (fresh [0xFF, 0x80] 0).buf 9 0 = some 511 ∧
    8 * (fresh [0x9A] 0).buf.length < (fresh [0x9A] 0).cursor + 9 ∧
    (fresh [0x9A, 0xC0] 7).cursor + 9 ≤ 8 * (fresh [0x9A, 0xC0] 7).buf.length ∧
    bits 0x20000001 31 28 = 2 ∧ bits 0x20000001 27 0 ≠ 0 := by decide
/-- D1, with its bit and without it; DEC.S without and with a selection. -/
theorem witness_DecDecodesOneDecision :
    EngineInv (active 510 309 [0x80] 0) ∧ (active 510 309 [0x80] 0).ctx.get 5 = ⟨0, false⟩ ∧
    renorm [0x80] ⟨240, 39, 0⟩ = some ⟨480, 79, 1⟩ ∧ renorm [] ⟨240, 39, 0⟩ = none ∧
    State.reset.ctxv = false ∧ (active 510 309 [] 0).selv = false ∧
    bits 0x38000005 31 28 = 3 ∧ bits 0x38000005 27 27 = 1 ∧ bits 0x38000005 9 0 ≠ 0 ∧ bits 0x30000400 26 10 ≠ 0 :=
  ⟨engineInv_active (by decide) (by decide) (by decide), by decide +kernel, by decide, by decide, by decide, by decide,
    by decide, by decide, by decide, by decide⟩
/-- D2, D3 and D8 with an empty buffer: no bit, one bit, a missing bit. -/
theorem witness_DecMost :
    EngineInv (withCtx 5 62 false (active 256 249 [0x3C] 0)) ∧
    (withCtx 5 62 false (active 256 249 [0x3C] 0)).ctx.get 5 = ⟨62, false⟩ ∧
    249 < 256 - rangeTabLPS intendedTables 62 (256 / 64 % 4) ∧ 256 - rangeTabLPS intendedTables 62 (256 / 64 % 4) < 256 ∧
    readBit [0x3C] 0 = some false ∧ readBit [] 0 = none ∧ 256 ≤ 510 - rangeTabLPS intendedTables 10 (510 / 64 % 4) :=
  ⟨engineInv_active (r := 256) (o := 249) (buf := [0x3C]) (c := 0) (by decide) (by decide) (by decide), by decide +kernel, by decide, by decide, by decide, by decide,
    by decide⟩
/-- D7: the offset at the boundary takes the LPS path; six bits remain, or fewer. -/
theorem witness_DecLeast :
    EngineInv (withCtx 5 62 false (active 256 250 [0x3C] 0)) ∧
    256 - rangeTabLPS intendedTables 62 (256 / 64 % 4) ≤ 250 ∧
    readBits [0x3C] (8 - Nat.log2 (rangeTabLPS intendedTables 62 (256 / 64 % 4))) 0 = some 15 ∧
    readBits [0xA0] (8 - Nat.log2 (rangeTabLPS intendedTables 62 (256 / 64 % 4))) 6 = none :=
  ⟨engineInv_active (r := 256) (o := 250) (buf := [0x3C]) (c := 0) (by decide) (by decide) (by decide), by decide, by decide +kernel, by decide +kernel⟩
theorem witness_DecS :
    ({ active 510 0 [] 0 with selv := true, selctx := 7 } : State).selv = true ∧
    ({ active 510 0 [] 0 with selv := true, selctx := 7 } : State).selctx = 7 := ⟨rfl, rfl⟩
/-- B8 and B6: on the boundary and one below it. -/
theorem witness_Byp :
    EngineInv (active 300 150 [0x00] 0) ∧ EngineInv (active 256 127 [0x80] 0) ∧
    readBit [0x00] 0 = some false ∧ 300 ≤ 2 * 150 + false.toNat ∧
    readBit [0x80] 0 = some true ∧ 2 * 127 + true.toNat < 256 ∧ readBit [0xFF] 8 = none ∧
    State.reset.eng ≠ .active :=
  ⟨engineInv_active (by decide) (by decide) (by decide), engineInv_active (by decide) (by decide) (by decide),
    by decide, by decide, by decide, by decide, by decide, by decide⟩
/-- T4, T8 and T3: a 1, no bit, one bit. -/
theorem witness_Trm :
    EngineInv (active 257 255 [] 0) ∧ 257 - 2 ≤ 255 ∧
    EngineInv (active 258 255 [] 0) ∧ 255 < 258 - 2 ∧
    EngineInv (active 257 254 [0x00] 0) ∧ 254 < 257 - 2 ∧ readBit [0x00] 0 = some false ∧ readBit [] 0 = none :=
  ⟨engineInv_active (by decide) (by decide) (by decide), by decide,
    engineInv_active (by decide) (by decide) (by decide), by decide,
    engineInv_active (by decide) (by decide) (by decide), by decide, by decide, by decide⟩
theorem witness_Renorm : 2 ≤ 2 ∧ 255 < 256 ∧ (256 : Int) ≤ (⟨256, 0, 0⟩ : EngineVals).range := by decide
theorem witness_Csel : State.reset.err = .none := rfl
/-- R100: the ends of the index ranges, a state with other tables, and a sum on either side of 1023. -/
theorem witness_CselIndexIsASum :
    State.reset.err = .none ∧ (withMbTypeOffset 1021).err = .none ∧ 2 ≤ (if false then 6 else 2) ∧
    6 ≤ (if true then 6 else 2) ∧ 62 < 63 ∧ 1 ≤ 13 ∧
    (withMbTypeOffset 1021).config.tables.ctxIdxOffset.mbTypeI + (true.toNat + true.toNat) = 1023 ∧
    (withMbTypeOffset 1022).config.tables.ctxIdxOffset.mbTypeI + (true.toNat + true.toNat) = 1024 := by decide
theorem witness_CselUnsupported :
    SyntaxElement.mbSkip.code = 16 ∧ SyntaxElement.mbTypeSi.code = 25 ∧ SyntaxElement.mbTypeSi.wellFormed = true ∧
    (SyntaxElement.reserved 14).code = 14 ∧ (SyntaxElement.reserved 26).code = 26 := by decide
theorem witness_CselIgnores :
    SyntaxElement.endOfSlice.isResidual = false ∧ SyntaxElement.mbTypeI ≠ .transform8x8 := by decide
theorem witness_CselReports :
    after (exec (.csel .cbf .luma8x8 0 true true false false) State.reset)
      (fun t => t.err == .none && t.selctx == 1015) = true ∧
    after (exec (.csel .sign .luma8x8 0 true true false false) State.reset) (fun t => t.err == .none && !t.selv) = true ∧
    after (exec (.csel .endOfSlice .luma8x8 0 true true false false) State.reset)
      (fun t => t.err == .none && t.selctx == 276) = true := by
  decide +kernel
theorem witness_Lvlrst :
    State.reset.err = .none ∧ (latched .notInit).err ≠ .none ∧ bits 0x70000001 31 28 = 7 ∧ bits 0x70000001 27 0 ≠ 0 := by
  decide
theorem witness_Lvlacc :
    State.reset.err = .none ∧ (latched .notInit).err ≠ .none ∧ bits 0x80000002 31 28 = 8 ∧ bits 0x80000002 27 1 ≠ 0 := by
  decide
theorem witness_Rdctx :
    (active 510 0 [] 0).ctxv = true ∧ State.reset.ctxv = false ∧ bits 0x90000400 31 28 = 9 ∧ bits 0x90000400 27 10 ≠ 0 := by
  decide
theorem witness_Rdeng :
    (active 510 0 [] 0).eng ≠ .uninit ∧ State.reset.eng = .uninit ∧ bits 0xA0000001 31 28 = 10 ∧
    bits 0xA0000001 27 0 ≠ 0 := by decide
theorem witness_Observation :
    bits 0x900003FF 31 28 = 9 ∧ bits 0xA0000000 31 28 = 10 ∧
    after (issueWord 0xA0000000 { active 510 309 [] 0 with err := .none }) (fun t => t.err == .none && t.resultv) = true := by
  decide +kernel
theorem witness_StepKeepsInvariant :
    MachineInv { active 510 509 [0x9A, 0xC0] 16 with port := [.readStatus] } ∧
    ∃ t, step { active 510 509 [0x9A, 0xC0] 16 with port := [.readStatus] } = .next t :=
  ⟨⟨machineInv_active.tables, machineInv_active.engine, machineInv_active.contexts, machineInv_active.cursor, machineInv_active.selection,
    machineInv_active.resultHeld⟩, _, rfl⟩
theorem witness_EngineInvariantKept :
    EngineInv (active 257 255 [] 0) ∧
    after (issueWord 0x50000000 (active 257 255 [] 0)) (fun t => t.eng == .terminated) = true :=
  ⟨engineInv_active (by decide) (by decide) (by decide), by decide +kernel⟩
theorem witness_ContextsNeverReach63 :
    ContextInv (active 510 0 [] 0) ∧ (62 : BitVec 6).toNat ≤ 62 ∧
    after (exec (.cinit .i 2 0 0 0) State.reset) (fun t => t.ctxv) = true ∧
    after (issueWord 0x30000005 (active 510 0 [] 0)) (fun t => t.err == .exhausted) = false :=
  ⟨contextInv_active _ _ _ _, by decide, by decide +kernel, by decide +kernel⟩
/-- Tables that differ in row 63 only. -/
theorem witness_ContextsNeverReach63_tables :
    (∀ p : BitVec 6, p.toNat ≤ 62 → otherRow63.get p = intendedTables.rangeTabLPS.get p) ∧
    otherRow63.get 63 ≠ intendedTables.rangeTabLPS.get 63 :=
  ⟨fun p h => Table.get_set_of_ne _ _ fun e => by subst e; revert h; decide, by decide +kernel⟩
theorem witness_CommandRuns :
    MachineInv { active 510 509 [0x9A, 0xC0] 16 with port := [.command 0, .command 0x50000000] } ∧
    CommandsOnly [.command 0, .command 0x50000000] :=
  ⟨⟨machineInv_active.tables, machineInv_active.engine, machineInv_active.contexts, machineInv_active.cursor, machineInv_active.selection,
    machineInv_active.resultHeld⟩, fun a h => by
      simp only [List.mem_cons, List.not_mem_nil, or_false] at h
      rcases h with h | h
      · exact ⟨_, h⟩
      · exact ⟨_, h⟩⟩
theorem witness_EngStateMachine :
    after (exec .einit (fresh [0x9A, 0xC0] 0)) (fun t => t.err == .none && t.eng == .active) = true ∧
    after (exec .trm (active 480 158 [] 0)) (fun t => t.err == .none && t.eng == .active) = true ∧
    after (exec .trm (active 510 508 [] 0)) (fun t => t.err == .none && t.eng == .terminated) = true ∧
    after (exec .byp State.reset) (fun t => t.err == .notInit) = true := by decide +kernel
/-- One witness for each clause: ENG, ERR raised, ERR cleared, RESULT with ERR 0, RESULT under a latched error. -/
theorem witness_CommandsWrite :
    after (exec .trm (active 510 508 [] 0)) (fun t => t.eng == .terminated && t.result == 1) = true ∧
    after (exec .trm (active 257 254 [] 0)) (fun t => t.err == .exhausted && t.eng == .active) = true ∧
    after (exec (.cinit .i 2 0 0 0) (latched .exhausted)) (fun t => t.err == .none && t.resultv) = true ∧
    after (exec .lvlrst State.reset) (fun t => t.err == .none && t.resultv) = true ∧
    after (exec .rdeng { active 510 309 [] 0 with err := .exhausted })
      (fun t => t.err == .exhausted && t.result == 0x413501FE) = true := by decide +kernel
theorem witness_StepKeepsTheParameters : ∃ t, step { active 510 0 [7] 0 with port := [.reset] } = .next t := ⟨_, rfl⟩
theorem witness_BitsConsumed :
    EngineInv (active 257 254 [0x00] 0) ∧ ContextInv (active 257 254 [0x00] 0) ∧
    after (exec .trm (active 257 254 [0x00] 0)) (fun t => t.err == .none && t.result == 0 && t.cursor == 1) = true ∧
    after (exec (.dec 5) (active 510 309 [0x80] 0)) (fun t => t.err == .none && t.cursor == 1) = true :=
  ⟨engineInv_active (by decide) (by decide) (by decide), contextInv_active _ _ _ _, by decide +kernel,
    by decide +kernel⟩
/-- Two states that differ in what holds no value: after reset the engine's registers, and SELCTX. -/
theorem witness_NoOutcomeDepends :
    AgreeOnHeld State.reset { State.reset with codIRange := 77, selctx := 9, result := 5 } where
  eng := rfl
  ctxv := rfl
  selv := rfl
  eq1cnt := rfl
  gt1cnt := rfl
  err := rfl
  resultv := rfl
  cursor := rfl
  buf := rfl
  config := rfl
  port := rfl
  readData := rfl
  registers := fun h => absurd rfl h
  contexts := fun h => by cases h
  selctx := fun h => by cases h
  result := fun h => by cases h
theorem witness_Extending :
    after (exec .einit (fresh [0x9A, 0xC0] 7)) (fun t => t.err == .none) = true := by decide +kernel
/-- The bins of mb_type 0, 25, 15 and 23, as R126 composes them. -/
theorem witness_MbTypeFromItsBins :
    let bin (k : Nat) (x v : Bool) : Instr × Bool := (.csel .mbTypeI .intra16x16DC k false false x false, v)
    (readsBins [bin 0 false false] (sliceAt 0)).isSome = true ∧
    (readsBins [bin 0 false true, bin 1 false true] (sliceAt 509)).isSome = true ∧
    (readsBins [bin 0 false true, bin 1 false false, bin 2 false true, bin 3 false false, bin 4 false true,
      bin 5 false false] (sliceAt 419)).isSome = true ∧
    (readsBins [bin 0 false true, bin 1 false false, bin 2 false true, bin 3 false true, bin 4 true true,
      bin 5 true true, bin 6 false false] (sliceAt 494)).isSome = true := by
  decide +kernel
/-- A prev flag of 1, and of 0 with rem 6 after it. -/
theorem witness_IntraPredMode :
    (readsBins [(cselAB .prevIntraFlag 0 false false, true)] (sliceAt 270)).isSome = true ∧
    (readsBins [(cselAB .prevIntraFlag 0 false false, false), (cselAB .remIntraMode 0 false false, false),
      (cselAB .remIntraMode 1 false false, true), (cselAB .remIntraMode 2 false false, true)] (sliceAt 110)).isSome = true := by
  decide +kernel
/-- rem_intra_pred_mode 6, first bin 0; intra_chroma_pred_mode 2 and 3; mb_qp_delta -2 from four bins of 1. -/
theorem witness_HostValueMaps :
    (readsBins [(cselAB .remIntraMode 0 false false, false), (cselAB .remIntraMode 1 false false, true),
      (cselAB .remIntraMode 2 false false, true)] (sliceAt 206)).isSome = true ∧
    (readsBins [(cselAB .chromaPred 0 false false, true), (cselAB .chromaPred 1 false false, true),
      (cselAB .chromaPred 2 false false, false)] (sliceAt 450)).isSome = true ∧
    (readsBins [(cselAB .chromaPred 0 false false, true), (cselAB .chromaPred 1 false false, true),
      (cselAB .chromaPred 2 false false, true)] (sliceAt 390)).isSome = true ∧
    (readsBins [(cselAB .mbQpDelta 0 false false, true), (cselAB .mbQpDelta 1 false false, true),
      (cselAB .mbQpDelta 2 false false, true), (cselAB .mbQpDelta 3 false false, true),
      (cselAB .mbQpDelta 4 false false, false)] (sliceAt 466)).isSome = true ∧ 4 < 5 := by
  decide +kernel
/-- Luma 11 with chroma 2, and the same luma bins of a monochrome stream. -/
theorem witness_CodedBlockPatternByMbType :
    let luma (k : Nat) (v : Bool) : Instr × Bool := (cselAB .cbpLuma k false false, v)
    (readsBins [luma 0 true, luma 1 true, luma 2 false, luma 3 true, (cselAB .cbpChroma 0 false false, true),
      (cselAB .cbpChroma 1 false false, true)] (sliceAt 353)).isSome = true ∧
    (readsBins [luma 0 true, luma 1 true, luma 2 false, luma 3 true] (sliceAt 353)).isSome = true ∧
    mbType16x16 true 2 true true = 24 := by
  decide +kernel
/-- Luma 10 with chroma 2, with no neighbours, and beside an Intra_16x16 macroblock with luma 0 and chroma 2; the first one's
luma bins are those of a monochrome stream too. -/
theorem witness_CodedBlockPatternBeside :
    let luma (k : Nat) (a b v : Bool) : Instr × Bool := (cselAB .cbpLuma k a b, v)
    (readsBins [luma 0 false false false, luma 1 true false true, luma 2 false true false, luma 3 true false true,
      (cselAB .cbpChroma 0 false false, true), (cselAB .cbpChroma 1 false false, true)] (sliceAt 170)).isSome = true ∧
    (readsBins [luma 0 true false false, luma 1 true false true, luma 2 true true false, luma 3 true false true,
      (cselAB .cbpChroma 0 true false, true), (cselAB .cbpChroma 1 true false, true)] (sliceAt 200)).isSome = true ∧
    (readsBins [luma 0 false false false, luma 1 true false true, luma 2 false true false, luma 3 true false true]
      (sliceAt 170)).isSome = true := by
  decide +kernel
/-- B8's bin, without a CSEL. -/
theorem witness_SuffixBin :
    (active 300 150 [0x00] 0).err = .none ∧
    (suffixBin (fun _ => false) .luma4x4 14 (active 300 150 [0x00] 0)).map Prod.fst = some true := by
  decide +kernel
theorem witness_Assembled : (CselFields.toInstr { se := .mbTypeI, a := some true }).wellFormed = true := by decide

end Sys2Proof.Tests
end

/-! SUPPORT. What a command word, an action of the host and a step can do, and the engine's bounds under them; then the
obligations of 00_scope: progress of a command word and of a run of command words, and the parameters that no step
writes. -/

namespace Sys2Proof.Machine

open Sys2Proof

/-! ## Words and steps -/

/-- Whatever the word: nothing happened, or one error was latched, or it is a command that completed (R12, R146, R147). -/
theorem issueWord_cases {w : Word} {s t : State} (h : issueWord w s = .next t) :
    (s.err ≠ .none ∧ t = s) ∨ (s.err = .none ∧ ∃ e, e ≠ .none ∧ t = { s with err := e }) ∨
      ∃ i, decodeWord w = .ok i ∧ Completes i s t := by
  unfold issueWord at h
  split at h
  · next i hi =>
    obtain h | ⟨he, e, hr, ht⟩ | h := exec_cases h
    · exact .inl h
    · exact .inr (.inl ⟨he, e, hr.ne_none, ht⟩)
    · exact .inr (.inr ⟨i, hi, h⟩)
  · next d hd =>
    have ht : t = rejectWord w d s := by simpa using h.symm
    unfold rejectWord at ht
    split at ht
    · next hr => exact .inl ⟨hr.1, ht⟩
    · obtain ⟨he, ht⟩ | h := takeError_or_same ht
      · exact .inr (.inl ⟨he, _, by cases d <;> simp [decodeErrCode], ht⟩)
      · exact .inl h

/-- No word touches the host's side of the state (R37, R41). -/
theorem issueWord_host {w : Word} {s t : State} (h : issueWord w s = .next t) :
    t.buf = s.buf ∧ t.config = s.config ∧ t.port = s.port ∧ t.readData = s.readData := by
  obtain ⟨-, rfl⟩ | ⟨-, e, -, rfl⟩ | ⟨i, -, hc⟩ := issueWord_cases h
  · simp
  · simp
  · exact hc.host.2

/-- With nothing pending the unit holds its state (R160, R165). -/
theorem step_of_idle {s : State} (h : s.port = []) : step s = .next s := by
  simp [step, takeAction, h]

/-- A step takes the oldest pending action. -/
theorem step_of_pending {s : State} {a : HostAction} {rest : List HostAction} (h : s.port = a :: rest) :
    step s = hostAct a { s with port := rest } := by
  simp [step, takeAction, h]

/-- No action of the host reaches the parameters (R41). -/
theorem hostAct_config {a : HostAction} {s t : State} (h : hostAct a s = .next t) : t.config = s.config := by
  cases a with
  | command w => exact (issueWord_host h).2.1
  | setCursor c =>
    simp only [hostAct, setCursor] at h
    split at h <;> cases h
    rfl
  | present bytes c =>
    simp only [hostAct, presentBuffer] at h
    split at h
    · cases h
    · split at h <;> cases h
      rfl
  | extend bytes => cases h; rfl
  | readResult =>
    simp only [hostAct, readResult] at h
    split at h <;> cases h
    rfl
  | readStatus => cases h; rfl
  | reset => cases h; rfl

/-- No step reaches the parameters (R41). -/
theorem step_config {s t : State} (h : step s = .next t) : t.config = s.config := by
  cases hp : s.port with
  | nil =>
    rw [step_of_idle hp] at h
    cases h
    rfl
  | cons a rest =>
    rw [step_of_pending hp] at h
    exact hostAct_config (s := { s with port := rest }) h

/-! ## The engine's bounds -/

/-- R89's bounds of an ACTIVE engine, on the values inside a command. -/
def EngineVals.InBounds (v : EngineVals) : Prop :=
  256 ≤ v.range ∧ v.range ≤ 510 ∧ 0 ≤ v.offset ∧ v.offset < v.range

/-- The registers of an ACTIVE engine are in bounds (R89). -/
theorem EngineInv.inBounds {s : State} (hi : EngineInv s) (ha : s.eng = .active) : s.engineVals.InBounds := by
  obtain ⟨hlo, hhi, hoff⟩ := hi.1 ha
  simp only [EngineVals.InBounds, State.engineVals]
  omega

/-- EngineInv speaks of ENG and the engine's two registers alone. -/
theorem EngineInv.of_eq {s t : State} (hi : EngineInv s) (he : t.eng = s.eng) (hr : t.codIRange = s.codIRange)
    (ho : t.codIOffset = s.codIOffset) : EngineInv t := by
  unfold EngineInv
  rw [he, hr, ho]
  exact hi

/-- Values in bounds fit the registers, so a decoding command that ends with them completes (R8). -/
theorem EngineVals.InBounds.finishEngine_ne_misfit {v : EngineVals} (hv : v.InBounds) (bin : Bool) (s : State) :
    finishEngine v bin s ≠ .misfit := by
  obtain ⟨hlo, hhi, hoff, hlt⟩ := hv
  rw [finishEngine_fits (by omega) (by omega)]
  simp

/-- What a decoding command leaves in the engine is what it computed (R8). -/
theorem Finishes.engine {v : EngineVals} {bin : Bool} {s t : State} (h : Finishes v bin s t) :
    t.eng = s.eng ∧ (t.codIRange.toNat : Int) = v.range ∧ (t.codIOffset.toNat : Int) = v.offset := by
  obtain ⟨hr0, hr1, ho0, ho1, rfl⟩ := h
  exact ⟨rfl, toNat_ofInt9 hr0 hr1, toNat_ofInt9 ho0 ho1⟩

/-- A decoding command that ends in bounds leaves an ACTIVE engine as R89 says. -/
theorem Finishes.engineInv {v : EngineVals} {bin : Bool} {s t : State} (h : Finishes v bin s t) (ha : s.eng = .active)
    (hv : v.InBounds) : EngineInv t := by
  obtain ⟨he, hr, ho⟩ := h.engine
  obtain ⟨hlo, hhi, hoff, hlt⟩ := hv
  exact ⟨fun _ => by omega, fun hterm => by simp [he, ha] at hterm⟩

/-- RenormD ends in bounds from every range of at least 2: seven doublings take it to 256 (R88, R89). -/
theorem renorm_inBounds {buf : List Byte} {v w : EngineVals} (h : renorm buf v = some w) (hlo : 2 ≤ v.range)
    (hhi : v.range ≤ 510) (hoff : 0 ≤ v.offset) (hlt : v.offset < v.range) : w.InBounds := by
  obtain ⟨h1, h2, h3, h4, -, -⟩ := renorm_spec 7 h (by omega) hhi hoff hlt
  exact ⟨h1, h2, h3, h4⟩

/-- A renormalised decision is in bounds when the engine was (R83, R89). -/
theorem EngineVals.InBounds.renorm_decision {v w : EngineVals} (hv : v.InBounds) {t : ConstTables}
    (ht : CheckedTables t) (x : Ctx) {buf : List Byte} {c : Nat}
    (h : renorm buf ⟨(decodeDecision t x v.range v.offset).range, (decodeDecision t x v.range v.offset).offset, c⟩ =
      some w) : w.InBounds := by
  obtain ⟨hlo, hhi, hoff, hlt⟩ := hv
  obtain ⟨h1, h2, h3, h4, -⟩ := decodeDecision_bounds ht x hlo hhi hoff hlt
  exact renorm_inBounds h h1 h2 h3 h4

/-- A bypass bin of 1 leaves the engine in bounds: twice an offset below the range, and a bit, is below twice the range
(R86, R89). -/
theorem EngineVals.InBounds.bypass_one {v : EngineVals} (hv : v.InBounds) (b : Bool) (c : Nat)
    (h : v.range ≤ 2 * v.offset + b.toInt) : InBounds ⟨v.range, 2 * v.offset + b.toInt - v.range, c⟩ := by
  obtain ⟨hlo, hhi, hoff, hlt⟩ := hv
  have hb : b.toInt ≤ 1 := by cases b <;> simp
  exact ⟨hlo, hhi, by simp only; omega, by simp only; omega⟩

/-- A bypass bin of 0 leaves the engine in bounds (R86, R89). -/
theorem EngineVals.InBounds.bypass_zero {v : EngineVals} (hv : v.InBounds) (b : Bool) (c : Nat)
    (h : 2 * v.offset + b.toInt < v.range) : InBounds ⟨v.range, 2 * v.offset + b.toInt, c⟩ := by
  obtain ⟨hlo, hhi, hoff, -⟩ := hv
  have hb : 0 ≤ b.toInt := by cases b <;> simp
  exact ⟨hlo, hhi, by simp only; omega, h⟩

/-- A terminate bin of 0 leaves the engine in bounds (R87, R89). -/
theorem EngineVals.InBounds.renorm_terminate {v w : EngineVals} (hv : v.InBounds) {buf : List Byte} {c : Nat}
    (h : v.offset < v.range - 2) (hr : renorm buf ⟨v.range - 2, v.offset, c⟩ = some w) : w.InBounds := by
  obtain ⟨hlo, hhi, hoff, -⟩ := hv
  exact renorm_inBounds hr (by simp only; omega) (by simp only; omega) hoff h

/-! ## The engine's bounds are kept -/

/-- A decision that completes keeps R89. -/
theorem Decides.engineInv {ci : CtxIdx} {s t : State} (h : Decides ci s t) (ht : CheckedTables s.config.tables)
    (hi : EngineInv s) : EngineInv t := by
  obtain ⟨-, ha, v, hv, hf⟩ := h
  exact hf.engineInv ha ((hi.inBounds ha).renorm_decision ht _ hv)

/-- A terminate bin of 1 leaves the TERMINATED engine as R89 says: the offset is the range or one above it (R87). -/
theorem engineInv_of_terminates {bin : Bool} {s t : State} (hi : EngineInv s) (ha : s.eng = .active)
    (hc : (s.codIRange.toNat : Int) - 2 ≤ s.codIOffset.toNat)
    (h : Finishes ⟨(s.codIRange.toNat : Int) - 2, s.codIOffset.toNat, s.cursor⟩ bin { s with eng := .terminated } t) :
    EngineInv t := by
  obtain ⟨he, hr, ho⟩ := h.engine
  obtain ⟨hlo, hhi, hlt⟩ := hi.1 ha
  simp only at he hr ho
  exact ⟨fun hact => by simp [he] at hact, fun _ => by omega⟩

/-- A command that completes keeps R89. -/
theorem Completes.engineInv {i : Instr} {s t : State} (h : Completes i s t) (ht : CheckedTables s.config.tables)
    (hi : EngineInv s) : EngineInv t := by
  rcases i with _ | _ | _ | _ | _ | _ | _ | _ | ⟨_ | _⟩ | _ | _ <;> simp only [Completes] at h
  case cinit => obtain ⟨-, -, rfl⟩ := h; exact ⟨nofun, nofun⟩
  case einit =>
    obtain ⟨-, v, -, hv, rfl⟩ := h
    have hmod : v % 512 < 510 := by omega
    exact ⟨fun _ => by simpa using hmod, nofun⟩
  case dec => exact h.2.engineInv ht hi
  case decS => exact h.2.2.engineInv ht hi
  case byp =>
    obtain ⟨-, ha, b, -, ⟨hc, hf⟩ | ⟨hc, hf⟩⟩ := h
    · exact hf.engineInv ha ((hi.inBounds ha).bypass_one b _ hc)
    · exact hf.engineInv ha ((hi.inBounds ha).bypass_zero b _ hc)
  case trm =>
    obtain ⟨-, ha, ⟨hc, hf⟩ | ⟨hc, v, hv, hf⟩⟩ := h
    · exact engineInv_of_terminates hi ha hc hf
    · exact hf.engineInv ha ((hi.inBounds ha).renorm_terminate hc hv)
  case csel => obtain ⟨-, -, sel, -, -, rfl⟩ := h; exact hi.of_eq rfl rfl rfl
  case lvlrst => obtain ⟨-, rfl⟩ := h; exact hi.of_eq rfl rfl rfl
  case lvlacc.eq1 => obtain ⟨-, rfl⟩ := h; exact hi.of_eq rfl rfl rfl
  case lvlacc.gt1 => obtain ⟨-, rfl⟩ := h; exact hi.of_eq rfl rfl rfl
  case rdctx => obtain ⟨-, rfl⟩ := h; exact hi.of_eq rfl rfl rfl
  case rdeng => obtain ⟨-, rfl⟩ := h; exact hi.of_eq rfl rfl rfl

/-- Every word keeps R89. -/
theorem issueWord_engineInv {w : Word} {s t : State} (h : issueWord w s = .next t)
    (ht : CheckedTables s.config.tables) (hi : EngineInv s) : EngineInv t := by
  obtain ⟨-, rfl⟩ | ⟨-, e, -, rfl⟩ | ⟨i, -, hc⟩ := issueWord_cases h
  · exact hi
  · exact hi.of_eq rfl rfl rfl
  · exact hc.engineInv ht hi

/-! ## Progress -/

/-- From an engine that meets R89, DEC stores nothing that does not fit (R8, R90). -/
theorem decBody_ne_misfit {s : State} (ht : CheckedTables s.config.tables) (hi : EngineInv s) (ci : CtxIdx) :
    decBody ci s ≠ .misfit := by
  unfold decBody
  split
  · simp
  · next hg =>
    have ha : s.eng = .active := by simpa using (not_or.mp hg).2
    simp only
    split
    · simp
    · next v hv => exact ((hi.inBounds ha).renorm_decision ht _ hv).finishEngine_ne_misfit _ _

/-- From an engine that meets R89, BYP has an outcome: the intermediate fits once the range is subtracted (R86, R90). -/
theorem execByp_goesOn {s : State} (hi : EngineInv s) : GoesOn (execByp s) := by
  refine issue_goesOn ?_
  by_cases ha : s.eng = .active
  · simp only [ha, ne_eq, not_true_eq_false, if_false]
    split
    · simp
    · next b _ =>
      split
      · next hc => exact ((hi.inBounds ha).bypass_one b _ hc).finishEngine_ne_misfit _ _
      · next hc => exact ((hi.inBounds ha).bypass_zero b _ (not_le.mp hc)).finishEngine_ne_misfit _ _
  · simp [ha]

/-- From an engine that meets R89, TRM has an outcome (R87). -/
theorem execTrm_goesOn {s : State} (hi : EngineInv s) : GoesOn (execTrm s) := by
  refine issue_goesOn ?_
  by_cases ha : s.eng = .active
  · simp only [ha, ne_eq, not_true_eq_false, if_false]
    split
    · obtain ⟨hlo, hhi, hlt⟩ := hi.1 ha
      rw [finishEngine_fits (by simp only; omega) (by simp only; omega)]
      simp
    · next hc =>
      split
      · simp
      · next v hv => exact ((hi.inBounds ha).renorm_terminate (not_le.mp hc) hv).finishEngine_ne_misfit _ _
  · simp [ha]

/-- With checked tables and an engine that meets R89, every command has an outcome (R12, R90). -/
theorem exec_goesOn (i : Instr) {s : State} (ht : CheckedTables s.config.tables) (hi : EngineInv s) :
    GoesOn (exec i s) := by
  cases i with
  | cinit slt idc qbd sqd piq => exact issue_goesOn cinitBody_ne_misfit
  | einit =>
    refine issue_goesOn ?_
    split
    · simp
    · split <;> simp
  | dec k => exact issue_goesOn (decBody_ne_misfit ht hi k)
  | decS =>
    refine issue_goesOn ?_
    split
    · simp
    · exact decBody_ne_misfit ht hi s.selctx
  | byp => exact execByp_goesOn hi
  | trm => exact execTrm_goesOn hi
  | csel se cat idx a b x c => exact issue_goesOn (cselBody_ne_misfit ht)
  | lvlrst =>
    change GoesOn (execLvlrst s)
    unfold execLvlrst
    exact issue_goesOn (by simp)
  | lvlacc g => refine issue_goesOn ?_; cases g <;> simp
  | rdctx k => refine issue_goesOn ?_; split <;> simp
  | rdeng => refine issue_goesOn ?_; split <;> simp

/-- With checked tables and an engine that meets R89, every word has an outcome: a command's own, or its rejection (R12,
R66). -/
theorem issueWord_goesOn (w : Word) {s : State} (ht : CheckedTables s.config.tables) (hi : EngineInv s) :
    GoesOn (issueWord w s) := by
  unfold issueWord
  split
  · exact exec_goesOn _ ht hi
  · exact ⟨_, rfl⟩

/-! ## Runs of command words -/

/-- What a run of command words keeps: all that progress needs of the invariant, and that nothing but words is pending. -/
structure CommandRunInv (s : State) : Prop where
  tables : CheckedTables s.config.tables
  engine : EngineInv s
  commands : CommandsOnly s.port

/-- A step of a run of command words goes on, and the run stays one. -/
theorem CommandRunInv.step {s : State} (h : CommandRunInv s) : ∃ t, Machine.step s = .next t ∧ CommandRunInv t := by
  obtain ⟨ht, hi, hc⟩ := h
  cases hp : s.port with
  | nil => exact ⟨s, step_of_idle hp, ht, hi, hc⟩
  | cons a rest =>
    rw [hp] at hc
    obtain ⟨⟨w, rfl⟩, hrest⟩ := List.forall_mem_cons.mp hc
    have hi' : EngineInv { s with port := rest } := hi.of_eq rfl rfl rfl
    obtain ⟨t, hw⟩ := issueWord_goesOn w (s := { s with port := rest }) ht hi'
    obtain ⟨-, hconfig, hport, -⟩ := issueWord_host hw
    exact ⟨t, (step_of_pending hp).trans hw, hconfig ▸ ht, issueWord_engineInv hw ht hi', hport ▸ hrest⟩

/-- A run of one more step is that step and then the run. -/
theorem run_succ_of_step {M : Host.Core} {k : Nat} {s t : M.State} (h : M.step s = .next t) :
    M.run (k + 1) s = M.run k t := by
  rw [Host.Core.run, h]

/-- A run of command words is safe for any number of steps. -/
theorem CommandRunInv.safeRun {s : State} (h : CommandRunInv s) (k : Nat) : SafeRun k s := by
  induction k generalizing s with
  | zero => exact ⟨s, rfl⟩
  | succ k ih =>
    obtain ⟨t, hst, h'⟩ := h.step
    obtain ⟨u, hu⟩ := ih h'
    exact ⟨u, (run_succ_of_step (M := core) hst).trans hu⟩

/-! ## The obligations -/

/-- Settles O47: only the tables and the engine's bounds of the invariant are needed. -/
theorem everyCommandWordHasAnOutcome : Obligations.EveryCommandWordHasAnOutcome :=
  fun w _ h => issueWord_goesOn w h.tables h.engine

/-- Settles O48, by induction on the number of steps: the tables and the engine's bounds are kept by every word. -/
theorem commandRunsNeverStop : Obligations.CommandRunsNeverStop :=
  fun k _ h hc => CommandRunInv.safeRun ⟨h.tables, h.engine, hc⟩ k

/-- Settles O51, by cases on the action that the step takes. -/
theorem stepKeepsTheParameters : Obligations.StepKeepsTheParameters :=
  ⟨fun _ _ h => step_config h, rfl⟩

end Sys2Proof.Machine

/-! SUPPORT. What each command writes and what it leaves alone, said once; from it the invariant of the machine, at reset
and under every step. Then that no step reads state that holds no value, and the host's own actions: the obligations of
10_state. -/

namespace Sys2Proof.Machine

open Sys2Proof

/-! ## What a command writes -/

/-- What a command may write, by the commands that R163 lists for each piece of the unit's state; ERR and RESULT apart
(R16 to R23, R163). -/
structure Writes (i : Instr) (s t : State) : Prop where
  ctx : ∀ k, t.ctx.get k ≠ s.ctx.get k →
    (∃ slt idc qbd sqd piq, i = .cinit slt idc qbd sqd piq) ∨ i = .dec k ∨ (i = .decS ∧ k = s.selctx)
  ctxv : t.ctxv ≠ s.ctxv → ∃ slt idc qbd sqd piq, i = .cinit slt idc qbd sqd piq
  codIRange : t.codIRange ≠ s.codIRange → i = .einit ∨ (∃ k, i = .dec k) ∨ i = .decS ∨ i = .trm
  codIOffset : t.codIOffset ≠ s.codIOffset → i = .einit ∨ (∃ k, i = .dec k) ∨ i = .decS ∨ i = .byp ∨ i = .trm
  cursor : t.cursor ≠ s.cursor → i = .einit ∨ (∃ k, i = .dec k) ∨ i = .decS ∨ i = .byp ∨ i = .trm
  selection : t.selctx ≠ s.selctx ∨ t.selv ≠ s.selv → ∃ se cat idx a b x c, i = .csel se cat idx a b x c
  eq1cnt : t.eq1cnt ≠ s.eq1cnt → i = .lvlrst ∨ i = .lvlacc .eq1
  gt1cnt : t.gt1cnt ≠ s.gt1cnt → i = .lvlrst ∨ i = .lvlacc .gt1
  eng : t.eng ≠ s.eng →
    (∃ idc qbd sqd piq, i = .cinit .i idc qbd sqd piq ∧ idc ≠ 3) ∨ i = .einit ∨ (i = .trm ∧ t.result = 1)

/-- A command that raises an error writes only ERR (R146). -/
theorem writes_err (i : Instr) (s : State) (e : ErrCode) : Writes i s { s with err := e } := by
  constructor <;> simp

/-- A bypass bin writes codIOffset, CURSOR and RESULT (R86). -/
theorem Finishes.writes_byp {s t : State} {o : Int} {c : Nat} {bin : Bool}
    (h : Finishes ⟨s.codIRange.toNat, o, c⟩ bin s t) : Writes .byp s t := by
  obtain ⟨-, -, -, -, rfl⟩ := h
  constructor <;> simp

/-- A decision writes the one context that it decodes with, beside what every decoding command writes (R83). -/
theorem Decides.ctx_get_of_ne {ci k : CtxIdx} {s t : State} (h : Decides ci s t) (hk : k ≠ ci) :
    t.ctx.get k = s.ctx.get k := by
  obtain ⟨-, -, v, -, -, -, -, -, rfl⟩ := h
  exact Table.get_set_of_ne _ _ hk

/-- The context that a decision changes is the one it decodes with. -/
theorem Decides.eq_of_ctx_get_ne {ci k : CtxIdx} {s t : State} (h : Decides ci s t)
    (hne : t.ctx.get k ≠ s.ctx.get k) : k = ci := by_contra fun hk => hne (h.ctx_get_of_ne hk)

/-- A command that completes writes only what R163 lists for it. -/
theorem Completes.writes {i : Instr} {s t : State} (h : Completes i s t) : Writes i s t := by
  rcases i with _ | _ | _ | _ | _ | _ | _ | _ | ⟨_ | _⟩ | _ | _ <;> simp only [Completes] at h
  case cinit => obtain ⟨rfl, hidc, rfl⟩ := h; constructor <;> simp [hidc]
  case einit => obtain ⟨-, v, -, -, rfl⟩ := h; constructor <;> simp
  case dec k =>
    have hctx : ∀ j, t.ctx.get j ≠ s.ctx.get j → k = j := fun _ hj => (h.2.eq_of_ctx_get_ne hj).symm
    obtain ⟨-, -, -, v, -, -, -, -, -, rfl⟩ := h
    constructor <;> simp
    exact hctx
  case decS =>
    have hctx : ∀ j, t.ctx.get j ≠ s.ctx.get j → j = s.selctx := fun _ hj => h.2.2.eq_of_ctx_get_ne hj
    obtain ⟨-, -, -, -, v, -, -, -, -, -, rfl⟩ := h
    constructor <;> simp
    exact hctx
  case byp =>
    obtain ⟨-, -, b, -, ⟨-, hf⟩ | ⟨-, hf⟩⟩ := h
    · exact hf.writes_byp
    · exact hf.writes_byp
  case trm =>
    obtain ⟨-, -, ⟨-, -, -, -, -, rfl⟩ | ⟨-, v, -, -, -, -, -, rfl⟩⟩ := h
    · constructor <;> simp
      exact fun _ => rfl
    · constructor <;> simp
  case csel => obtain ⟨-, -, sel, -, -, rfl⟩ := h; constructor <;> simp
  case lvlrst => obtain ⟨-, rfl⟩ := h; constructor <;> simp
  case lvlacc.eq1 => obtain ⟨-, rfl⟩ := h; constructor <;> simp
  case lvlacc.gt1 => obtain ⟨-, rfl⟩ := h; constructor <;> simp
  case rdctx => obtain ⟨-, rfl⟩ := h; constructor <;> simp
  case rdeng => obtain ⟨-, rfl⟩ := h; constructor <;> simp

/-- Every command writes only what R163 lists for it. -/
theorem exec_writes {i : Instr} {s t : State} (h : exec i s = .next t) : Writes i s t := by
  obtain ⟨-, rfl⟩ | ⟨-, e, -, rfl⟩ | hc := exec_cases h
  · exact writes_err i t t.err
  · exact writes_err i s e
  · exact hc.writes

/-! ## The invariant -/

/-- A decision leaves the context that it decodes with below 63 (R83, R92). -/
theorem Decides.contextInv {ci : CtxIdx} {s t : State} (h : Decides ci s t) (ht : CheckedTables s.config.tables)
    (hi : ContextInv s) : ContextInv t := by
  intro _ k
  have hs : ∀ k, (s.ctx.get k).pStateIdx.toNat ≤ 62 := hi h.1
  by_cases hk : k = ci
  · obtain ⟨-, -, v, -, -, -, -, -, rfl⟩ := h
    simpa [hk] using decodeDecision_ctx_le ht (hs ci)
  · rw [h.ctx_get_of_ne hk]
    exact hs k

/-- A command that completes leaves no initialised context at 63 (R92). -/
theorem Completes.contextInv {i : Instr} {s t : State} (h : Completes i s t) (ht : CheckedTables s.config.tables)
    (hi : ContextInv s) : ContextInv t := by
  have hw := h.writes
  cases i with
  | cinit slt idc qbd sqd piq =>
    obtain ⟨-, -, rfl⟩ := h
    exact fun _ k => by simpa using initCtx_le _ _
  | dec k => exact h.2.contextInv ht hi
  | decS => exact h.2.2.contextInv ht hi
  | _ =>
    intro hv k
    have hctx : t.ctx.get k = s.ctx.get k := by simpa using hw.ctx k
    have hctxv : t.ctxv = s.ctxv := by simpa using hw.ctxv
    exact hctx ▸ hi (hctxv ▸ hv) k

/-- Where a decision moves CURSOR, a bit was read: it stays inside the buffer (R25, R38, R83). -/
theorem Decides.cursor_le {ci : CtxIdx} {s t : State} (h : Decides ci s t) (hi : CursorInv s) :
    t.cursor ≤ 8 * s.buf.length := by
  obtain ⟨-, -, v, hv, -, -, -, -, rfl⟩ := h
  exact (renorm_cursor (by exact hi) hv).2

/-- A command that completes leaves CURSOR inside the buffer (R25). -/
theorem Completes.cursorInv {i : Instr} {s t : State} (h : Completes i s t) (hi : CursorInv s) : CursorInv t := by
  have hw := h.writes
  unfold CursorInv
  rw [h.host.2.1]
  cases i with
  | einit =>
    obtain ⟨-, v, hv, -, rfl⟩ := h
    exact le_of_readBits (by decide) hv
  | dec k => exact h.2.cursor_le hi
  | decS => exact h.2.2.cursor_le hi
  | byp =>
    obtain ⟨-, -, b, hb, ⟨-, -, -, -, -, rfl⟩ | ⟨-, -, -, -, -, rfl⟩⟩ := h
    · exact lt_of_readBit hb
    · exact lt_of_readBit hb
  | trm =>
    obtain ⟨-, -, ⟨-, -, -, -, -, rfl⟩ | ⟨-, v, hv, -, -, -, -, rfl⟩⟩ := h
    · exact hi
    · exact (renorm_cursor (by exact hi) hv).2
  | _ =>
    have hcursor : t.cursor = s.cursor := by simpa using hw.cursor
    exact hcursor ▸ hi

/-- A command that completes leaves in a valid SELCTX an index that CSEL selects (R102, R107). -/
theorem Completes.selectionInv {i : Instr} {s t : State} (h : Completes i s t) (ht : CheckedTables s.config.tables)
    (hi : SelectionInv s) : SelectionInv t := by
  have hw := h.writes
  cases i with
  | csel se cat idx a b x c =>
    obtain ⟨-, hidx, sel, hsel, hlt, rfl⟩ := h
    intro hk
    have hkind : sel.kind = .context := by simpa using hk
    simpa [Nat.mod_eq_of_lt hlt] using ht.selects _ _ _ _ _ _ _ _ _ _ hidx hsel hkind
  | _ =>
    have hsel : t.selctx = s.selctx ∧ t.selv = s.selv := by simpa [not_or] using hw.selection
    unfold SelectionInv
    rw [hsel.1, hsel.2]
    exact hi

/-- A command that completes keeps the invariant. -/
theorem Completes.machineInv {i : Instr} {s t : State} (h : Completes i s t) (hi : MachineInv s) : MachineInv t where
  tables := h.host.2.2.1 ▸ hi.tables
  engine := h.engineInv hi.tables hi.engine
  contexts := h.contextInv hi.tables hi.contexts
  cursor := h.cursorInv hi.cursor
  selection := h.selectionInv hi.tables hi.selection
  resultHeld := fun _ => h.host.1

/-- The invariant does not speak of ERR, the port and the read data, and of CURSOR and BUF only that one lies in the
other. -/
theorem MachineInv.withHostSide {s : State} (h : MachineInv s) {e : ErrCode} {c : Nat} {bytes : List Byte}
    (hc : c ≤ 8 * bytes.length) (port : List HostAction) (word : Word) :
    MachineInv { s with err := e, cursor := c, buf := bytes, port := port, readData := word } :=
  ⟨h.tables, h.engine, h.contexts, hc, h.selection, h.resultHeld⟩

/-- Every word keeps the invariant. -/
theorem issueWord_machineInv {w : Word} {s t : State} (h : issueWord w s = .next t) (hi : MachineInv s) :
    MachineInv t := by
  obtain ⟨-, rfl⟩ | ⟨-, e, -, rfl⟩ | ⟨i, -, hc⟩ := issueWord_cases h
  · exact hi
  · exact hi.withHostSide hi.cursor s.port s.readData
  · exact hc.machineInv hi

/-- A reset over checked tables, and a CURSOR inside the buffer, meets the invariant (R31). -/
theorem resetUnit_machineInv {s : State} (ht : CheckedTables s.config.tables) (hc : CursorInv s) :
    MachineInv (resetUnit s) where
  tables := ht
  engine := ⟨nofun, nofun⟩
  contexts := nofun
  cursor := hc
  selection := nofun
  resultHeld := fun h => by simp [State.reset] at h

/-- What an action of the host can do: issue a word, reset the unit, or move its own side alone, CURSOR within BUF (R19,
R20, R25, R50, R164). -/
theorem hostAct_cases {a : HostAction} {s t : State} (h : hostAct a s = .next t) :
    (∃ w, a = .command w ∧ issueWord w s = .next t) ∨ (a = .reset ∧ t = resetUnit s) ∨
      ∃ c bytes word, (CursorInv s → c ≤ 8 * bytes.length) ∧
        t = { s with cursor := c, buf := bytes, readData := word } := by
  cases a with
  | command w => exact .inl ⟨w, rfl, h⟩
  | setCursor c =>
    simp only [hostAct, setCursor, cursorFits, decide_eq_true_eq] at h
    split at h <;> cases h
    next hc => exact .inr (.inr ⟨c, s.buf, s.readData, fun _ => hc, rfl⟩)
  | present bytes c =>
    simp only [hostAct, presentBuffer, cursorFits, decide_eq_true_eq] at h
    split at h
    · cases h
    · split at h <;> cases h
      next hc => exact .inr (.inr ⟨c, bytes, s.readData, fun _ => hc, rfl⟩)
  | extend bytes =>
    cases h
    exact .inr (.inr ⟨s.cursor, s.buf ++ bytes, s.readData, fun hc => hc.trans (by simp), rfl⟩)
  | readResult =>
    simp only [hostAct, readResult] at h
    split at h <;> cases h
    exact .inr (.inr ⟨s.cursor, s.buf, s.result, id, rfl⟩)
  | readStatus =>
    cases h
    exact .inr (.inr ⟨s.cursor, s.buf, statusWord s, id, rfl⟩)
  | reset =>
    cases h
    exact .inr (.inl ⟨rfl, rfl⟩)

/-- Every action of the host keeps the invariant. -/
theorem hostAct_machineInv {a : HostAction} {s t : State} (h : hostAct a s = .next t) (hi : MachineInv s) :
    MachineInv t := by
  obtain ⟨w, -, hw⟩ | ⟨-, rfl⟩ | ⟨c, bytes, word, hc, rfl⟩ := hostAct_cases h
  · exact issueWord_machineInv hw hi
  · exact resetUnit_machineInv hi.tables hi.cursor
  · exact hi.withHostSide (hc hi.cursor) s.port word

/-- Settles O43: power-on is a reset over the intended tables, which are checked, and an empty buffer. -/
theorem resetMeetsInvariant : Obligations.ResetMeetsInvariant :=
  resetUnit_machineInv (s := State.reset) intendedTables_checked (Nat.zero_le _)

/-- Settles O44, by cases on the action that the step takes. -/
theorem stepKeepsInvariant : Obligations.StepKeepsInvariant := by
  intro s t hi h
  cases hp : s.port with
  | nil =>
    rw [step_of_idle hp] at h
    cases h
    exact hi
  | cons a rest =>
    rw [step_of_pending hp] at h
    exact hostAct_machineInv h (hi.withHostSide hi.cursor rest s.readData)

/-! ## What holds no value is not read -/

/-- Two ends of a command's rule alike: the same error, or states that agree on what holds a value. -/
inductive AgreeEnd : CmdEnd → CmdEnd → Prop
  | done {s t : State} (h : AgreeOnHeld s t) : AgreeEnd (.done s) (.done t)
  | raise (e : ErrCode) : AgreeEnd (.raise e) (.raise e)
  | misfit : AgreeEnd .misfit .misfit

section

variable {s t : State}

/-- The engine's registers hold values while ENG = ACTIVE (R30). -/
theorem AgreeOnHeld.registers_of_active (h : AgreeOnHeld s t) (ha : s.eng = .active) :
    s.codIRange = t.codIRange ∧ s.codIOffset = t.codIOffset := h.registers (by simp [ha])

/-- States that agree latch an error alike. -/
theorem AgreeOnHeld.takeError (h : AgreeOnHeld s t) (e : ErrCode) :
    AgreeOnHeld (Machine.takeError e s) (Machine.takeError e t) := by
  unfold Machine.takeError
  rw [h.err]
  split
  · exact { h with err := rfl }
  · exact h

/-- States that agree complete alike with the same word in RESULT. -/
theorem AgreeEnd.complete (h : AgreeOnHeld s t) (r : Word) :
    AgreeEnd (.done (Machine.complete r s)) (.done (Machine.complete r t)) :=
  .done { h with resultv := rfl, result := fun _ => rfl }

/-- A decoding command that stores the same values ends alike. -/
theorem AgreeOnHeld.finishEngine (h : AgreeOnHeld s t) (v : EngineVals) (bin : Bool) :
    AgreeEnd (Machine.finishEngine v bin s) (Machine.finishEngine v bin t) := by
  unfold Machine.finishEngine
  split
  · refine .complete ?_ _
    exact { h with cursor := rfl, registers := fun _ => ⟨rfl, rfl⟩ }
  · exact .misfit

/-- A CSEL that selects the same ends alike. -/
theorem AgreeOnHeld.finishSelect (h : AgreeOnHeld s t) (sel : Selection) :
    AgreeEnd (Machine.finishSelect sel s) (Machine.finishSelect sel t) := by
  unfold Machine.finishSelect
  split
  · refine .complete ?_ _
    exact { h with selv := rfl, selctx := fun _ => rfl }
  · exact .misfit

/-- Issuing a command is alike where its rule ends alike. -/
theorem AgreeOnHeld.issue (h : AgreeOnHeld s t) (op : Opcode) {b c : CmdEnd} (hb : AgreeEnd b c) :
    AgreeOutcome AgreeOnHeld (Machine.issue op s b) (Machine.issue op t c) := by
  unfold Machine.issue
  rw [h.err]
  split
  · exact h
  · cases hb with
    | done h => exact h
    | raise e => exact h.takeError e
    | misfit => rfl

/-! ### The commands' rules -/

/-- CINIT reads CTX_INIT_MN alone, and leaves no engine (R76). -/
theorem AgreeOnHeld.cinitBody (h : AgreeOnHeld s t) (slt : SliceType) (idc qbd : Nat) (sqd piq : Int) :
    AgreeEnd (Machine.cinitBody slt idc qbd sqd piq s) (Machine.cinitBody slt idc qbd sqd piq t) := by
  cases slt with
  | i =>
    simp only [Machine.cinitBody]
    split
    · exact .raise _
    · refine .complete ?_ _
      exact { h with
        eng := rfl, ctxv := rfl, err := rfl, registers := fun hu => absurd rfl hu,
        contexts := fun _ => by simp [h.config] }
  | reserved code => exact .raise _
  | _ =>
    simp only [Machine.cinitBody]
    split
    · exact .raise _
    · exact .raise _

/-- EINIT reads BUF at CURSOR, and writes the registers (R77). -/
theorem AgreeOnHeld.execEinit (h : AgreeOnHeld s t) :
    AgreeOutcome AgreeOnHeld (Machine.execEinit s) (Machine.execEinit t) := by
  refine h.issue .einit ?_
  have hread : readBits s.buf 9 s.cursor = readBits t.buf 9 t.cursor := by rw [h.buf, h.cursor]
  rw [hread]
  split
  · exact .raise _
  · split
    · exact .raise _
    · refine .complete ?_ _
      exact { h with eng := rfl, cursor := congrArg (· + 9) h.cursor, registers := fun _ => ⟨rfl, rfl⟩ }

/-- DEC reads the contexts and the registers only past its conditions, where both hold values (R83). -/
theorem AgreeOnHeld.decBody (h : AgreeOnHeld s t) (ci : CtxIdx) :
    AgreeEnd (Machine.decBody ci s) (Machine.decBody ci t) := by
  unfold Machine.decBody
  by_cases hg : s.ctxv = false ∨ s.eng ≠ .active
  · rw [if_pos hg, if_pos (h.ctxv ▸ h.eng ▸ hg)]
    exact .raise _
  · rw [if_neg hg, if_neg (h.ctxv ▸ h.eng ▸ hg)]
    obtain ⟨hc, ha⟩ : s.ctxv = true ∧ s.eng = .active := by simpa using hg
    have hctx := h.contexts hc
    obtain ⟨hr, ho⟩ := h.registers_of_active ha
    have hrenorm (r o : Int) : renorm s.buf ⟨r, o, s.cursor⟩ = renorm t.buf ⟨r, o, t.cursor⟩ := by
      rw [h.buf, h.cursor]
    have hdec : decodeDecision s.config.tables (s.ctx.get ci) s.codIRange.toNat s.codIOffset.toNat =
        decodeDecision t.config.tables (t.ctx.get ci) t.codIRange.toNat t.codIOffset.toNat := by
      rw [h.config, hctx, hr, ho]
    simp only [hrenorm, hdec]
    split
    · exact .raise _
    · refine AgreeOnHeld.finishEngine ?_ _ _
      exact { h with contexts := fun _ => by simp only [hctx] }

/-- DEC.S reads SELCTX only where SELV = 1 (R83). -/
theorem AgreeOnHeld.execDecS (h : AgreeOnHeld s t) :
    AgreeOutcome AgreeOnHeld (Machine.execDecS s) (Machine.execDecS t) := by
  refine h.issue .dec ?_
  by_cases hs : s.selv = false
  · rw [if_pos hs, if_pos (h.selv ▸ hs)]
    exact .raise _
  · rw [if_neg hs, if_neg (h.selv ▸ hs), h.selctx (by simpa using hs)]
    exact h.decBody _

/-- BYP reads the registers only while ENG = ACTIVE (R86). -/
theorem AgreeOnHeld.execByp (h : AgreeOnHeld s t) :
    AgreeOutcome AgreeOnHeld (Machine.execByp s) (Machine.execByp t) := by
  refine h.issue .byp ?_
  by_cases ha : s.eng = .active
  · rw [if_neg (not_not.mpr ha), if_neg (not_not.mpr (h.eng ▸ ha))]
    obtain ⟨hr, ho⟩ := h.registers_of_active ha
    rw [h.buf, h.cursor, hr, ho]
    split
    · exact .raise _
    · simp only
      split
      · exact h.finishEngine _ _
      · exact h.finishEngine _ _
  · rw [if_pos ha, if_pos (h.eng ▸ ha)]
    exact .raise _

/-- TRM reads the registers only while ENG = ACTIVE (R87). -/
theorem AgreeOnHeld.execTrm (h : AgreeOnHeld s t) :
    AgreeOutcome AgreeOnHeld (Machine.execTrm s) (Machine.execTrm t) := by
  refine h.issue .trm ?_
  by_cases ha : s.eng = .active
  · rw [if_neg (not_not.mpr ha), if_neg (not_not.mpr (h.eng ▸ ha))]
    obtain ⟨hr, ho⟩ := h.registers_of_active ha
    simp only
    rw [h.buf, h.cursor, hr, ho]
    split
    · refine AgreeOnHeld.finishEngine ?_ _ _
      exact { h with eng := rfl, cursor := rfl, buf := rfl, registers := fun _ => ⟨rfl, rfl⟩ }
    · split
      · exact .raise _
      · exact h.finishEngine _ _
  · rw [if_pos ha, if_pos (h.eng ▸ ha)]
    exact .raise _

/-- CSEL reads the tables and the two counters (R102). -/
theorem AgreeOnHeld.cselBody (h : AgreeOnHeld s t) (se : SyntaxElement) (cat : BlockCat) (idx : Nat) (a b x c : Bool) :
    AgreeEnd (Machine.cselBody se cat idx a b x c s) (Machine.cselBody se cat idx a b x c t) := by
  unfold Machine.cselBody
  rw [h.config, h.eq1cnt, h.gt1cnt]
  split
  · exact .raise _
  · split
    · exact .raise _
    · split
      · exact .raise _
      · split
        · exact .raise _
        · split
          · exact .raise _
          · exact h.finishSelect _

/-- LVLRST reads nothing (R123). -/
theorem AgreeOnHeld.execLvlrst (h : AgreeOnHeld s t) :
    AgreeOutcome AgreeOnHeld (Machine.execLvlrst s) (Machine.execLvlrst t) := by
  unfold Machine.execLvlrst
  refine h.issue .lvlrst (.complete ?_ _)
  exact { h with eq1cnt := rfl, gt1cnt := rfl }

/-- LVLACC reads the two counters (R124). -/
theorem AgreeOnHeld.execLvlacc (h : AgreeOnHeld s t) (g : LevelClass) :
    AgreeOutcome AgreeOnHeld (Machine.execLvlacc g s) (Machine.execLvlacc g t) := by
  refine h.issue .lvlacc ?_
  rw [h.eq1cnt, h.gt1cnt]
  cases g with
  | eq1 =>
    refine .complete ?_ _
    exact { h with eq1cnt := rfl, gt1cnt := rfl }
  | gt1 =>
    refine .complete ?_ _
    exact { h with eq1cnt := rfl, gt1cnt := rfl }

/-- RDCTX reads a context only where CTXV = 1 (R141). -/
theorem AgreeOnHeld.execRdctx (h : AgreeOnHeld s t) (k : CtxIdx) :
    AgreeOutcome AgreeOnHeld (Machine.execRdctx k s) (Machine.execRdctx k t) := by
  refine h.issue .rdctx ?_
  by_cases hc : s.ctxv = false
  · rw [if_pos hc, if_pos (h.ctxv ▸ hc)]
    exact .raise _
  · rw [if_neg hc, if_neg (h.ctxv ▸ hc), h.contexts (by simpa using hc)]
    exact .complete h _

/-- RDENG reads the registers only where ENG is not UNINIT (R142). -/
theorem AgreeOnHeld.execRdeng (h : AgreeOnHeld s t) :
    AgreeOutcome AgreeOnHeld (Machine.execRdeng s) (Machine.execRdeng t) := by
  refine h.issue .rdeng ?_
  by_cases hu : s.eng = .uninit
  · rw [if_pos hu, if_pos (h.eng ▸ hu)]
    exact .raise _
  · have hword : engineWord s = engineWord t := by
      obtain ⟨hr, ho⟩ := h.registers hu
      simp only [engineWord, h.eng, hr, ho]
    rw [if_neg hu, if_neg (h.eng ▸ hu), hword]
    exact .complete h _

/-- No command reads what holds no value. -/
theorem AgreeOnHeld.exec (h : AgreeOnHeld s t) (i : Instr) :
    AgreeOutcome AgreeOnHeld (Machine.exec i s) (Machine.exec i t) := by
  cases i with
  | cinit slt idc qbd sqd piq => exact h.issue .cinit (h.cinitBody slt idc qbd sqd piq)
  | einit => exact h.execEinit
  | dec k => exact h.issue .dec (h.decBody k)
  | decS => exact h.execDecS
  | byp => exact h.execByp
  | trm => exact h.execTrm
  | csel se cat idx a b x c => exact h.issue .csel (h.cselBody se cat idx a b x c)
  | lvlrst => exact h.execLvlrst
  | lvlacc g => exact h.execLvlacc g
  | rdctx k => exact h.execRdctx k
  | rdeng => exact h.execRdeng

/-! ### Words and the host's actions -/

/-- No command word makes the unit read what holds no value. -/
theorem AgreeOnHeld.issueWord (h : AgreeOnHeld s t) (w : Word) :
    AgreeOutcome AgreeOnHeld (Machine.issueWord w s) (Machine.issueWord w t) := by
  unfold Machine.issueWord
  split
  · exact h.exec _
  · simp only [AgreeOutcome, rejectWord]
    rw [h.err]
    split
    · exact h
    · exact h.takeError _

/-- STATUS shows nothing that may hold no value (R143). -/
theorem AgreeOnHeld.statusWord (h : AgreeOnHeld s t) : Machine.statusWord s = Machine.statusWord t := by
  simp only [Machine.statusWord, h.selv, h.ctxv, h.eng, h.err]

/-- After a reset states agree on what holds a value as soon as the host's side does (R31). -/
theorem AgreeOnHeld.resetUnit (h : AgreeOnHeld s t) : AgreeOnHeld (Machine.resetUnit s) (Machine.resetUnit t) where
  eng := rfl
  ctxv := rfl
  selv := rfl
  eq1cnt := rfl
  gt1cnt := rfl
  err := rfl
  resultv := rfl
  cursor := h.cursor
  buf := h.buf
  config := h.config
  port := h.port
  readData := h.readData
  registers := fun _ => ⟨rfl, rfl⟩
  contexts := fun _ => rfl
  selctx := fun _ => rfl
  result := fun _ => rfl

/-- No action of the host makes the unit read what holds no value. -/
theorem AgreeOnHeld.hostAct (h : AgreeOnHeld s t) (a : HostAction) :
    AgreeOutcome AgreeOnHeld (Machine.hostAct a s) (Machine.hostAct a t) := by
  cases a with
  | command w => exact h.issueWord w
  | setCursor c =>
    simp only [Machine.hostAct, setCursor]
    rw [h.buf]
    split
    · exact { h with cursor := rfl, buf := rfl }
    · rfl
  | present bytes c =>
    simp only [Machine.hostAct, presentBuffer]
    by_cases ha : s.eng = .active
    · rw [if_pos ha, if_pos (h.eng ▸ ha)]
      rfl
    · have ht : ¬t.eng = .active := h.eng ▸ ha
      rw [if_neg ha, if_neg ht]
      split
      · exact { h with cursor := rfl, buf := rfl }
      · rfl
  | extend bytes => exact { h with buf := congrArg (· ++ bytes) h.buf }
  | readResult =>
    simp only [Machine.hostAct, readResult]
    by_cases hv : s.resultv = true
    · rw [if_pos hv, if_pos (h.resultv ▸ hv)]
      exact { h with readData := h.result hv }
    · rw [if_neg hv, if_neg (h.resultv ▸ hv)]
      rfl
  | readStatus => exact { h with readData := h.statusWord }
  | reset => exact h.resetUnit

end

/-- Settles O53, by cases on the action that the step takes: every command reads a register only past the condition that
makes it hold a value. -/
theorem noOutcomeDependsOnUnheldValues : Obligations.NoOutcomeDependsOnUnheldValues := by
  intro s t h
  cases hp : s.port with
  | nil =>
    rw [step_of_idle hp, step_of_idle (h.port ▸ hp)]
    exact h
  | cons a rest =>
    rw [step_of_pending hp, step_of_pending (h.port ▸ hp)]
    refine AgreeOnHeld.hostAct ?_ a
    exact { h with port := rfl }

/-! ## ERR and RESULT -/

/-- No command touches the host's side of the state (R37, R41). -/
theorem exec_host {i : Instr} {s t : State} (h : exec i s = .next t) :
    t.buf = s.buf ∧ t.config = s.config ∧ t.port = s.port ∧ t.readData = s.readData := by
  obtain ⟨-, rfl⟩ | ⟨-, e, -, rfl⟩ | hc := exec_cases h
  · simp
  · simp
  · exact hc.host.2

/-- A command that completes changes ERR only where it is the CINIT that clears it (R147 a). -/
theorem Completes.err_cleared {i : Instr} {s t : State} (h : Completes i s t) (he : t.err ≠ s.err) :
    t.err = .none ∧ ∃ idc qbd sqd piq, i = .cinit .i idc qbd sqd piq ∧ idc ≠ 3 := by
  obtain ⟨hnone, hop⟩ := h.err.2.resolve_left he
  cases i with
  | cinit slt idc qbd sqd piq =>
    obtain ⟨rfl, hidc, -⟩ := h
    exact ⟨hnone, idc, qbd, sqd, piq, rfl, hidc⟩
  | _ => cases hop

/-- Under a latched error only the exempt commands complete (R147). -/
theorem Completes.of_latched {i : Instr} {s t : State} (h : Completes i s t) (he : s.err ≠ .none) :
    (∃ idc qbd sqd piq, i = .cinit .i idc qbd sqd piq ∧ idc ≠ 3) ∨ (∃ k, i = .rdctx k) ∨ i = .rdeng := by
  have hx : i.opcode.exempt = true := h.err.1.resolve_left he
  cases i with
  | cinit slt idc qbd sqd piq =>
    obtain ⟨rfl, hidc, -⟩ := h
    exact .inl ⟨idc, qbd, sqd, piq, rfl, hidc⟩
  | rdctx k => exact .inr (.inl ⟨k, rfl⟩)
  | rdeng => exact .inr (.inr rfl)
  | _ => cases hx

/-- ERR changes where an error is raised while it is 0, or where CINIT clears it (R146, R147). -/
theorem exec_err_ne {i : Instr} {s t : State} (h : exec i s = .next t) (hne : t.err ≠ s.err) :
    (s.err = .none ∧ t = { s with err := t.err } ∧ i ≠ .lvlrst ∧ ∀ g, i ≠ .lvlacc g) ∨
    (s.err ≠ .none ∧ t.err = .none ∧ ∃ idc qbd sqd piq, i = .cinit .i idc qbd sqd piq ∧ idc ≠ 3) := by
  obtain ⟨-, rfl⟩ | ⟨he, e, hr, rfl⟩ | hc := exec_cases h
  · exact absurd rfl hne
  · exact .inl ⟨he, rfl, by rintro rfl; exact hr, by rintro g rfl; exact hr⟩
  · obtain ⟨hnone, hcinit⟩ := hc.err_cleared hne
    exact .inr ⟨fun he => hne (hnone.trans he.symm), hnone, hcinit⟩

/-- A command that runs while ERR is 0 and leaves it there has completed: RESULT holds a value (R12, R20). -/
theorem exec_resultv {i : Instr} {s t : State} (h : exec i s = .next t) (he : s.err = .none) (ht : t.err = .none) :
    t.resultv = true := by
  obtain ⟨hl, -⟩ | ⟨-, e, hr, rfl⟩ | hc := exec_cases h
  · exact absurd he hl
  · exact absurd ht hr.ne_none
  · exact hc.host.1

/-- A command that raises an error leaves RESULT and its indicator (R146). -/
theorem exec_raised_result {i : Instr} {s t : State} (h : exec i s = .next t) (he : s.err = .none)
    (ht : t.err ≠ .none) : t.result = s.result ∧ t.resultv = s.resultv := by
  have hne : t.err ≠ s.err := he ▸ ht
  obtain ⟨-, heq, -⟩ | ⟨hl, -⟩ := exec_err_ne h hne
  · rw [heq]
    exact ⟨rfl, rfl⟩
  · exact absurd he hl

/-- Under a latched error only the exempt commands write RESULT (R147). -/
theorem exec_latched_result {i : Instr} {s t : State} (h : exec i s = .next t) (he : s.err ≠ .none)
    (hne : t.result ≠ s.result ∨ t.resultv ≠ s.resultv) :
    t.resultv = true ∧
      ((∃ idc qbd sqd piq, i = .cinit .i idc qbd sqd piq ∧ idc ≠ 3) ∨ (∃ k, i = .rdctx k) ∨ i = .rdeng) := by
  obtain ⟨-, rfl⟩ | ⟨hn, -⟩ | hc := exec_cases h
  · simp at hne
  · exact absurd hn he
  · exact ⟨hc.host.1, hc.of_latched he⟩

/-- Settles O50, from what each command writes (`Writes`) and what it does to ERR and RESULT. -/
theorem commandsWriteOnlyTheirState : Obligations.CommandsWriteOnlyTheirState := by
  intro i s t h
  have hw := exec_writes h
  exact ⟨exec_host h, hw.ctx, hw.ctxv, hw.codIRange, hw.codIOffset, hw.cursor, hw.selection, hw.eq1cnt, hw.gt1cnt,
    hw.eng, exec_err_ne h, exec_resultv h, exec_raised_result h, exec_latched_result h⟩

/-! ## Reading RESULT -/

/-- A command that completes under a latched error does the same while ERR is 0: none that runs there reads ERR. -/
theorem Completes.exec_clear {i : Instr} {s t : State} (h : Completes i s t) (he : s.err ≠ .none) :
    exec i { s with err := .none } = .next { t with err := .none } := by
  obtain ⟨idc, qbd, sqd, piq, rfl, hidc⟩ | ⟨k, rfl⟩ | rfl := h.of_latched he
  · obtain ⟨-, -, rfl⟩ := h
    simp [exec, execCinit, issue, cinitBody, hidc, complete, returnFromError]
  · obtain ⟨hc, rfl⟩ := h
    simp [exec, execRdctx, issue, hc, complete]
  · obtain ⟨hu, rfl⟩ := h
    simp [exec, execRdeng, issue, hu, complete, engineWord]

/-- A word that completes a command answers the same RESULT with ERR at 0 before it, and no error (R12, R147). -/
theorem issueWord_clear_of_completes {w : Word} {i : Instr} {s t : State} (h : issueWord w s = .next t)
    (hi : decodeWord w = .ok i) (hc : Completes i s t) :
    ∃ u, issueWord w { s with err := .none } = .next u ∧ u.err = .none ∧ u.result = t.result := by
  by_cases he : s.err = .none
  · have hs : { s with err := .none } = s := by rw [← he]
    have ht : t.err = .none := hc.err.2.elim (·.trans he) And.left
    exact ⟨t, hs ▸ h, ht, rfl⟩
  · refine ⟨{ t with err := .none }, ?_, rfl, rfl⟩
    simp only [issueWord, hi]
    exact hc.exec_clear he

/-- An action of the host that is neither a word nor a reset leaves RESULT and its indicator (R19, R20, R25). -/
theorem hostAct_result {a : HostAction} {s t : State} (h : hostAct a s = .next t) (hw : ∀ w, a ≠ .command w)
    (hr : a ≠ .reset) : t.result = s.result ∧ t.resultv = s.resultv := by
  obtain ⟨w, ha, -⟩ | ⟨ha, -⟩ | ⟨c, bytes, word, -, rfl⟩ := hostAct_cases h
  · exact absurd ha (hw w)
  · exact absurd ha hr
  · exact ⟨rfl, rfl⟩

/-- Settles O9, by cases on what a word can do and on the host's action. -/
theorem resultReadNeedsACompletedCommand : Obligations.ResultReadNeedsACompletedCommand := by
  refine ⟨fun s rest hp => ?_, fun w s t h => ?_, fun a s t rest hp h hw hr => ?_, fun s t rest hp h => ?_⟩
  · rw [step_of_pending hp]
    exact ⟨fun hv => if_pos hv, fun hv => if_neg (by simp [hv])⟩
  · obtain ⟨-, ht⟩ | ⟨-, e, he, rfl⟩ | ⟨i, hi, hc⟩ := issueWord_cases h
    · exact .inl ht
    · exact .inr (.inl ⟨he, rfl⟩)
    · exact .inr (.inr ⟨hc.host.1, ⟨i, hi⟩, issueWord_clear_of_completes h hi hc⟩)
  · rw [step_of_pending hp] at h
    exact hostAct_result (s := { s with port := rest }) h hw hr
  · rw [step_of_pending hp] at h
    cases h
    rfl

/-! ## The host's own actions -/

/-- A field written `k` bits up, as a number. -/
theorem ofNat_shiftLeft (a k : Nat) : BitVec.ofNat 32 a <<< k = BitVec.ofNat 32 (a * 2 ^ k) :=
  BitVec.eq_of_toNat_eq (by simp [Nat.shiftLeft_eq])

/-- Fields in bits that do not meet are added. -/
theorem ofNat_or_ofNat {a b : Nat} (k : Nat) (ha : 2 ^ k ∣ a) (hb : b < 2 ^ k) :
    BitVec.ofNat 32 a ||| BitVec.ofNat 32 b = BitVec.ofNat 32 (a + b) := by
  obtain ⟨c, rfl⟩ := ha
  rw [← BitVec.ofNat_or, Nat.two_pow_add_eq_or_of_lt hb]

/-- STATUS is its four fields in their places (R143). -/
theorem statusWord_eq (s : State) :
    statusWord s =
      BitVec.ofNat 32 (128 * s.selv.toNat + 64 * s.ctxv.toNat + 16 * s.eng.code.toNat + s.err.code.toNat) := by
  have hselv := s.selv.toNat_lt
  have hctxv := s.ctxv.toNat_lt
  have heng : s.eng.code.toNat < 4 := by cases s.eng <;> decide
  have herr : s.err.code.toNat < 16 := by cases s.err <;> decide
  calc statusWord s
      = BitVec.ofNat 32 (s.selv.toNat * 2 ^ 7) ||| BitVec.ofNat 32 (s.ctxv.toNat * 2 ^ 6) |||
          BitVec.ofNat 32 (s.eng.code.toNat * 2 ^ 4) ||| BitVec.ofNat 32 s.err.code.toNat := by
        simp only [statusWord, binWord, ← ofNat_shiftLeft, BitVec.ofNat_toNat, BitVec.setWidth_eq]
    _ = _ := by
        rw [ofNat_or_ofNat 7 (by omega) (by omega), ofNat_or_ofNat 6 (by omega) (by omega),
          ofNat_or_ofNat 4 (by omega) (by omega)]
        congr 1
        omega

/-- Settles O8: STATUS is its four fields, each with its code. -/
theorem statusReadHasNoSideEffect : Obligations.StatusReadHasNoSideEffect := by
  intro s rest hp
  rw [step_of_pending hp]
  simp only [hostAct, readStatus, statusWord_eq]
  cases s.eng <;> cases s.err <;> rfl

/-- Settles O10: each clause is the action's own rule. -/
theorem hostPlacesCursorAndBuffer : Obligations.HostPlacesCursorAndBuffer := by
  intro s rest
  refine ⟨fun c hp => ?_, fun bytes c hp => ?_, fun bytes hp => step_of_pending hp, fun hp => ?_⟩
  · rw [step_of_pending hp]
    exact ⟨fun hc => if_pos (by simpa [cursorFits] using hc), fun hc => if_neg (by simpa [cursorFits] using hc)⟩
  · rw [step_of_pending hp]
    simp only [hostAct, presentBuffer, cursorFits, decide_eq_true_eq]
    exact ⟨fun ha => if_pos ha, fun ha hc => by rw [if_neg ha, if_pos hc],
      fun ha hc => by rw [if_neg ha, if_neg (by omega)]⟩
  · exact ⟨_, step_of_pending hp, rfl, rfl, rfl, rfl, rfl, rfl⟩

/-- Where no register holds a value, any others in their place make no difference (R30). -/
theorem agreeOnHeld_of_unheld {s : State} (he : s.eng = .uninit) (hc : s.ctxv = false) (hs : s.selv = false)
    (hr : s.resultv = false) (range offset : BitVec 9) (contexts : Table 10 Ctx) (k : CtxIdx) (r : Word) :
    AgreeOnHeld s { s with codIRange := range, codIOffset := offset, ctx := contexts, selctx := k, result := r } where
  eng := rfl
  ctxv := rfl
  selv := rfl
  eq1cnt := rfl
  gt1cnt := rfl
  err := rfl
  resultv := rfl
  cursor := rfl
  buf := rfl
  config := rfl
  port := rfl
  readData := rfl
  registers := fun h => absurd he h
  contexts := fun h => by simp [hc] at h
  selctx := fun h => by simp [hs] at h
  result := fun h => by simp [hr] at h

/-- Settles O11: a reset clears every indicator, so no register holds a value. -/
theorem resetSetsTheUnitsState : Obligations.ResetSetsTheUnitsState :=
  ⟨fun s => ⟨rfl, rfl, rfl, rfl, rfl, rfl, rfl, agreeOnHeld_of_unheld (s := resetUnit s) rfl rfl rfl rfl⟩,
    rfl, rfl, rfl, rfl, rfl, rfl, agreeOnHeld_of_unheld (s := State.reset) rfl rfl rfl rfl⟩

end Sys2Proof.Machine

/-! SUPPORT. Bit input and the tables (20_memory): what ReadBit and ReadBits deliver, the index that CSEL sums from the tables,
and that no command sees EPB_POLICY or bytes past those it reads. -/

namespace Sys2Proof.Machine

open Sys2Proof

/-! ## Bit input -/

/-- A bit below 8*LEN, from its byte as a number (R38). -/
theorem readBit_of_lt {buf : List Byte} {c : Nat} (h : c < 8 * buf.length) :
    readBit buf c = some (decide ((buf.getD (c / 8) 0).toNat / 2 ^ (7 - c % 8) % 2 = 1)) := by
  have hbyte : c / 8 < buf.length := by omega
  simp [readBit, hbyte, BitVec.getLsbD, Nat.testBit_eq_decide_div_mod_eq]

/-- Settles O16, by whether the position lies below 8*LEN. -/
theorem readBitIsMostSignificantFirst : Obligations.ReadBitIsMostSignificantFirst := by
  intro buf c
  split
  · next h => exact readBit_eq_none h
  · next h => exact readBit_of_lt (by omega)

/-- Bits that all lie below the end are summed, the first the most significant (R39). -/
theorem readBits_of_le {buf : List Byte} {n c : Nat} (h : c + n ≤ 8 * buf.length) :
    readBits buf n c =
      some (∑ i ∈ Finset.range n, ((readBit buf (c + i)).getD false).toNat * 2 ^ (n - 1 - i)) := by
  induction n generalizing c with
  | zero => rfl
  | succ n ih =>
    obtain ⟨b, hb⟩ := readBit_eq_some (buf := buf) (c := c) (by omega)
    have hrest : ∑ i ∈ Finset.range n, ((readBit buf (c + 1 + i)).getD false).toNat * 2 ^ (n - 1 - i) =
        ∑ i ∈ Finset.range n, ((readBit buf (c + (i + 1))).getD false).toNat * 2 ^ (n - (i + 1)) :=
      Finset.sum_congr rfl fun i _ => by rw [Nat.add_right_comm, Nat.sub_right_comm]; rfl
    rw [readBits, hb, ih (by omega), hrest, Finset.sum_range_succ']
    simp [hb, Nat.add_comm]

/-- Settles O17: bits below the end by induction on their number, and a read that finds them all ends below it. -/
theorem readBitsIsBigEndian : Obligations.ReadBitsIsBigEndian := by
  intro buf n c
  refine ⟨readBits_of_le, fun hn hc => Option.eq_none_iff_forall_ne_some.mpr fun v hv => ?_⟩
  have := le_of_readBits hn hv
  omega

/-! ## The index that CSEL sums -/

/-- CSEL's result word is KIND above the index, as a number (R70). -/
theorem selectionWord_eq {sel : Selection} (h : sel.ctxIdx < 1024) :
    selectionWord sel = BitVec.ofNat 32 (sel.kind.code * 4096 + sel.ctxIdx) := by
  rw [selectionWord, ofNat_shiftLeft, ofNat_or_ofNat 12 (Nat.dvd_mul_left _ _) (by omega)]
  rfl

/-- What is selected belongs to an admitted element, in a supported category where it reads one (R62, R63). -/
theorem admitted_of_select {t : ConstTables} {se : SyntaxElement} {cat : BlockCat} {idx : Nat} {a b x c : Bool}
    {eq1 gt1 : Nat} {sel : Selection} (h : select t se cat idx a b x c eq1 gt1 = some sel) :
    se.isReserved = false ∧ se.isUnsupported = false ∧ (se.isResidual && cat.isUnsupported) = false := by
  have hcat : ctxBlockCatOffset t se cat ≠ none := by
    intro hn
    simp [select, hn] at h
  cases se with
  | mbSkip | mbTypeP | mbTypeB | subMbType | mvd | refIdx | mbField | sigField | lastField | mbTypeSi | reserved _ =>
    exact absurd rfl hcat
  | cbf | sig | last | absLevel =>
    cases cat with
    | cat6 | cat7 => exact absurd rfl hcat
    | _ => exact ⟨rfl, rfl, rfl⟩
  | _ => exact ⟨rfl, rfl, rfl⟩

/-- A CSEL in range reports what it selects, and stops where the index does not fit SELCTX (R102, R8). -/
theorem exec_csel_of_select {s : State} {se : SyntaxElement} {cat : BlockCat} {idx : Nat} {a b x c : Bool}
    {sel : Selection} (he : s.err = .none) (hi : idxOutOfRange se cat idx c = false)
    (hs : select s.config.tables se cat idx a b x c s.eq1cnt.toNat s.gt1cnt.toNat = some sel) :
    exec (.csel se cat idx a b x c) s =
      if sel.ctxIdx < 1024 then .next (s.selected sel.kind sel.ctxIdx) else .fault .valueDoesNotFit := by
  obtain ⟨hr, hu, hc⟩ := admitted_of_select hs
  have hbody : cselBody se cat idx a b x c s = finishSelect sel s := by simp [cselBody, hi, hr, hu, hc, hs]
  rw [exec, execCsel, issue_runs _ (.inl he), hbody]
  by_cases hlt : sel.ctxIdx < 1024
  · rw [finishSelect_fits hlt, selectionWord_eq hlt, if_pos hlt]
    rfl
  · rw [finishSelect, if_neg hlt, if_neg hlt]

/-- An IDX up to the largest of its element is in range (R103). -/
theorem idxOutOfRange_of_le {se : SyntaxElement} {cat : BlockCat} {idx n : Nat} {c : Bool}
    (h : idxMax se cat c = some n) (hle : idx ≤ n) : idxOutOfRange se cat idx c = false := by
  simp [idxOutOfRange, h, hle]

/-- An 8x8 map is read at its own entries (R106). -/
theorem mapEntry_of_lt {m : Vector Nat 63} {idx : Nat} (h : idx < 63) : mapEntry m idx = m[idx] := by
  simp [mapEntry, h]

/-- R100, for any tables: the index of a context-coded bin is the sum of its element's offset, its category's and its
increment. -/
theorem selectsSum {s : State} {se : SyntaxElement} {cat : BlockCat} {idx : Nat} {a b x c : Bool}
    {offset catOffset k : Nat} (he : s.err = .none)
    (ho : ctxIdxOffset s.config.tables se cat = some offset)
    (hc : ctxBlockCatOffset s.config.tables se cat = some catOffset)
    (hi : idxOutOfRange se cat idx c = false) (hb : binKind se idx = .context)
    (hk : offset + catOffset + ctxIdxInc s.config.tables se cat idx a b x c s.eq1cnt.toNat s.gt1cnt.toNat = k) :
    SelectsSum s se cat idx a b x c k := by
  have hs : select s.config.tables se cat idx a b x c s.eq1cnt.toNat s.gt1cnt.toNat = some ⟨.context, k⟩ := by
    simp [select, ho, hc, hb, hk]
  exact ⟨exec_csel_of_select he hi hs, fun ht => select_lt (ht ▸ intendedTables_checked) hi hs⟩

section

variable {s : State} {cat : BlockCat} {offset catOffset : Nat}

/-- R119 at bin 0: the increment counts the levels of absolute value 1, and is 0 after a greater one. -/
theorem selectsSum_absLevel_zero (a b x c : Bool) (he : s.err = .none)
    (ho : ctxIdxOffset s.config.tables .absLevel cat = some offset)
    (hc : ctxBlockCatOffset s.config.tables .absLevel cat = some catOffset) :
    SelectsSum s .absLevel cat 0 a b x c
      (offset + catOffset + if s.gt1cnt.toNat = 0 then min 4 (1 + s.eq1cnt.toNat) else 0) :=
  selectsSum he ho hc rfl rfl (by simp [ctxIdxInc, absLevelInc])

/-- R119 at bins 1 to 13: the increment counts the levels greater than 1, one fewer of them in chroma DC. -/
theorem selectsSum_absLevel_pos {idx : Nat} (a b x c : Bool) (he : s.err = .none)
    (ho : ctxIdxOffset s.config.tables .absLevel cat = some offset)
    (hc : ctxBlockCatOffset s.config.tables .absLevel cat = some catOffset) (h1 : 1 ≤ idx) (h13 : idx ≤ 13) :
    SelectsSum s .absLevel cat idx a b x c
      (offset + catOffset + (5 + min (if cat = .chromaDC then 3 else 4) s.gt1cnt.toNat)) := by
  refine selectsSum he ho hc (idxOutOfRange_of_le rfl (h13.trans (by decide))) (if_pos h13) ?_
  have hidx : idx ≠ 0 := by omega
  by_cases hdc : cat = .chromaDC <;> simp [ctxIdxInc, absLevelInc, hidx, hdc]

end

/-- Settles O36: element by element the sum of R100 has the offset, the category's offset and the increment that the
statement writes out. The arguments of `selectsSum` after ERR are those two offsets, the range check, the kind and the sum. -/
theorem cselIndexIsASumOfItsTables : Obligations.CselIndexIsASumOfItsTables := by
  intro s cat idx a b x c he t o picks
  refine ⟨⟨?_, ?_, ?_, ?_, ?_, ?_⟩, ?_, ?_, ?_, ?_, ?_, ?_, ?_, ?_, ?_, ?_, ?_, ?_, ?_, ?_, ?_, ?_⟩
  -- mb_type, bins 0 and 2 to 6
  · exact selectsSum he rfl rfl rfl rfl rfl
  · exact selectsSum he rfl rfl rfl rfl rfl
  · exact selectsSum he rfl rfl rfl rfl rfl
  · exact selectsSum he rfl rfl rfl rfl rfl
  · exact selectsSum he rfl rfl rfl rfl rfl
  · exact selectsSum he rfl rfl rfl rfl rfl
  -- the flags, rem_intra_pred_mode and intra_chroma_pred_mode
  · exact selectsSum he rfl rfl rfl rfl rfl
  · exact selectsSum he rfl rfl rfl rfl rfl
  · exact fun hi => selectsSum he rfl rfl (idxOutOfRange_of_le rfl hi) rfl rfl
  · exact selectsSum he rfl rfl rfl rfl rfl
  · rintro (rfl | rfl)
    · exact selectsSum he rfl rfl rfl rfl rfl
    · exact selectsSum he rfl rfl rfl rfl rfl
  -- coded_block_pattern and mb_qp_delta
  · exact fun hi => selectsSum he rfl rfl (idxOutOfRange_of_le rfl hi) rfl rfl
  · exact selectsSum he rfl rfl rfl rfl (congrArg (o.cbpChroma + ·) (Nat.zero_add _))
  · exact selectsSum he rfl rfl rfl rfl rfl
  · exact selectsSum he rfl rfl rfl rfl rfl
  · exact selectsSum he rfl rfl rfl rfl rfl
  · intro h2 h63
    refine selectsSum he rfl rfl (idxOutOfRange_of_le rfl h63) rfl ?_
    rw [ctxIdxInc, if_neg (by omega), if_neg (by omega)]
  -- the residual elements, category by category
  · intro p hp
    fin_cases hp <;> exact selectsSum he rfl rfl rfl rfl rfl
  · intro p hp hi
    fin_cases hp <;>
      exact ⟨selectsSum he rfl rfl (idxOutOfRange_of_le rfl hi) rfl rfl,
        selectsSum he rfl rfl (idxOutOfRange_of_le rfl hi) rfl rfl⟩
  · intro hi
    cases c <;>
      exact ⟨selectsSum he rfl rfl (idxOutOfRange_of_le rfl hi) rfl rfl,
        selectsSum he rfl rfl (idxOutOfRange_of_le rfl hi) rfl rfl⟩
  · intro h
    have hi : idx ≤ 62 := by omega
    exact ⟨selectsSum he rfl rfl (idxOutOfRange_of_le rfl hi) rfl (congrArg (_ + ·) (mapEntry_of_lt h)),
      selectsSum he rfl rfl (idxOutOfRange_of_le rfl hi) rfl (congrArg (_ + ·) (mapEntry_of_lt h))⟩
  · intro p hp
    fin_cases hp <;>
      exact ⟨selectsSum_absLevel_zero a b x c he rfl rfl, selectsSum_absLevel_pos a b x c he rfl rfl⟩

/-! ## The host's side that no command sees -/

/-- The state with EPB_POLICY set to `p` and `more` bytes after those of BUF: what the host can do to a run that a command
with its bits in BUF does not see (R50, R52). -/
def State.supplied (more : List Byte) (p : Bool) (s : State) : State :=
  { s.withEpbPolicy p with buf := s.buf ++ more }

/-- With no bytes added only EPB_POLICY is set. -/
theorem State.supplied_nil (p : Bool) (s : State) : s.supplied [] p = s.withEpbPolicy p := by
  simp [supplied, withEpbPolicy]

/-- A longer buffer delivers the same bit, unless the shorter one had none there (R38, R50). -/
theorem readBit_supplied (buf more : List Byte) (c : Nat) :
    readBit (buf ++ more) c = readBit buf c ∨ (readBit buf c = none ∧ more ≠ []) := by
  cases hb : readBit buf c with
  | some b => exact .inl (readBit_append hb)
  | none =>
    by_cases hm : more = []
    · exact .inl (by rw [hm, List.append_nil, hb])
    · exact .inr ⟨rfl, hm⟩

/-- A longer buffer delivers the same bits, unless the shorter one had too few (R39, R50). -/
theorem readBits_supplied (buf more : List Byte) (n c : Nat) :
    readBits (buf ++ more) n c = readBits buf n c ∨ (readBits buf n c = none ∧ more ≠ []) := by
  induction n generalizing c with
  | zero => exact .inl rfl
  | succ n ih =>
    obtain hb | ⟨hb, hm⟩ := readBit_supplied buf more c
    · obtain hr | ⟨hr, hm⟩ := ih (c + 1)
      · exact .inl (by rw [readBits, readBits, hb, hr])
      · refine .inr ⟨?_, hm⟩
        rw [readBits, hr]
        cases readBit buf c <;> rfl
    · exact .inr ⟨by rw [readBits, hb], hm⟩

/-- RenormD over a longer buffer ends alike, unless the shorter one had too few bits (R88, R50). -/
theorem renorm_supplied (buf more : List Byte) (v : EngineVals) :
    renorm (buf ++ more) v = renorm buf v ∨ (renorm buf v = none ∧ more ≠ []) := by
  induction hk : 8 * buf.length - v.cursor using Nat.strong_induction_on generalizing v with
  | _ k ih =>
    by_cases hr : v.range < 256
    · rw [renorm_of_lt hr, renorm_of_lt hr]
      obtain hb | ⟨hb, hm⟩ := readBit_supplied buf more v.cursor
      · rw [hb]
        cases hv : readBit buf v.cursor with
        | none => exact .inl rfl
        | some b =>
          have hc := lt_of_readBit hv
          exact ih _ (by simp only; omega) _ rfl
      · exact .inr ⟨by rw [hb], hm⟩
    · rw [renorm_of_ge (by omega), renorm_of_ge (by omega)]
      exact .inl rfl

/-! ### Alike but for what was added -/

/-- Two ends of a command's rule alike but for what the host has added, or the first has run out of bits (`short`), where the
second may end in any way. Such a rule differs only over a buffer that was extended, and its opcode is refused under a
latched error (R147), so that the code is latched. -/
inductive SuppliedEnd (more : List Byte) (p : Bool) (op : Opcode) : CmdEnd → CmdEnd → Prop
  | done (s : State) : SuppliedEnd more p op (.done s) (.done (s.supplied more p))
  | raise (e : ErrCode) : SuppliedEnd more p op (.raise e) (.raise e)
  | misfit : SuppliedEnd more p op .misfit .misfit
  | short (hop : op.exempt = false) (hm : more ≠ []) (b : CmdEnd) : SuppliedEnd more p op (.raise .exhausted) b

/-- Two outcomes alike but for what the host has added, or the buffer was extended and the first has E_EXHAUSTED latched. -/
def SuppliedOutcome (more : List Byte) (p : Bool) (o q : Host.Outcome State Fault Refusal) : Prop :=
  AgreeOutcome (fun u v => v = u.supplied more p) o q ∨ (more ≠ [] ∧ ∃ t, o = .next t ∧ t.err = .exhausted)

section

variable {more : List Byte} {p : Bool} {s : State}

@[simp] theorem supplied_err : (s.supplied more p).err = s.err := rfl
@[simp] theorem supplied_cursor : (s.supplied more p).cursor = s.cursor := rfl
@[simp] theorem supplied_eq1cnt : (s.supplied more p).eq1cnt = s.eq1cnt := rfl
@[simp] theorem supplied_gt1cnt : (s.supplied more p).gt1cnt = s.gt1cnt := rfl
@[simp] theorem supplied_buf : (s.supplied more p).buf = s.buf ++ more := rfl
@[simp] theorem supplied_tables : (s.supplied more p).config.tables = s.config.tables := rfl

/-- Rules that branch on the same condition end alike where their branches do. -/
theorem SuppliedEnd.branch {op : Opcode} {b b' d d' : CmdEnd} {q : Prop} {i j : Decidable q}
    (hb : SuppliedEnd more p op b b') (hd : SuppliedEnd more p op d d') :
    SuppliedEnd more p op (@ite _ q i b d) (@ite _ q j b' d') := by
  by_cases hq : q
  · rwa [if_pos hq, if_pos hq]
  · rwa [if_neg hq, if_neg hq]

/-- An error is latched alike. -/
theorem takeError_supplied (e : ErrCode) : takeError e (s.supplied more p) = (takeError e s).supplied more p := by
  unfold takeError
  rw [supplied_err]
  split <;> rfl

/-- Issuing a command is alike where its rule ends alike. -/
theorem issue_supplied {op : Opcode} {b c : CmdEnd} (h : SuppliedEnd more p op b c) :
    SuppliedOutcome more p (issue op s b) (issue op (s.supplied more p) c) := by
  by_cases hr : s.err ≠ .none ∧ op.exempt = false
  · rw [issue_refused _ hr.1 hr.2, issue_refused _ (s := s.supplied more p) hr.1 hr.2]
    exact .inl rfl
  · have hg : s.err = .none ∨ op.exempt = true := by simpa [or_iff_not_imp_left] using hr
    rw [issue_runs _ hg, issue_runs _ (s := s.supplied more p) hg]
    cases h with
    | done u => exact .inl rfl
    | raise e => exact .inl (takeError_supplied e)
    | misfit => exact .inl rfl
    | short hop hm =>
      have he : s.err = .none := hg.resolve_right (by simp [hop])
      exact .inr ⟨hm, _, rfl, by rw [takeError_of_clear _ he]⟩

/-- A decoding command that stores the same values ends alike. -/
theorem finishEngine_supplied (op : Opcode) (v : EngineVals) (bin : Bool) :
    SuppliedEnd more p op (finishEngine v bin s) (finishEngine v bin (s.supplied more p)) :=
  .branch (.done _) .misfit

/-- A CSEL that selects the same ends alike. -/
theorem finishSelect_supplied (op : Opcode) (sel : Selection) :
    SuppliedEnd more p op (finishSelect sel s) (finishSelect sel (s.supplied more p)) :=
  .branch (.done _) .misfit

/-! ### The commands' rules -/

/-- CINIT reads CTX_INIT_MN alone (R76). -/
theorem cinitBody_supplied (op : Opcode) (slt : SliceType) (idc qbd : Nat) (sqd piq : Int) :
    SuppliedEnd more p op (cinitBody slt idc qbd sqd piq s) (cinitBody slt idc qbd sqd piq (s.supplied more p)) := by
  cases slt with
  | i => exact .branch (.raise _) (.done _)
  | reserved code => exact .raise _
  | _ => exact .branch (.raise _) (.raise _)

/-- EINIT reads nine bits (R77). -/
theorem execEinit_supplied : SuppliedOutcome more p (execEinit s) (execEinit (s.supplied more p)) := by
  refine issue_supplied ?_
  rw [supplied_buf, supplied_cursor]
  obtain hr | ⟨hr, hm⟩ := readBits_supplied s.buf more 9 s.cursor
  · rw [hr]
    cases readBits s.buf 9 s.cursor with
    | none => exact .raise _
    | some v => exact .branch (.raise _) (.done _)
  · rw [hr]
    exact .short rfl hm _

/-- A rule that renormalises and goes on is alike where the rest of it is, or ran out of bits (R88). -/
theorem renormEnd_supplied {op : Opcode} (hop : op.exempt = false) (v : EngineVals) {f g : EngineVals → CmdEnd}
    (h : ∀ w, SuppliedEnd more p op (f w) (g w)) :
    SuppliedEnd more p op (match renorm s.buf v with | none => .raise .exhausted | some w => f w)
      (match renorm (s.supplied more p).buf v with | none => .raise .exhausted | some w => g w) := by
  rw [supplied_buf]
  obtain hr | ⟨hr, hm⟩ := renorm_supplied s.buf more v
  · rw [hr]
    cases renorm s.buf v with
    | none => exact .raise _
    | some w => exact h w
  · rw [hr]
    exact .short hop hm _

/-- DEC reads bits in RenormD alone (R83). -/
theorem decBody_supplied (ci : CtxIdx) :
    SuppliedEnd more p .dec (decBody ci s) (decBody ci (s.supplied more p)) := by
  refine .branch (.raise _) ?_
  exact renormEnd_supplied rfl _ fun w => finishEngine_supplied (s := { s with ctx := s.ctx.set ci _ }) _ _ _

/-- DEC.S is DEC, where SELV = 1 (R83). -/
theorem execDecS_supplied : SuppliedOutcome more p (execDecS s) (execDecS (s.supplied more p)) :=
  issue_supplied (.branch (.raise _) (decBody_supplied _))

/-- BYP reads one bit (R86). -/
theorem execByp_supplied : SuppliedOutcome more p (execByp s) (execByp (s.supplied more p)) := by
  refine issue_supplied (.branch (.raise _) ?_)
  rw [supplied_buf, supplied_cursor]
  obtain hr | ⟨hr, hm⟩ := readBit_supplied s.buf more s.cursor
  · rw [hr]
    cases readBit s.buf s.cursor with
    | none => exact .raise _
    | some b => exact .branch (finishEngine_supplied _ _ _) (finishEngine_supplied _ _ _)
  · rw [hr]
    exact .short rfl hm _

/-- TRM reads bits in RenormD alone, and none where it terminates (R87). -/
theorem execTrm_supplied : SuppliedOutcome more p (execTrm s) (execTrm (s.supplied more p)) := by
  refine issue_supplied (.branch (.raise _) (.branch ?_ ?_))
  · exact finishEngine_supplied (s := { s with eng := .terminated }) _ _ _
  · exact renormEnd_supplied rfl _ fun w => finishEngine_supplied _ _ _

/-- CSEL reads the tables and the two counters (R102). -/
theorem cselBody_supplied (op : Opcode) (se : SyntaxElement) (cat : BlockCat) (idx : Nat) (a b x c : Bool) :
    SuppliedEnd more p op (cselBody se cat idx a b x c s) (cselBody se cat idx a b x c (s.supplied more p)) := by
  refine .branch (.raise _) (.branch (.raise _) (.branch (.raise _) (.branch (.raise _) ?_)))
  rw [supplied_tables, supplied_eq1cnt, supplied_gt1cnt]
  cases select s.config.tables se cat idx a b x c s.eq1cnt.toNat s.gt1cnt.toNat with
  | none => exact .raise _
  | some sel => exact finishSelect_supplied _ _

/-- Every command is alike, or ran out of bits. -/
theorem exec_supplied (i : Instr) : SuppliedOutcome more p (exec i s) (exec i (s.supplied more p)) := by
  cases i with
  | cinit slt idc qbd sqd piq => exact issue_supplied (cinitBody_supplied .cinit slt idc qbd sqd piq)
  | einit => exact execEinit_supplied
  | dec k => exact issue_supplied (decBody_supplied k)
  | decS => exact execDecS_supplied
  | byp => exact execByp_supplied
  | trm => exact execTrm_supplied
  | csel se cat idx a b x c => exact issue_supplied (cselBody_supplied .csel se cat idx a b x c)
  | lvlrst => exact issue_supplied (.done _)
  | lvlacc g => cases g <;> exact issue_supplied (.done _)
  | rdctx k => exact issue_supplied (.branch (.raise _) (.done _))
  | rdeng => exact issue_supplied (.branch (.raise _) (.done _))

end

/-- An outcome like a next state is one. -/
theorem AgreeOutcome.of_next {R : State → State → Prop} {t : State} {o : Host.Outcome State Fault Refusal}
    (h : AgreeOutcome R (.next t) o) : ∃ u, o = .next u ∧ R t u := by
  cases o with
  | next u => exact ⟨u, rfl, h⟩
  | fault r => exact h.elim
  | refused r => exact h.elim

/-- Settles O55: a command that did not run out of bits reads the same ones from the longer buffer. -/
theorem extendingTheBufferChangesNoCompletedCommand : Obligations.ExtendingTheBufferChangesNoCompletedCommand := by
  intro i more s t h ht
  obtain ⟨hbuf, hconfig, -, -⟩ := exec_host h
  obtain hsame | ⟨-, u, hu, he⟩ := exec_supplied (more := more) (p := s.config.epbPolicy) (s := s) i
  · rw [h] at hsame
    obtain ⟨u, hu, rfl⟩ := hsame.of_next
    have hext : { t with buf := s.buf ++ more } = t.supplied more s.config.epbPolicy := by
      rw [← hbuf, ← hconfig]
      rfl
    rw [hext]
    exact hu
  · cases h.symm.trans hu
    exact absurd he ht

/-! ## EPB_POLICY -/

section

variable (p : Bool) (s : State)

/-- No command reads EPB_POLICY (R52): with nothing added to BUF, none runs out of bits for the lack of it. -/
theorem exec_withEpbPolicy (i : Instr) :
    AgreeOutcome (fun u v => v = u.withEpbPolicy p) (exec i s) (exec i (s.withEpbPolicy p)) := by
  obtain h | ⟨hm, -⟩ := exec_supplied (more := []) (p := p) (s := s) i
  · simpa only [State.supplied_nil] using h
  · exact absurd rfl hm

/-- An action alike on both sides of a condition that does not read EPB_POLICY is alike. -/
theorem agreeOutcome_branch {R : State → State → Prop} {o o' q q' : Host.Outcome State Fault Refusal} {c : Prop}
    {i j : Decidable c} (ho : AgreeOutcome R o o') (hq : AgreeOutcome R q q') :
    AgreeOutcome R (@ite _ c i o q) (@ite _ c j o' q') := by
  by_cases hc : c
  · rwa [if_pos hc, if_pos hc]
  · rwa [if_neg hc, if_neg hc]

/-- A rejected word latches its error whatever EPB_POLICY is. -/
theorem rejectWord_withEpbPolicy (w : Word) (e : DecodeError) :
    rejectWord w e (s.withEpbPolicy p) = (rejectWord w e s).withEpbPolicy p := by
  have herr : takeError (decodeErrCode e) (s.withEpbPolicy p) = (takeError (decodeErrCode e) s).withEpbPolicy p := by
    simpa only [State.supplied_nil] using takeError_supplied (more := []) (p := p) (s := s) (decodeErrCode e)
  rw [rejectWord, herr, rejectWord, apply_ite (State.withEpbPolicy p)]
  rfl

/-- No word makes the unit read EPB_POLICY. -/
theorem issueWord_withEpbPolicy (w : Word) :
    AgreeOutcome (fun u v => v = u.withEpbPolicy p) (issueWord w s) (issueWord w (s.withEpbPolicy p)) := by
  unfold issueWord
  cases decodeWord w with
  | ok i => exact exec_withEpbPolicy p s i
  | error e => exact rejectWord_withEpbPolicy p s w e

/-- No action of the host makes the unit read EPB_POLICY. -/
theorem hostAct_withEpbPolicy (a : HostAction) :
    AgreeOutcome (fun u v => v = u.withEpbPolicy p) (hostAct a s) (hostAct a (s.withEpbPolicy p)) := by
  cases a with
  | command w => exact issueWord_withEpbPolicy p s w
  | setCursor c => exact agreeOutcome_branch rfl rfl
  | present bytes c => exact agreeOutcome_branch rfl (agreeOutcome_branch rfl rfl)
  | extend bytes => exact rfl
  | readResult => exact agreeOutcome_branch rfl rfl
  | readStatus => exact rfl
  | reset => exact rfl

end

/-- Settles O54, by cases on the action that the step takes. -/
theorem epbPolicyChangesNoStep : Obligations.EpbPolicyChangesNoStep := by
  intro p s
  cases hp : s.port with
  | nil =>
    rw [step_of_idle hp, step_of_idle (s := s.withEpbPolicy p) hp]
    exact rfl
  | cons a rest =>
    rw [step_of_pending hp, step_of_pending (s := s.withEpbPolicy p) hp]
    exact hostAct_withEpbPolicy p { s with port := rest } a

end Sys2Proof.Machine

/-! SUPPORT. The encoding (30_encoding): each format read and written, so that a command and its word determine each other;
the words that are rejected and the operands that are illegal; and what CSEL reads and reports. -/

namespace Sys2Proof

/-! ## A word and its command -/

/-- A word is its opcode field and its operand bits (R54). -/
theorem word_eq_of_fields (w : Word) : BitVec.ofNat 32 (bits w 31 28 * 2 ^ 28 + bits w 27 0) = w := by
  have hw := w.isLt
  refine BitVec.eq_of_toNat_eq ?_
  simp only [bits, BitVec.toNat_ofNat]
  omega

/-- Two fields side by side, the lower one down to bit 0, are one. -/
theorem bits_split (w : Word) {hi m : Nat} (h : m < hi) :
    bits w hi 0 = bits w hi (m + 1) * 2 ^ (m + 1) + bits w m 0 := by
  have hpow : 2 ^ (hi + 1) = 2 ^ (m + 1) * 2 ^ (hi + 1 - (m + 1)) := by
    rw [← pow_add]
    congr 1
    omega
  simp only [bits, Nat.sub_zero, pow_zero, Nat.div_one, hpow, Nat.mod_mul]
  ring

/-- A one-bit field as a number. -/
theorem bitOf_toNat (w : Word) (i : Nat) : (bitOf w i).toNat = bits w i i := by
  have hlt : bits w i i < 2 := by simpa using bits_lt w i i
  unfold bitOf
  interval_cases bits w i i <;> rfl

/-- A one-bit field that holds a flag is that flag. -/
theorem bitOf_of_bits {w : Word} {i : Nat} {a : Bool} (h : bits w i i = a.toNat) : bitOf w i = a := by
  rw [bitOf, h]
  cases a <;> rfl

/-- The opcode and the operand bits of a well-formed command stand in its word (R54 to R60). -/
theorem encode_layout {i : Instr} (h : i.wellFormed = true) :
    bits (encode i) 31 28 = i.opcode.number ∧ bits (encode i) 27 0 = i.operandBits := by
  cases i with
  | cinit slt idc qbd sqd piq => exact Laws.EncodeLayout.cinit slt idc qbd sqd piq h
  | einit => exact Laws.EncodeLayout.einit h
  | dec k => exact Laws.EncodeLayout.dec k h
  | decS => exact Laws.EncodeLayout.decS h
  | byp => exact Laws.EncodeLayout.byp h
  | trm => exact Laws.EncodeLayout.trm h
  | csel se cat idx a b x c => exact Laws.EncodeLayout.csel se cat idx a b x c h
  | lvlrst => exact Laws.EncodeLayout.lvlrst h
  | lvlacc g => exact Laws.EncodeLayout.lvlacc g h
  | rdctx k => exact Laws.EncodeLayout.rdctx k h
  | rdeng => exact Laws.EncodeLayout.rdeng h

/-- The opcode of a well-formed command's word is the command's (R54). -/
theorem wordOpcode_encode {i : Instr} (h : i.wellFormed = true) : wordOpcode (encode i) = some i.opcode := by
  rw [wordOpcode, (encode_layout h).1, opcodeOf_number]

/-- A command with the opcode and the operand bits of a word is encoded as that word. -/
theorem encode_eq_of_fields {w : Word} {i : Instr} (hop : wordOpcode w = some i.opcode)
    (hb : i.operandBits = bits w 27 0) : encode i = w := by
  rw [encode, opcode_number_of hop, hb, word_eq_of_fields]

/-! ## Each format, from the operand bits to the command -/

section

variable {w : Word}

/-- Format N reads its command where the operand bits are 0 (R55). -/
theorem formatN_of_operandBits (i : Instr) (hw : bits w 27 0 = 0) : formatN w i = .ok i := if_pos hw

/-- Format I reads CINIT's five fields (R56). -/
theorem formatI_of_operandBits {slt : SliceType} {idc qbd : Nat} {sqd piq : Int}
    (h : (Instr.cinit slt idc qbd sqd piq).wellFormed = true)
    (hw : bits w 27 0 = (Instr.cinit slt idc qbd sqd piq).operandBits) :
    formatI w = .ok (.cinit slt idc qbd sqd piq) := by
  simp only [Instr.wellFormed, Bool.and_eq_true, decide_eq_true_eq] at h
  obtain ⟨⟨⟨⟨hslt, hidc⟩, hqbd⟩, hsqd⟩, hpiq⟩ := h
  have hs := Laws.EncodeLayout.field8_lt sqd
  have hp := Laws.EncodeLayout.field8_lt piq
  simp only [Instr.operandBits] at hw
  have hSLT := bits_of_operand hw 27 25 slt.code (by decide) (by have := Laws.EncodeLayout.sliceType_code_lt slt; omega)
  have hIDC := bits_of_operand hw 24 23 idc (by decide) (by omega)
  have hQBD := bits_of_operand hw 22 16 qbd (by decide) (by omega)
  have hSQD := bits_of_operand hw 15 8 (field8 sqd) (by decide) (by omega)
  have hPIQ := bits_of_operand hw 7 0 (field8 piq) (by decide) (by omega)
  rw [formatI, hSLT, hIDC, hQBD, hSQD, hPIQ, sliceTypeOf_code slt hslt, signed8_field8 sqd hsqd,
    signed8_field8 piq hpiq]

/-- Format D with S = 0 reads DEC's CTX (R57). -/
theorem formatD_of_dec {k : CtxIdx} (hw : bits w 27 0 = k.toNat) : formatD w = .ok (.dec k) := by
  have hS : bitOf w 27 = false := bitOf_of_bits (bits_of_operand hw 27 27 0 (by decide) (by omega))
  have hZero := bits_of_operand hw 26 10 0 (by decide) (by omega)
  have hCTX := bits_of_operand hw 9 0 k.toNat (by decide) (by omega)
  simp [formatD, hZero, hS, hCTX]

/-- Format D with S = 1 reads DEC.S (R57). -/
theorem formatD_of_decS (hw : bits w 27 0 = 2 ^ 27) : formatD w = .ok .decS := by
  have hS : bitOf w 27 = true := bitOf_of_bits (bits_of_operand hw 27 27 1 (by decide) (by decide))
  have hZero := bits_of_operand hw 26 10 0 (by decide) (by decide)
  have hCTX := bits_of_operand hw 9 0 0 (by decide) (by decide)
  simp [formatD, hZero, hS, hCTX]

/-- Format S reads CSEL's seven fields (R58). -/
theorem formatS_of_operandBits {se : SyntaxElement} {cat : BlockCat} {idx : Nat} {a b x c : Bool}
    (h : (Instr.csel se cat idx a b x c).wellFormed = true)
    (hw : bits w 27 0 = (Instr.csel se cat idx a b x c).operandBits) :
    formatS w = .ok (.csel se cat idx a b x c) := by
  simp only [Instr.wellFormed, Bool.and_eq_true, decide_eq_true_eq] at h
  obtain ⟨hse, hidx⟩ := h
  have hcat := Laws.EncodeLayout.blockCat_code_lt cat
  have ha := a.toNat_lt
  have hb := b.toNat_lt
  have hx := x.toNat_lt
  have hc := c.toNat_lt
  simp only [Instr.operandBits] at hw
  have hSE := bits_of_operand hw 27 23 se.code (by decide)
    (by have := Laws.EncodeLayout.syntaxElement_code_lt se; omega)
  have hCAT := bits_of_operand hw 22 20 cat.code (by decide) (by omega)
  have hIDX := bits_of_operand hw 19 14 idx (by decide) (by omega)
  have hA := bitOf_of_bits (bits_of_operand hw 13 13 a.toNat (by decide) (by omega))
  have hB := bitOf_of_bits (bits_of_operand hw 12 12 b.toNat (by decide) (by omega))
  have hX := bitOf_of_bits (bits_of_operand hw 11 11 x.toNat (by decide) (by omega))
  have hC := bitOf_of_bits (bits_of_operand hw 10 10 c.toNat (by decide) (by omega))
  have hZero := bits_of_operand hw 9 0 0 (by decide) (by omega)
  rw [formatS, if_pos hZero, hSE, hCAT, hIDX, hA, hB, hX, hC, syntaxElementOf_code se hse, blockCatOf_code]

/-- Format L reads LVLACC's G (R59). -/
theorem formatL_of_operandBits {g : LevelClass} (hw : bits w 27 0 = g.code) : formatL w = .ok (.lvlacc g) := by
  have hg : g.code < 2 := by cases g <;> decide
  have hZero := bits_of_operand hw 27 1 0 (by decide) (by omega)
  have hG := bits_of_operand hw 0 0 g.code (by decide) (by omega)
  rw [formatL, if_pos hZero, bitOf, hG]
  cases g <;> rfl

/-- Format R reads RDCTX's CTX (R60). -/
theorem formatR_of_operandBits {k : CtxIdx} (hw : bits w 27 0 = k.toNat) : formatR w = .ok (.rdctx k) := by
  have hZero := bits_of_operand hw 27 10 0 (by decide) (by omega)
  have hCTX := bits_of_operand hw 9 0 k.toNat (by decide) (by omega)
  simp [formatR, hZero, hCTX]

/-- A word with the opcode and the operand bits of a well-formed command decodes to it (R71). -/
theorem decodeWord_of_fields {i : Instr} (h : i.wellFormed = true) (hop : wordOpcode w = some i.opcode)
    (hw : bits w 27 0 = i.operandBits) : decodeWord w = .ok i := by
  rw [decodeWord, hop]
  cases i with
  | cinit slt idc qbd sqd piq => exact formatI_of_operandBits h hw
  | dec k => exact formatD_of_dec hw
  | decS => exact formatD_of_decS hw
  | csel se cat idx a b x c => exact formatS_of_operandBits h hw
  | lvlacc g => exact formatL_of_operandBits hw
  | rdctx k => exact formatR_of_operandBits hw
  | einit | byp | trm | lvlrst | rdeng => exact formatN_of_operandBits _ hw

/-! ## Each format, from the command back to the operand bits -/

variable {i : Instr}

/-- The command that a word decodes to has the word's operand bits, and its operands fit their fields. -/
def HoldsOperands (w : Word) (i : Instr) : Prop := i.operandBits = bits w 27 0 ∧ i.wellFormed = true

/-- What format I accepts (R56): the fields fill the operand bits. -/
theorem formatI_ok (h : formatI w = .ok i) : i.opcode = .cinit ∧ HoldsOperands w i := by
  cases h
  obtain ⟨hslt, hwf⟩ := code_sliceTypeOf (bits w 27 25) (bits_lt w 27 25)
  obtain ⟨hsqd, hsfit⟩ := field8_signed8 (bits w 15 8) (bits_lt w 15 8)
  obtain ⟨hpiq, hpfit⟩ := field8_signed8 (bits w 7 0) (bits_lt w 7 0)
  refine ⟨rfl, ?_, ?_⟩
  · have hSLT : bits w 27 0 = bits w 27 25 * 2 ^ 25 + bits w 24 0 := bits_split w (by decide)
    have hIDC : bits w 24 0 = bits w 24 23 * 2 ^ 23 + bits w 22 0 := bits_split w (by decide)
    have hQBD : bits w 22 0 = bits w 22 16 * 2 ^ 16 + bits w 15 0 := bits_split w (by decide)
    have hSQD : bits w 15 0 = bits w 15 8 * 2 ^ 8 + bits w 7 0 := bits_split w (by decide)
    simp only [Instr.operandBits, hslt, hsqd, hpiq]
    omega
  · have hidc : bits w 24 23 < 4 := bits_lt w 24 23
    have hqbd : bits w 22 16 < 128 := bits_lt w 22 16
    simp [Instr.wellFormed, hwf, hsfit, hpfit, hidc, hqbd]

/-- What format N accepts (R55): operand bits of 0. -/
theorem formatN_ok {j : Instr} (h : formatN w j = .ok i) (hj : j.operandBits = 0) (hwf : j.wellFormed = true) :
    i.opcode = j.opcode ∧ HoldsOperands w i := by
  unfold formatN at h
  split at h <;> cases h
  next hZero => exact ⟨rfl, hj.trans hZero.symm, hwf⟩

/-- What format D accepts (R57): a CTX with S = 0, or S alone. -/
theorem formatD_ok (h : formatD w = .ok i) : i.opcode = .dec ∧ HoldsOperands w i := by
  have hS := bitOf_toNat w 27
  have hop : bits w 27 0 = bits w 27 27 * 2 ^ 27 + bits w 26 0 := bits_split w (by decide)
  have hrest : bits w 26 0 = bits w 26 10 * 2 ^ 10 + bits w 9 0 := bits_split w (by decide)
  unfold formatD at h
  split at h
  · cases h
  · next hZero =>
    rw [ne_eq, not_not] at hZero
    split at h
    · next hs =>
      split at h <;> cases h
      next hCTX =>
      refine ⟨rfl, ?_, rfl⟩
      simp only [hs, Bool.toNat_true] at hS
      simp only [Instr.operandBits]
      omega
    · next hs =>
      cases h
      refine ⟨rfl, ?_, rfl⟩
      simp only [hs, Bool.toNat_false] at hS
      simp only [Instr.operandBits, BitVec.toNat_ofNat, Nat.mod_eq_of_lt (bits_lt w 9 0)]
      omega

/-- What format S accepts (R58): the fields fill the operand bits above bit 9. -/
theorem formatS_ok (h : formatS w = .ok i) : i.opcode = .csel ∧ HoldsOperands w i := by
  unfold formatS at h
  split at h <;> cases h
  next hZero =>
  obtain ⟨hse, hwf⟩ := code_syntaxElementOf (bits w 27 23) (bits_lt w 27 23)
  have hcat := code_blockCatOf (bits w 22 20) (bits_lt w 22 20)
  refine ⟨rfl, ?_, ?_⟩
  · have hSE : bits w 27 0 = bits w 27 23 * 2 ^ 23 + bits w 22 0 := bits_split w (by decide)
    have hCAT : bits w 22 0 = bits w 22 20 * 2 ^ 20 + bits w 19 0 := bits_split w (by decide)
    have hIDX : bits w 19 0 = bits w 19 14 * 2 ^ 14 + bits w 13 0 := bits_split w (by decide)
    have hA : bits w 13 0 = bits w 13 13 * 2 ^ 13 + bits w 12 0 := bits_split w (by decide)
    have hB : bits w 12 0 = bits w 12 12 * 2 ^ 12 + bits w 11 0 := bits_split w (by decide)
    have hX : bits w 11 0 = bits w 11 11 * 2 ^ 11 + bits w 10 0 := bits_split w (by decide)
    have hC : bits w 10 0 = bits w 10 10 * 2 ^ 10 + bits w 9 0 := bits_split w (by decide)
    simp only [Instr.operandBits, hse, hcat, bitOf_toNat]
    omega
  · have hidx : bits w 19 14 < 64 := bits_lt w 19 14
    simp [Instr.wellFormed, hwf, hidx]

/-- What format L accepts (R59): G alone. -/
theorem formatL_ok (h : formatL w = .ok i) : i.opcode = .lvlacc ∧ HoldsOperands w i := by
  unfold formatL at h
  split at h <;> cases h
  next hZero =>
  have hg : (levelClassOf (bitOf w 0)).code = (bitOf w 0).toNat := by cases bitOf w 0 <;> rfl
  refine ⟨rfl, ?_, rfl⟩
  have hop : bits w 27 0 = bits w 27 1 * 2 ^ 1 + bits w 0 0 := bits_split w (by decide)
  rw [Instr.operandBits, hg, bitOf_toNat]
  omega

/-- What format R accepts (R60): CTX alone. -/
theorem formatR_ok (h : formatR w = .ok i) : i.opcode = .rdctx ∧ HoldsOperands w i := by
  unfold formatR at h
  split at h <;> cases h
  next hZero =>
  refine ⟨rfl, ?_, rfl⟩
  have hop : bits w 27 0 = bits w 27 10 * 2 ^ 10 + bits w 9 0 := bits_split w (by decide)
  simp only [Instr.operandBits, BitVec.toNat_ofNat, Nat.mod_eq_of_lt (bits_lt w 9 0)]
  omega

/-- A word that decodes has the opcode and the operand bits of its command (R71). -/
theorem decodeWord_ok (h : decodeWord w = .ok i) : wordOpcode w = some i.opcode ∧ HoldsOperands w i := by
  have hfields : ∀ {op : Opcode}, wordOpcode w = some op → i.opcode = op ∧ HoldsOperands w i →
      wordOpcode w = some i.opcode ∧ HoldsOperands w i := fun hop h => ⟨hop.trans (congrArg some h.1.symm), h.2⟩
  unfold decodeWord at h
  split at h
  next => cases h
  next hop => exact hfields hop (formatI_ok h)
  next hop => exact hfields hop (formatN_ok h rfl rfl)
  next hop => exact hfields hop (formatD_ok h)
  next hop => exact hfields hop (formatN_ok h rfl rfl)
  next hop => exact hfields hop (formatN_ok h rfl rfl)
  next hop => exact hfields hop (formatS_ok h)
  next hop => exact hfields hop (formatN_ok h rfl rfl)
  next hop => exact hfields hop (formatL_ok h)
  next hop => exact hfields hop (formatR_ok h)
  next hop => exact hfields hop (formatN_ok h rfl rfl)

end

/-! ## Decoding and encoding -/

/-- Settles O2, format by format: each field of the encoded word is read from its operand bits, and its code goes round. -/
theorem decodeOfEncode : Obligations.DecodeOfEncode :=
  fun _ h => decodeWord_of_fields h (wordOpcode_encode h) (encode_layout h).2

/-- Settles O3, format by format: the fields read from a word and its must-be-0 bits fill its operand bits. -/
theorem encodeOfDecode : Obligations.EncodeOfDecode := by
  intro w i h
  obtain ⟨hop, hbits, hwf⟩ := decodeWord_ok h
  exact ⟨encode_eq_of_fields hop hbits, hwf⟩

/-- Settles O1: each word is decoded. -/
theorem writtenOutWordsDecode : Obligations.WrittenOutWordsDecode := by
  unfold Obligations.WrittenOutWordsDecode
  decide

end Sys2Proof

namespace Sys2Proof.Machine

open Sys2Proof

/-! ## The assembler's pseudo-instructions -/

/-- Settles O60: a line's commands are well-formed, so each is decoded from its word. -/
theorem assembledMacrosDecode : Obligations.AssembledMacrosDecode := by
  refine ⟨fun f hf => ?_, fun n => ?_⟩
  · simp [assemble, AsmLine.expand, decodeOfEncode _ hf, decodeOfEncode .decS rfl]
  · simp [assemble, AsmLine.expand, decodeOfEncode .byp rfl]

/-! ## Words that do not decode -/

/-- A rejected word latches its error where none is latched, and else does nothing, whether its opcode is exempt or not
(R147). -/
theorem rejectWord_eq (w : Word) (e : DecodeError) (s : State) :
    rejectWord w e s = if s.err = .none then { s with err := decodeErrCode e } else s := by
  by_cases he : s.err = .none
  · simp [rejectWord, takeError, he]
  · simp [rejectWord, takeError, he]

/-- A word that does not decode is rejected. -/
theorem issueWord_of_error {w : Word} {e : DecodeError} (h : decodeWord w = .error e) (s : State) :
    issueWord w s = .next (if s.err = .none then { s with err := decodeErrCode e } else s) := by
  rw [issueWord, h]
  exact congrArg _ (rejectWord_eq w e s)

/-- A word that decodes runs its command (R71). -/
theorem issueWord_of_ok {w : Word} {i : Instr} (h : decodeWord w = .ok i) (s : State) : issueWord w s = exec i s := by
  rw [issueWord, h]

/-- No opcode has the number 0 or a number above 10 (R54). -/
theorem opcodeOf_eq_none {n : Nat} (h : n = 0 ∨ 11 ≤ n) : opcodeOf n = none := by
  cases hop : opcodeOf n with
  | none => rfl
  | some op =>
    have hn := opcode_number_of hop
    have hrange : 1 ≤ op.number ∧ op.number ≤ 10 := by cases op <;> decide
    omega

/-- A word with an undefined opcode is no command (R64). -/
theorem decodeWord_of_undefined {w : Word} (h : bits w 31 28 = 0 ∨ 11 ≤ bits w 31 28) :
    decodeWord w = .error .illegalCommand := by
  rw [decodeWord, wordOpcode, opcodeOf_eq_none h]

/-- Settles O4: such a word does not decode. -/
theorem undefinedOpcodesRaiseIllegalCommand : Obligations.UndefinedOpcodesRaiseIllegalCommand :=
  fun _ s h => issueWord_of_error (decodeWord_of_undefined h) s

/-- Settles O6: a step takes the pending word off the port and issues it. -/
theorem stepRunsDecodedCommand : Obligations.StepRunsDecodedCommand := by
  intro s w rest hp
  have hstep : step s = issueWord w { s with port := rest } := step_of_pending hp
  refine ⟨hstep, fun i hi => ?_, fun he => ?_, fun he => ?_⟩
  · rw [hstep, issueWord_of_ok hi]
  · rw [hstep, issueWord_of_error he]
    rfl
  · rw [hstep, issueWord_of_error he]
    rfl

/-! ## Illegal operands -/

/-- The operands that a command's own rule calls illegal: CINIT's SLT is reserved, or CSEL's SE is, or its IDX is above its
range (R65 c, d). -/
def HasIllegalOperand : Instr → Prop
  | .cinit slt _ _ _ _ => ∃ code, slt = .reserved code
  | .csel se cat idx _ _ _ c => se.isReserved = true ∨ idxOutOfRange se cat idx c = true
  | .einit | .dec _ | .decS | .byp | .trm | .lvlrst | .lvlacc _ | .rdctx _ | .rdeng => False

/-- A rule that never completes with `e` latched raises `e` exactly where the command latches it. -/
theorem issue_latches_iff {op : Opcode} {s : State} {body : CmdEnd} {e : ErrCode} (he : s.err = .none)
    (hd : ∀ t, body = .done t → t.err ≠ e) : issue op s body = .next { s with err := e } ↔ body = .raise e := by
  rw [issue_runs _ (.inl he)]
  cases body with
  | done t =>
    have ht : t ≠ { s with err := e } := fun h => hd t rfl (by rw [h])
    simp [ht]
  | raise e' =>
    have hinj : ({ s with err := e' } : State) = { s with err := e } ↔ e' = e :=
      ⟨congrArg State.err, fun h => by rw [h]⟩
    simp [takeError_of_clear _ he, hinj]
  | misfit => simp

/-- CINIT calls its operands illegal exactly where SLT is reserved (R76). -/
theorem cinitBody_illegalOperand_iff {slt : SliceType} {idc qbd : Nat} {sqd piq : Int} {s : State} :
    cinitBody slt idc qbd sqd piq s = .raise .illegalOperand ↔ ∃ code, slt = .reserved code := by
  cases slt with
  | reserved code => simp [cinitBody]
  | _ =>
    simp only [cinitBody]
    split <;> simp

/-- CSEL calls its operands illegal exactly where SE is reserved or IDX out of range (R102). -/
theorem cselBody_illegalOperand_iff {se : SyntaxElement} {cat : BlockCat} {idx : Nat} {a b x c : Bool} {s : State} :
    cselBody se cat idx a b x c s = .raise .illegalOperand ↔
      se.isReserved = true ∨ idxOutOfRange se cat idx c = true := by
  unfold cselBody
  split
  · next hr => simp [hr]
  · next hr =>
    split
    · next hi => simp [hi]
    · next hi =>
      rw [iff_false_right (by simp [hr, hi])]
      split
      · simp
      · split
        · simp
        · split
          · simp
          · exact finishSelect_ne_raise

/-- While ERR is 0 a command latches E_ILLEGAL_OPERAND exactly for its illegal operands (R65, R145). -/
theorem exec_illegalOperand_iff {i : Instr} {s : State} (he : s.err = .none) :
    exec i s = .next { s with err := .illegalOperand } ↔ HasIllegalOperand i := by
  cases i with
  | cinit slt idc qbd sqd piq =>
    refine (issue_latches_iff he fun t ht => ?_).trans cinitBody_illegalOperand_iff
    obtain ⟨-, -, rfl⟩ := cinitBody_done ht
    simp
  | csel se cat idx a b x c =>
    refine (issue_latches_iff he fun t ht => ?_).trans cselBody_illegalOperand_iff
    obtain ⟨-, -, -, -, sel, -, -, rfl⟩ := cselBody_done ht
    simp [he]
  | _ =>
    refine iff_of_false (fun h => ?_) id
    obtain ⟨hn, -⟩ | ⟨-, e, hr, ht⟩ | hc := exec_cases h
    · exact hn he
    · obtain rfl : e = .illegalOperand := (congrArg State.err ht).symm
      simp [Raises] at hr
    · have herr := hc.err.2
      simp [he] at herr

/-- What the decoder answers is an illegal operand: a must-be-0 bit or DEC.S's CTX, or an operand that its command's rule
calls illegal (R65, R71; log 16). -/
def RejectsOperand : Except DecodeError Instr → Prop
  | .error e => e = .illegalOperand
  | .ok i => HasIllegalOperand i

/-- While ERR is 0 a word latches E_ILLEGAL_OPERAND exactly where the decoder or the command's rule rejects an operand. -/
theorem issueWord_illegalOperand_iff {w : Word} {s : State} (he : s.err = .none) :
    issueWord w s = .next { s with err := .illegalOperand } ↔ RejectsOperand (decodeWord w) := by
  cases hd : decodeWord w with
  | ok i =>
    rw [issueWord_of_ok hd]
    exact exec_illegalOperand_iff he
  | error e =>
    rw [issueWord_of_error hd, if_pos he]
    cases e with
    | illegalOperand => exact iff_of_true rfl rfl
    | illegalCommand => exact iff_of_false (fun h => by simp [decodeErrCode] at h) (by simp [RejectsOperand])

/-- Format N rejects operand bits that are not 0 (R55, R65 a). -/
theorem formatN_rejects_iff (w : Word) {i : Instr} (hi : ¬HasIllegalOperand i) :
    RejectsOperand (formatN w i) ↔ bits w 27 0 ≠ 0 := by
  unfold formatN
  split
  · next hZero => exact iff_of_false hi (not_not.mpr hZero)
  · next hZero => exact iff_of_true rfl hZero

/-- Format I rejects SLT 5 to 7 (R56, R65 c). -/
theorem formatI_rejects_iff (w : Word) : RejectsOperand (formatI w) ↔ 5 ≤ bits w 27 25 := by
  have hcode : ∀ n < 8, (∃ code, sliceTypeOf n = .reserved code) ↔ 5 ≤ n := by
    intro n hn
    interval_cases n <;> simp [sliceTypeOf]
  exact hcode _ (bits_lt w 27 25)

/-- Format D rejects set must-be-0 bits, and a CTX beside S (R57, R65 a, b). -/
theorem formatD_rejects_iff (w : Word) :
    RejectsOperand (formatD w) ↔ bits w 26 10 ≠ 0 ∨ (bits w 27 27 = 1 ∧ bits w 9 0 ≠ 0) := by
  unfold formatD
  split
  · next hZero => exact iff_of_true rfl (.inl hZero)
  · next hZero =>
    split
    · next hS =>
      have hS : bits w 27 27 = 1 := by simpa [bitOf] using hS
      split
      · next hCTX => exact iff_of_false id (by simp [not_not.mp hZero, hCTX])
      · next hCTX => exact iff_of_true rfl (.inr ⟨hS, hCTX⟩)
    · next hS =>
      have hS : bits w 27 27 ≠ 1 := by simpa [bitOf] using hS
      exact iff_of_false id (by simp [not_not.mp hZero, hS])

/-- The reserved elements are those with the codes 14, 15 and 26 to 31 (R62). -/
theorem isReserved_iff {se : SyntaxElement} (h : se.wellFormed = true) :
    se.isReserved = true ↔ se.code = 14 ∨ se.code = 15 ∨ 26 ≤ se.code := by
  cases se with
  | reserved code =>
    simp only [SyntaxElement.wellFormed, Bool.or_eq_true, beq_iff_eq, decide_eq_true_eq, or_assoc] at h
    exact iff_of_true rfl h
  | _ => exact iff_of_false (by decide) (by decide)

/-- Format S rejects set must-be-0 bits, a reserved SE, and an IDX above its element's range (R58, R65 a, d). -/
theorem formatS_rejects_iff (w : Word) :
    RejectsOperand (formatS w) ↔
      bits w 9 0 ≠ 0 ∨ bits w 27 23 = 14 ∨ bits w 27 23 = 15 ∨ 26 ≤ bits w 27 23 ∨
        IdxAboveR103 (bits w 27 23) (bits w 22 20) (bits w 19 14) (bits w 10 10) := by
  obtain ⟨hse, hwf⟩ := code_syntaxElementOf (bits w 27 23) (bits_lt w 27 23)
  have hcat := code_blockCatOf (bits w 22 20) (bits_lt w 22 20)
  unfold formatS
  split
  · next hZero =>
    have hidx := idxOutOfRange_iff hwf (blockCatOf (bits w 22 20)) (bits w 19 14) (bitOf w 10)
    rw [hse, hcat, bitOf_toNat] at hidx
    simp [RejectsOperand, HasIllegalOperand, isReserved_iff hwf, hse, hidx, hZero, or_assoc]
  · next hZero => exact iff_of_true rfl (.inl hZero)

/-- Format L rejects set must-be-0 bits (R59, R65 a). -/
theorem formatL_rejects_iff (w : Word) : RejectsOperand (formatL w) ↔ bits w 27 1 ≠ 0 := by
  unfold formatL
  split
  · next hZero => exact iff_of_false id (not_not.mpr hZero)
  · next hZero => exact iff_of_true rfl hZero

/-- Format R rejects set must-be-0 bits (R60, R65 a). -/
theorem formatR_rejects_iff (w : Word) : RejectsOperand (formatR w) ↔ bits w 27 10 ≠ 0 := by
  unfold formatR
  split
  · next hZero => exact iff_of_false id (not_not.mpr hZero)
  · next hZero => exact iff_of_true rfl hZero

/-- The numbers 1 to 10 are opcodes (R54). -/
theorem opcodeOf_eq_some {n : Nat} (h1 : 1 ≤ n) (h10 : n ≤ 10) : ∃ op, opcodeOf n = some op := by
  interval_cases n <;> exact ⟨_, rfl⟩

/-- Settles O5, opcode by opcode: each has its format's condition. -/
theorem illegalOperandExactlyWhenR65Says : Obligations.IllegalOperandExactlyWhenR65Says := by
  intro w s he h1 h10
  obtain ⟨op, hop⟩ := opcodeOf_eq_some h1 h10
  rw [issueWord_illegalOperand_iff he, decodeWord, wordOpcode, hop, ← opcode_number_of hop]
  cases op with
  | cinit => simpa [Opcode.number] using formatI_rejects_iff w
  | dec => simpa [Opcode.number] using formatD_rejects_iff w
  | csel => simpa [Opcode.number] using formatS_rejects_iff w
  | lvlacc => simpa [Opcode.number] using formatL_rejects_iff w
  | rdctx => simpa [Opcode.number] using formatR_rejects_iff w
  | einit | byp | trm | lvlrst | rdeng => simpa [Opcode.number] using formatN_rejects_iff w id

/-! ## What CSEL reads -/

/-- CSEL reads its operands only through IDX's range, the check of CAT, the two offsets and the increment (R102). -/
theorem exec_csel_congr {s : State} {se : SyntaxElement} {cat cat' : BlockCat} {idx : Nat}
    {a a' b b' x x' c c' : Bool} (hmax : idxMax se cat c = idxMax se cat' c')
    (hres : (se.isResidual && cat.isUnsupported) = (se.isResidual && cat'.isUnsupported))
    (hcat : ∀ t, ctxBlockCatOffset t se cat = ctxBlockCatOffset t se cat')
    (hoff : ∀ t, ctxIdxOffset t se cat = ctxIdxOffset t se cat')
    (hinc : ∀ t eq1 gt1, ctxIdxInc t se cat idx a b x c eq1 gt1 = ctxIdxInc t se cat' idx a' b' x' c' eq1 gt1) :
    exec (.csel se cat idx a b x c) s = exec (.csel se cat' idx a' b' x' c') s := by
  have hidx : idxOutOfRange se cat idx c = idxOutOfRange se cat' idx c' := by
    rw [idxOutOfRange, idxOutOfRange, hmax]
  have hsel (t : ConstTables) (eq1 gt1 : Nat) :
      select t se cat idx a b x c eq1 gt1 = select t se cat' idx a' b' x' c' eq1 gt1 := by
    rw [select, select, hcat, hoff, hinc]
  have hbody : cselBody se cat idx a b x c s = cselBody se cat' idx a' b' x' c' s := by
    rw [cselBody, cselBody, hidx, hres, hsel]
  exact congrArg (issue .csel s) hbody

/-- With the same category, only the range of IDX and the increment are left (R102). -/
theorem exec_csel_congr_flags {s : State} {se : SyntaxElement} {cat : BlockCat} {idx : Nat}
    {a a' b b' x x' c c' : Bool} (hmax : idxMax se cat c = idxMax se cat c')
    (hinc : ∀ t eq1 gt1, ctxIdxInc t se cat idx a b x c eq1 gt1 = ctxIdxInc t se cat idx a' b' x' c' eq1 gt1) :
    exec (.csel se cat idx a b x c) s = exec (.csel se cat idx a' b' x' c') s :=
  exec_csel_congr hmax rfl (fun _ => rfl) (fun _ => rfl) hinc

/-- An element that is no residual one does not read CAT (R63). -/
theorem exec_csel_cat {s : State} {se : SyntaxElement} (h : se.isResidual = false) (cat cat' : BlockCat) (idx : Nat)
    (a b x c : Bool) : exec (.csel se cat idx a b x c) s = exec (.csel se cat' idx a b x c) s := by
  cases se with
  | cbf | sig | last | absLevel => cases h
  | _ => exact exec_csel_congr rfl rfl (fun _ => rfl) (fun _ => rfl) fun _ _ _ => rfl

/-- mb_type reads b3 at bins 4 and 5 alone (R108). -/
theorem mbTypeInc_x {idx : Nat} (h4 : idx ≠ 4) (h5 : idx ≠ 5) (a b x x' : Bool) :
    mbTypeInc idx a b x = mbTypeInc idx a b x' := by
  unfold mbTypeInc
  split
  case h_5 => exact absurd rfl h4
  case h_6 => exact absurd rfl h5
  all_goals rfl

/-- X is read at bins 4 and 5 of mb_type alone (R58, R108). -/
theorem exec_csel_x {s : State} {se : SyntaxElement} {idx : Nat} (h : se ≠ .mbTypeI ∨ (idx ≠ 4 ∧ idx ≠ 5))
    (cat : BlockCat) (a b x x' c : Bool) : exec (.csel se cat idx a b x c) s = exec (.csel se cat idx a b x' c) s := by
  refine exec_csel_congr_flags rfl fun t eq1 gt1 => ?_
  cases se with
  | mbTypeI =>
    obtain ⟨h4, h5⟩ := h.resolve_left (fun hne => hne rfl)
    exact mbTypeInc_x h4 h5 a b x x'
  | _ => rfl

/-- C is read by the significance and last flags of chroma DC blocks alone (R58, R103, R117, R118). -/
theorem exec_csel_c {s : State} {se : SyntaxElement} {cat : BlockCat} (h : (se ≠ .sig ∧ se ≠ .last) ∨ cat ≠ .chromaDC)
    (idx : Nat) (a b x c c' : Bool) : exec (.csel se cat idx a b x c) s = exec (.csel se cat idx a b x c') s := by
  have hcat (hse : ¬(se ≠ .sig ∧ se ≠ .last)) : sigIdxMax cat c = sigIdxMax cat c' ∧
      ∀ m, sigInc m cat idx c = sigInc m cat idx c' := by
    cases cat with
    | chromaDC => exact absurd rfl (h.resolve_left hse)
    | _ => exact ⟨rfl, fun _ => rfl⟩
  cases se with
  | sig =>
    obtain ⟨hmax, hinc⟩ := hcat (by simp)
    exact exec_csel_congr_flags hmax fun t _ _ => hinc t.sig8x8
  | last =>
    obtain ⟨hmax, hinc⟩ := hcat (by simp)
    exact exec_csel_congr_flags hmax fun t _ _ => hinc t.last8x8
  | _ => exact exec_csel_congr_flags rfl fun _ _ _ => rfl

/-- Settles O33, field by field: the operands that differ do not reach IDX's range, the offsets or the increment. -/
theorem cselIgnoresUnreadFields : Obligations.CselIgnoresUnreadFields := by
  intro s se cat cat' idx a a' b b' x x' c c'
  refine ⟨fun h => exec_csel_cat h cat cat' idx a b x c, fun h => exec_csel_x h cat a b x x' c,
    fun h => exec_csel_c h idx a b x c c', fun h => ?_, exec_csel_congr_flags rfl fun _ _ _ => rfl⟩
  refine exec_csel_congr_flags rfl fun t eq1 gt1 => ?_
  obtain rfl | rfl | rfl | rfl | rfl | rfl | rfl := h <;> rfl

/-! ## What CSEL reports -/

/-- A CSEL that leaves ERR at 0 has reported a selection, within IDX's range (R102). -/
theorem csel_reports {se : SyntaxElement} {cat : BlockCat} {idx : Nat} {a b x c : Bool} {s t : State}
    (he : s.err = .none) (h : exec (.csel se cat idx a b x c) s = .next t) (ht : t.err = .none) :
    idxOutOfRange se cat idx c = false ∧
      ∃ sel, select s.config.tables se cat idx a b x c s.eq1cnt.toNat s.gt1cnt.toNat = some sel ∧ sel.ctxIdx < 1024 ∧
        t = s.selected sel.kind sel.ctxIdx := by
  obtain ⟨hn, -⟩ | ⟨-, e, hr, rfl⟩ | ⟨-, hi, sel, hs, hlt, rfl⟩ := exec_cases h
  · exact absurd he hn
  · exact absurd ht hr.ne_none
  · exact ⟨hi, sel, hs, hlt, by rw [selectionWord_eq hlt]; rfl⟩

@[simp] theorem selected_err (s : State) (kind : BinKind) (ci : Nat) : (s.selected kind ci).err = s.err := rfl
@[simp] theorem selected_selctx (s : State) (kind : BinKind) (ci : Nat) :
    (s.selected kind ci).selctx = BitVec.ofNat 10 ci := rfl
@[simp] theorem selected_selv (s : State) (kind : BinKind) (ci : Nat) :
    (s.selected kind ci).selv = (kind == .context) := rfl

/-- RESULT after a CSEL is KIND above the index (R70). -/
theorem selected_result_toNat (s : State) (kind : BinKind) {ci : Nat} (h : ci < 1024) :
    (s.selected kind ci).result.toNat = kind.code * 4096 + ci := by
  have hk : kind.code ≤ 2 := by cases kind <;> decide
  simp only [State.selected, BitVec.toNat_ofNat]
  omega

/-- Settles O34, by the three kinds of a selection; that a context-coded bin's index is selectable, and a terminate bin's
276, is what checked tables give. -/
theorem cselReportsOnlyAllocatedContexts : Obligations.CselReportsOnlyAllocatedContexts := by
  intro se cat idx a b x c s t htab he h ht
  obtain ⟨hi, sel, hs, hlt, rfl⟩ := csel_reports he h ht
  refine ⟨rfl, ?_⟩
  rw [selected_result_toNat s sel.kind hlt, selected_selv, selected_selctx]
  obtain rfl | rfl | ⟨offset, catOffset, -, -, -, hsel⟩ := select_cases hs
  · exact .inr (.inl ⟨rfl, rfl, rfl⟩)
  · rw [htab.terminate]
    exact .inr (.inr ⟨rfl, rfl, rfl⟩)
  · have hkind : sel.kind = .context := by rw [hsel]
    have hci : (BitVec.ofNat 10 sel.ctxIdx).toNat = sel.ctxIdx := Nat.mod_eq_of_lt hlt
    refine .inl ⟨by rw [hkind]; rfl, ?_, ?_⟩
    · rw [hci]
      exact htab.selects _ _ _ _ _ _ _ _ _ _ hi hs hkind
    · simp [hkind, BinKind.code, hci]

/-- DEC.S without a context-coded selection raises E_NOT_INIT (R83). -/
theorem exec_decS_of_not_selv {s : State} (hs : s.selv = false) (he : s.err = .none) :
    exec .decS s = .next { s with err := .notInit } := by
  rw [exec, execDecS_of_not_selv hs, if_pos he, takeError_of_clear _ he]

/-- Settles O37: KIND is 0 in RESULT exactly where CSEL sets SELV, which is all that DEC.S asks of it. -/
theorem selectionPassesToDecS : Obligations.SelectionPassesToDecS := by
  intro se cat idx a b x c s t he h ht
  obtain ⟨-, sel, -, hlt, rfl⟩ := csel_reports he h ht
  have hkind : (sel.kind.code * 4096 + sel.ctxIdx) / 4096 = sel.kind.code := by omega
  rw [selected_result_toNat s sel.kind hlt, hkind]
  cases sel.kind with
  | context =>
    refine ⟨fun _ => ?_, fun hne => absurd rfl hne⟩
    have hci : BinKind.context.code * 4096 + sel.ctxIdx = sel.ctxIdx := Nat.zero_add _
    rw [hci]
    exact execDecS_of_selv rfl
  | bypass | terminate =>
    refine ⟨fun hz => absurd hz (by decide), fun _ => ?_⟩
    exact exec_decS_of_not_selv rfl he

end Sys2Proof.Machine

/-! SUPPORT. The engine's commands (41_engine): what RenormD and a decision do in numbers, and that a command whose rule
holds answers what it says; then the obligations of that family. -/

namespace Sys2Proof.Machine

open Sys2Proof

/-! ## From a command's rule to its answer -/

/-- An error raised while ERR is 0 is latched, and nothing else changes (R146). -/
theorem issue_of_raise {op : Opcode} {s : State} {e : ErrCode} (he : s.err = .none) :
    issue op s (.raise e) = .next { s with err := e } := by
  rw [issue_runs _ (.inl he)]
  exact congrArg _ (takeError_of_clear e he)

/-- Values that fit are stored, and the command completes. -/
theorem Finishes.finishEngine_eq {v : EngineVals} {bin : Bool} {s t : State} (h : Finishes v bin s t) :
    finishEngine v bin s = .done t := by
  obtain ⟨hr0, hr1, ho0, ho1, rfl⟩ := h
  exact finishEngine_fits ⟨hr0, hr1⟩ ⟨ho0, ho1⟩

/-- DEC's rule past its two conditions (R83). -/
theorem decBody_of_active {ci : CtxIdx} {s : State} (hc : s.ctxv = true) (ha : s.eng = .active) {d : Decision}
    (hd : decodeDecision s.config.tables (s.ctx.get ci) s.codIRange.toNat s.codIOffset.toNat = d) :
    decBody ci s =
      match renorm s.buf ⟨d.range, d.offset, s.cursor⟩ with
      | none => .raise .exhausted
      | some v => finishEngine v d.bin { s with ctx := s.ctx.set ci d.ctx } := by
  subst hd
  exact if_neg (by simp [hc, ha])

/-- A decision that can be made is what DEC's rule ends with. -/
theorem Decides.decBody_eq {ci : CtxIdx} {s t : State} (h : Decides ci s t) : decBody ci s = .done t := by
  obtain ⟨hc, ha, v, hv, hf⟩ := h
  rw [decBody_of_active hc ha rfl, hv]
  exact hf.finishEngine_eq

/-- The converse of `exec_cases`: what a command completes with is what it answers. -/
theorem Completes.exec_eq {i : Instr} {s t : State} (h : Completes i s t) : exec i s = .next t := by
  have hrun (op : Opcode) (hop : i.opcode = op) (body : CmdEnd) (hb : body = .done t) : issue op s body = .next t := by
    rw [hb, issue_runs _ (hop ▸ h.err.1)]
  rcases i with _ | _ | _ | _ | _ | _ | _ | _ | ⟨_ | _⟩ | _ | _ <;> simp only [Completes] at h
  case cinit =>
    obtain ⟨rfl, hidc, rfl⟩ := h
    exact hrun .cinit rfl _ (if_neg hidc)
  case einit =>
    obtain ⟨-, v, hv, h510, rfl⟩ := h
    refine hrun .einit rfl _ ?_
    rw [hv]
    exact if_neg (by omega)
  case dec => exact hrun .dec rfl _ h.2.decBody_eq
  case decS =>
    obtain ⟨-, hs, hd⟩ := h
    exact hrun .dec rfl _ ((if_neg (by simp [hs])).trans hd.decBody_eq)
  case byp =>
    obtain ⟨-, ha, b, hb, hf⟩ := h
    refine hrun .byp rfl _ ?_
    rw [if_neg (not_not.mpr ha), hb]
    obtain ⟨hc, hf⟩ | ⟨hc, hf⟩ := hf
    · exact (if_pos hc).trans hf.finishEngine_eq
    · exact (if_neg (not_le.mpr hc)).trans hf.finishEngine_eq
  case trm =>
    obtain ⟨-, ha, hf⟩ := h
    refine hrun .trm rfl _ ?_
    rw [if_neg (not_not.mpr ha)]
    obtain ⟨hc, hf⟩ | ⟨hc, v, hv, hf⟩ := hf
    · exact (if_pos hc).trans hf.finishEngine_eq
    · refine (if_neg (not_le.mpr hc)).trans ?_
      rw [hv]
      exact hf.finishEngine_eq
  case csel =>
    obtain ⟨he, hi, sel, hs, hlt, rfl⟩ := h
    rw [exec_csel_of_select he hi hs, if_pos hlt, selectionWord_eq hlt]
    rfl
  case lvlrst => exact hrun .lvlrst rfl _ (congrArg _ h.2.symm)
  case lvlacc.eq1 => exact hrun .lvlacc rfl _ (congrArg _ h.2.symm)
  case lvlacc.gt1 => exact hrun .lvlacc rfl _ (congrArg _ h.2.symm)
  case rdctx =>
    obtain ⟨hc, rfl⟩ := h
    exact hrun .rdctx rfl _ (if_neg (by simp [hc]))
  case rdeng =>
    obtain ⟨hu, rfl⟩ := h
    exact hrun .rdeng rfl _ (if_neg hu)

/-! ## Renormalisation in numbers -/

/-- A range that `n` doublings bring to 256 or more, and not to 512, takes exactly `n` bits, the first the most
significant (R88). -/
theorem renorm_eq_readBits {buf : List Byte} {n r o c : Nat} (hlo : 256 ≤ r * 2 ^ n) (hhi : r * 2 ^ n < 512) :
    renorm buf ⟨r, o, c⟩ = (readBits buf n c).map fun v => ⟨(r * 2 ^ n : Nat), (o * 2 ^ n + v : Nat), c + n⟩ := by
  induction n generalizing r o c with
  | zero =>
    rw [renorm_of_ge (by simp only; omega)]
    simp [readBits]
  | succ n ih =>
    have hpow : r * 2 ^ (n + 1) = 2 * r * 2 ^ n := by ring
    rw [hpow] at hlo hhi
    have hr : r < 256 := by
      have := Nat.le_mul_of_pos_right (2 * r) (Nat.two_pow_pos n)
      omega
    rw [renorm_of_lt (by simp only; omega)]
    simp only [readBits]
    cases hb : readBit buf c with
    | none => rfl
    | some b =>
      have hstep : (⟨2 * r, 2 * o + b.toInt, c + 1⟩ : EngineVals) =
          ⟨(2 * r : Nat), (2 * o + b.toNat : Nat), c + 1⟩ := by cases b <;> simp
      simp only
      rw [hstep, ih hlo hhi]
      cases readBits buf n (c + 1) with
      | none => rfl
      | some v =>
        simp only [Option.map_some, hpow, Option.some.injEq, EngineVals.mk.injEq, true_and]
        refine ⟨congrArg _ ?_, by omega⟩
        ring

/-- A range of 2 to 255 reaches 256, and not 512, by 8 - floor(log2 r) doublings, seven at most (R88, R91). -/
theorem doublings_bounds {r : Nat} (hlo : 2 ≤ r) (hhi : r < 256) :
    8 - Nat.log2 r ≤ 7 ∧ 256 ≤ r * 2 ^ (8 - Nat.log2 r) ∧ r * 2 ^ (8 - Nat.log2 r) < 512 := by
  have h1 : 1 ≤ Nat.log2 r := (Nat.le_log2 (by omega)).mpr hlo
  have h7 : Nat.log2 r < 8 := (Nat.log2_lt (by omega)).mpr hhi
  have hle : 2 ^ Nat.log2 r ≤ r := Nat.log2_self_le (by omega)
  have hlt : r < 2 ^ (Nat.log2 r + 1) := Nat.lt_log2_self
  generalize Nat.log2 r = k at *
  interval_cases k <;> omega

/-- A range of 128 to 255 takes one bit (R88). -/
theorem renorm_of_half {buf : List Byte} {r o c : Nat} (hlo : 128 ≤ r) (hhi : r < 256) :
    renorm buf ⟨r, o, c⟩ =
      (readBit buf c).map fun b => ⟨(2 * r : Nat), (2 * o + b.toNat : Nat), c + 1⟩ := by
  rw [renorm_eq_readBits (n := 1) (by omega) (by omega)]
  simp only [readBits]
  cases readBit buf c with
  | none => rfl
  | some b => simp [Nat.mul_comm]

/-- Settles O25, by induction on the number of doublings, which the logarithm gives. -/
theorem renormalisationDoublesToTheFirst256 : Obligations.RenormalisationDoublesToTheFirst256 := by
  refine ⟨fun buf v h => renorm_of_ge h, fun buf r o c hlo hhi => ?_⟩
  obtain ⟨h7, h256, h512⟩ := doublings_bounds hlo hhi
  exact ⟨h7, h256, h512, renorm_eq_readBits h256 h512⟩

/-! ## The end of a decoding command in numbers -/

/-- A bin as RESULT holds it. -/
theorem binWord_eq (b : Bool) : binWord b = if b then 1 else 0 := by cases b <;> rfl

/-- Values that fit their registers are stored, with the bin in RESULT (R8, R12). -/
theorem finishes_of_fits {v : EngineVals} (hr : 0 ≤ v.range ∧ v.range < 512) (ho : 0 ≤ v.offset ∧ v.offset < 512)
    (bin : Bool) (s : State) :
    Finishes v bin s
      { s with
        codIRange := BitVec.ofInt 9 v.range
        codIOffset := BitVec.ofInt 9 v.offset
        cursor := v.cursor
        result := if bin then 1 else 0
        resultv := true } := by
  refine ⟨hr.1, hr.2, ho.1, ho.2, ?_⟩
  rw [← binWord_eq]
  rfl

/-- The same with the values as natural numbers. -/
theorem finishes_of_nat {v : EngineVals} {r o : Nat} (hr : v.range = r) (ho : v.offset = o) (hr9 : r < 512)
    (ho9 : o < 512) (bin : Bool) (s : State) :
    Finishes v bin s
      { s with
        codIRange := BitVec.ofNat 9 r
        codIOffset := BitVec.ofNat 9 o
        cursor := v.cursor
        result := if bin then 1 else 0
        resultv := true } := by
  have h := finishes_of_fits (v := v) (by omega) (by omega) bin s
  rwa [hr, ho, BitVec.ofInt_natCast, BitVec.ofInt_natCast] at h

/-! ## CINIT and EINIT -/

/-- SliceQPY is the QP clipped to -QpBdOffsetY and 51 (R75). -/
theorem sliceQPY_eq (qbd : Nat) (sqd piq : Int) : sliceQPY qbd sqd piq = max (-(qbd : Int)) (min 51 (26 + piq + sqd)) :=
  clip_eq_max_min (by omega)

/-- preCtxState is clipped to 1 and 126, its product shifted down by 4 first (R75). -/
theorem preCtxState_eq (mn : Int × Int) (qp : Int) :
    preCtxState mn qp = max 1 (min 126 (mn.1 * qp / 16 + mn.2)) := clip_eq_max_min (by decide)

/-- CINIT that raises an error, whatever ERR is (R76, R147). -/
theorem exec_cinit_of_raise {slt : SliceType} {idc qbd : Nat} {sqd piq : Int} {s : State} {e : ErrCode}
    (h : cinitBody slt idc qbd sqd piq s = .raise e) :
    exec (.cinit slt idc qbd sqd piq) s = .next (if s.err = .none then { s with err := e } else s) := by
  rw [exec, execCinit, h, issue_runs _ (.inr rfl)]
  rfl

/-- SliceQPY of operands that fit their fields fits RESULT (R75, R56). -/
theorem toInt_sliceQPY {qbd : Nat} {sqd piq : Int} (h : qbd < 128) :
    (BitVec.ofInt 32 (sliceQPY qbd sqd piq)).toInt = sliceQPY qbd sqd piq := by
  have := sliceQPY_eq qbd sqd piq
  rw [BitVec.toInt_ofInt]
  exact Int.bmod_eq_of_le (by omega) (by omega)

/-- Settles O18: an I slice completes with the contexts that `initCtx` gives, and any other CINIT raises its error. -/
theorem cinitInitialisesEveryContext : Obligations.CinitInitialisesEveryContext := by
  intro slt idc qbd sqd piq s hwf
  have hqbd : qbd < 128 := by
    simp only [Instr.wellFormed, Bool.and_eq_true, decide_eq_true_eq] at hwf
    obtain ⟨⟨⟨⟨-, -⟩, hqbd⟩, -⟩, -⟩ := hwf
    exact hqbd
  refine ⟨?_, ?_, ?_, ?_⟩
  · rintro rfl hidc
    refine ⟨_, Completes.exec_eq ⟨rfl, hidc, rfl⟩, rfl, ?_, fun k => ⟨_, rfl, ?_⟩⟩
    · rw [← sliceQPY_eq]
      exact toInt_sliceQPY hqbd
    · rw [← sliceQPY_eq, ← clip_eq_max_min (show (0 : Int) ≤ 51 by decide), ← preCtxState_eq]
      simp only [complete_ctx, returnFromError_ctx, Table.get_map]
      exact ⟨initCtx_pStateIdx _ _, initCtx_valMPS _ _⟩
  · rintro code rfl
    exact exec_cinit_of_raise rfl
  · rintro hslt rfl
    refine exec_cinit_of_raise ?_
    cases slt with
    | reserved code => exact absurd rfl (hslt code)
    | _ => rfl
  · rintro hslt hi hidc
    refine exec_cinit_of_raise ?_
    cases slt with
    | reserved code => exact absurd rfl (hslt code)
    | i => exact absurd rfl hi
    | _ => exact if_neg hidc

/-- A word of format N with operand bits is an illegal operand (R55, R65 a). -/
theorem issueWord_of_formatN_bits {w : Word} {s : State} (he : s.err = .none)
    (hop : bits w 31 28 = 2 ∨ bits w 31 28 = 4 ∨ bits w 31 28 = 5 ∨ bits w 31 28 = 7 ∨ bits w 31 28 = 10)
    (hb : bits w 27 0 ≠ 0) : issueWord w s = .next { s with err := .illegalOperand } :=
  (illegalOperandExactlyWhenR65Says w s he (by omega) (by omega)).mpr (.inl ⟨hop, hb⟩)

/-- EINIT without nine bits to read (R77). -/
theorem exec_einit_exhausted {s : State} (he : s.err = .none) (h : readBits s.buf 9 s.cursor = none) :
    exec .einit s = .next { s with err := .exhausted } := by
  rw [exec, execEinit, h]
  exact issue_of_raise he

/-- EINIT on 510 or 511 (R77). -/
theorem exec_einit_offsetInit {s : State} {v : Nat} (he : s.err = .none) (h : readBits s.buf 9 s.cursor = some v)
    (hv : 510 ≤ v) : exec .einit s = .next { s with err := .offsetInit } := by
  rw [exec, execEinit, h]
  simp only
  rw [if_pos hv]
  exact issue_of_raise he

/-- Settles O19, by the nine bits: read and below 510, read and not, or missing. -/
theorem einitStartsTheEngine : Obligations.EinitStartsTheEngine := by
  intro s he
  refine ⟨fun v hv h510 => Completes.exec_eq ⟨he, v, hv, h510, rfl⟩, fun v hv h510 => exec_einit_offsetInit he hv h510,
    fun hc => ?_, fun hc => ?_, fun w hop hb => issueWord_of_formatN_bits he (.inl hop) hb⟩
  · exact exec_einit_exhausted he ((readBitsIsBigEndian s.buf 9 s.cursor).2 (by decide) hc)
  · have hv := readBits_of_le hc
    exact ⟨_, readBits_lt hv, hv⟩

/-! ## DEC and DEC.S -/

section

variable {t : ConstTables} {x : Ctx} {r o : Nat}

/-- codIRangeLPS of the context `x` and the range `r` in the register (R78, R79). -/
def lpsRange (t : ConstTables) (x : Ctx) (r : Nat) : Nat := rangeTabLPS t x.pStateIdx (r / 64 % 4)

/-- The rule's codIRangeLPS is that. -/
theorem codIRangeLPS_natCast (t : ConstTables) (x : Ctx) (r : Nat) :
    codIRangeLPS t x r = lpsRange t x r := by
  have hq : qCodIRangeIdx r = r / 64 % 4 := by
    unfold qCodIRangeIdx
    omega
  rw [codIRangeLPS, hq, lpsRange]

/-- The LPS sub-range of an ACTIVE engine lies between 2 and 240, and leaves at least 128 (R80, R89). -/
theorem lpsRange_bounds (ht : CheckedTables t) (x : Ctx) (hlo : 256 ≤ r) (hhi : r ≤ 510) :
    2 ≤ lpsRange t x r ∧ lpsRange t x r ≤ 240 ∧ lpsRange t x r + 128 ≤ r := by
  have h := codIRangeLPS_bounds ht x (range := r) (by omega) (by omega)
  rw [codIRangeLPS_natCast] at h
  omega

/-- DecodeDecision where codIOffset is at least the reduced range: the LPS path (R83, R84, R85). -/
theorem decodeDecision_lps (h : r ≤ o + lpsRange t x r) :
    decodeDecision t x r o =
      { bin := !x.valMPS
        range := lpsRange t x r
        offset := o - (r - lpsRange t x r)
        ctx := ⟨transIdxLPS t x.pStateIdx, if x.pStateIdx = 0 then !x.valMPS else x.valMPS⟩ } := by
  rw [decodeDecision, codIRangeLPS_natCast, if_pos (by omega)]

/-- DecodeDecision where codIOffset is below the reduced range: the MPS path (R83, R85). -/
theorem decodeDecision_mps (h : o + lpsRange t x r < r) :
    decodeDecision t x r o =
      { bin := x.valMPS
        range := r - lpsRange t x r
        offset := o
        ctx := ⟨transIdxMPS t x.pStateIdx, x.valMPS⟩ } := by
  rw [decodeDecision, codIRangeLPS_natCast, if_neg (by omega)]

end

section

variable {i : Instr} {ci : CtxIdx} {s : State} {d : Decision}

/-- DEC on `ci`, and DEC.S with `ci` selected, are one rule (R83). -/
theorem exec_decision (h : i = .dec ci ∨ (i = .decS ∧ s.selv = true ∧ s.selctx = ci)) :
    exec i s = issue .dec s (decBody ci s) := by
  obtain rfl | ⟨rfl, hs, rfl⟩ := h
  · rfl
  · exact execDecS_of_selv hs

/-- What a decision answers from an engine that meets R89: E_EXHAUSTED where RenormD finds no bit, and else the
renormalised values, in R89's bounds, with the context and the bin (R83, R89). -/
theorem exec_decision_answers (h : i = .dec ci ∨ (i = .decS ∧ s.selv = true ∧ s.selctx = ci)) (he : s.err = .none)
    (hc : s.ctxv = true) (ha : s.eng = .active) (hi : EngineInv s) (ht : CheckedTables s.config.tables)
    (hd : decodeDecision s.config.tables (s.ctx.get ci) s.codIRange.toNat s.codIOffset.toNat = d) :
    (renorm s.buf ⟨d.range, d.offset, s.cursor⟩ = none → exec i s = .next { s with err := .exhausted }) ∧
    (∀ v, renorm s.buf ⟨d.range, d.offset, s.cursor⟩ = some v →
      exec i s = .next
        { s with
          ctx := s.ctx.set ci d.ctx
          codIRange := BitVec.ofInt 9 v.range
          codIOffset := BitVec.ofInt 9 v.offset
          cursor := v.cursor
          result := if d.bin then 1 else 0
          resultv := true } ∧
      256 ≤ v.range ∧ v.range ≤ 510 ∧ 0 ≤ v.offset ∧ v.offset < v.range) := by
  rw [exec_decision h, decBody_of_active hc ha hd]
  subst hd
  refine ⟨fun hr => ?_, fun v hv => ?_⟩
  · rw [hr]
    exact issue_of_raise he
  · obtain ⟨hlo, hhi, hoff, hlt⟩ := (hi.inBounds ha).renorm_decision ht _ hv
    rw [hv, issue_runs _ (.inl he)]
    simp only
    rw [(finishes_of_fits (v := v) (by omega) (by omega) _ _).finishEngine_eq]
    exact ⟨rfl, hlo, hhi, hoff, hlt⟩

/-- DEC without initialised contexts or an ACTIVE engine, and DEC.S without a selection too (R83). -/
theorem exec_decision_notInit (h : i = .dec ci ∨ (i = .decS ∧ s.selctx = ci)) (he : s.err = .none)
    (hn : s.ctxv = false ∨ s.eng ≠ .active ∨ (i = .decS ∧ s.selv = false)) :
    exec i s = .next { s with err := .notInit } := by
  by_cases hsel : i = .decS ∧ s.selv = false
  · rw [hsel.1]
    exact exec_decS_of_not_selv hsel.2 he
  · have hci : i = .dec ci ∨ (i = .decS ∧ s.selv = true ∧ s.selctx = ci) :=
      h.imp id fun ⟨hi, hs⟩ => ⟨hi, by simpa [hi] using hsel, hs⟩
    have hn : s.ctxv = false ∨ s.eng ≠ .active := by simpa [hsel] using hn
    rw [exec_decision hci, decBody, if_pos hn]
    exact issue_of_raise he

end

/-- Settles O20, by the two paths of DecodeDecision; what is renormalised stays in R89's bounds and so fits. -/
theorem decDecodesOneDecision : Obligations.DecDecodesOneDecision := by
  refine ⟨fun i ci s hi he => ⟨exec_decision_notInit hi he, fun hc ha hs hinv ht => ?_⟩, fun w s he hop hb => ?_⟩
  · have hci : i = .dec ci ∨ (i = .decS ∧ s.selv = true ∧ s.selctx = ci) := hi.imp id fun ⟨hi, hk⟩ => ⟨hi, hs hi, hk⟩
    intro x rLPS r1 o bin entry reduced
    have hl : (lpsRange s.config.tables x s.codIRange.toNat : Int) = rLPS := rfl
    by_cases hp : r1 ≤ o
    · simp only [bin, entry, reduced, if_pos hp]
      exact exec_decision_answers hci he hc ha hinv ht (decodeDecision_lps (x := x) (by omega))
    · simp only [bin, entry, reduced, if_neg hp]
      exact exec_decision_answers hci he hc ha hinv ht (decodeDecision_mps (x := x) (by omega))
  · exact (illegalOperandExactlyWhenR65Says w s he (by omega) (by omega)).mpr (.inr (.inl ⟨hop, hb⟩))

/-- Settles O21: at least 128 of the range is left, so RenormD takes one bit or none. -/
theorem decMostProbablePath : Obligations.DecMostProbablePath := by
  intro i ci s hci he hc ha hinv ht x r1 moved hlt
  obtain ⟨hlo, hhi, -⟩ := hinv.1 ha
  obtain ⟨h2, -, h128⟩ := lpsRange_bounds ht x hlo hhi
  have hl : s.codIRange.toNat - lpsRange s.config.tables x s.codIRange.toNat = r1 := rfl
  have hr1 : (s.codIRange.toNat : Int) - lpsRange s.config.tables x s.codIRange.toNat = r1 := by omega
  obtain ⟨hshort, hdone⟩ := exec_decision_answers hci he hc ha hinv ht (decodeDecision_mps (x := x) (by omega))
  rw [hr1] at hshort hdone
  refine ⟨fun h256 => ?_, fun b h256 hb => ?_, fun h256 hb => ?_⟩
  · obtain ⟨h, -⟩ := hdone _ (renorm_of_ge (by simp only; omega))
    simpa only [BitVec.ofInt_natCast, BitVec.ofNat_toNat, BitVec.setWidth_eq] using h
  · rw [renorm_of_half (by omega) h256, hb] at hdone
    obtain ⟨h, -⟩ := hdone _ rfl
    simpa only [BitVec.ofInt_natCast] using h
  · rw [renorm_of_half (by omega) h256, hb] at hshort
    exact hshort rfl

/-- Settles O22: the LPS sub-range is below 256, and RenormD takes the bits that its logarithm says. -/
theorem decLeastProbablePath : Obligations.DecLeastProbablePath := by
  intro i ci s hci he hc ha hinv ht x rLPS r1 n hle
  obtain ⟨hlo, hhi, -⟩ := hinv.1 ha
  have hl : lpsRange s.config.tables x s.codIRange.toNat = rLPS := rfl
  obtain ⟨h2, h240, h128⟩ := lpsRange_bounds ht x hlo hhi
  obtain ⟨-, h256, h512⟩ := doublings_bounds (r := rLPS) h2 (by omega)
  have ho : (s.codIOffset.toNat : Int) - (s.codIRange.toNat - lpsRange s.config.tables x s.codIRange.toNat) =
      (s.codIOffset.toNat - r1 : Nat) := by omega
  obtain ⟨hshort, hdone⟩ := exec_decision_answers hci he hc ha hinv ht (decodeDecision_lps (x := x) (by omega))
  rw [ho, hl, renorm_eq_readBits h256 h512] at hshort hdone
  have hbin : (if (!x.valMPS) = true then (1 : Word) else 0) = if x.valMPS then 0 else 1 := by cases x.valMPS <;> rfl
  refine ⟨fun v hv => ?_, fun hv => ?_⟩
  · rw [hv] at hdone
    obtain ⟨h, -⟩ := hdone _ rfl
    simpa only [BitVec.ofInt_natCast, hbin] using h
  · rw [hv] at hshort
    exact hshort rfl

/-! ## BYP and TRM -/

/-- BYP without an ACTIVE engine (R86). -/
theorem exec_byp_notInit {s : State} (he : s.err = .none) (ha : s.eng ≠ .active) :
    exec .byp s = .next { s with err := .notInit } := by
  rw [exec, execByp, if_pos ha]
  exact issue_of_raise he

/-- BYP without a bit to read (R86). -/
theorem exec_byp_exhausted {s : State} (he : s.err = .none) (ha : s.eng = .active)
    (hb : readBit s.buf s.cursor = none) : exec .byp s = .next { s with err := .exhausted } := by
  rw [exec, execByp, if_neg (not_not.mpr ha), hb]
  exact issue_of_raise he

/-- Settles O23, by which side of codIRange the doubled offset lies on; R89 makes what is stored fit. -/
theorem bypDecodesOneBit : Obligations.BypDecodesOneBit := by
  intro s he
  refine ⟨exec_byp_notInit he, exec_byp_exhausted he, fun b ha hi hb => ?_,
    fun w hop hw => issueWord_of_formatN_bits he (.inr (.inl hop)) hw⟩
  obtain ⟨hlo, hhi, hlt⟩ := hi.1 ha
  have hint : b.toInt = b.toNat := by cases b <;> rfl
  have hb2 := b.toNat_lt
  refine ⟨fun hc => ?_, fun hc => ?_⟩
  · have hf := finishes_of_nat
      (v := ⟨s.codIRange.toNat, 2 * s.codIOffset.toNat + b.toInt - s.codIRange.toNat, s.cursor + 1⟩)
      (o := 2 * s.codIOffset.toNat + b.toNat - s.codIRange.toNat) rfl (by simp only; omega) (by omega) (by omega) true s
    rw [BitVec.ofNat_toNat, BitVec.setWidth_eq] at hf
    exact Completes.exec_eq ⟨he, ha, b, hb, .inl ⟨by omega, hf⟩⟩
  · have hf := finishes_of_nat (v := ⟨s.codIRange.toNat, 2 * s.codIOffset.toNat + b.toInt, s.cursor + 1⟩)
      (o := 2 * s.codIOffset.toNat + b.toNat) rfl (by simp only; omega) (by omega) (by omega) false s
    rw [BitVec.ofNat_toNat, BitVec.setWidth_eq] at hf
    exact Completes.exec_eq ⟨he, ha, b, hb, .inr ⟨by omega, hf⟩⟩

/-- TRM without an ACTIVE engine (R87). -/
theorem exec_trm_notInit {s : State} (he : s.err = .none) (ha : s.eng ≠ .active) :
    exec .trm s = .next { s with err := .notInit } := by
  rw [exec, execTrm, if_pos ha]
  exact issue_of_raise he

/-- TRM on the 0 path without a bit to read (R87, R88). -/
theorem exec_trm_exhausted {s : State} (he : s.err = .none) (ha : s.eng = .active)
    (hc : (s.codIOffset.toNat : Int) < s.codIRange.toNat - 2)
    (hr : renorm s.buf ⟨(s.codIRange.toNat : Int) - 2, s.codIOffset.toNat, s.cursor⟩ = none) :
    exec .trm s = .next { s with err := .exhausted } := by
  rw [exec, execTrm, if_neg (not_not.mpr ha)]
  simp only
  rw [if_neg (not_le.mpr hc), hr]
  exact issue_of_raise he

/-- Settles O24: the reduced range is at least 254, so RenormD takes one bit below 258 and none from there on. -/
theorem trmDecodesTerminate : Obligations.TrmDecodesTerminate := by
  intro s he
  refine ⟨exec_trm_notInit he, fun ha hi => ?_,
    fun w hop hw => issueWord_of_formatN_bits he (.inr (.inr (.inl hop))) hw⟩
  obtain ⟨hlo, hhi, hlt⟩ := hi.1 ha
  have hr : (s.codIRange.toNat : Int) - 2 = (s.codIRange.toNat - 2 : Nat) := by omega
  refine ⟨fun hc => ?_, fun hc h258 => ?_, fun b hc h258 hb => ?_, fun hc h258 hb => ?_⟩
  · have hf := finishes_of_nat (v := ⟨s.codIRange.toNat - 2, s.codIOffset.toNat, s.cursor⟩) hr rfl (by omega)
      (by omega) true { s with eng := .terminated }
    rw [BitVec.ofNat_toNat, BitVec.setWidth_eq] at hf
    exact Completes.exec_eq ⟨he, ha, .inl ⟨by omega, hf⟩⟩
  · have hf := finishes_of_nat (v := ⟨s.codIRange.toNat - 2, s.codIOffset.toNat, s.cursor⟩) hr rfl (by omega)
      (by omega) false s
    rw [BitVec.ofNat_toNat, BitVec.setWidth_eq] at hf
    exact Completes.exec_eq ⟨he, ha, .inr ⟨by omega, _, renorm_of_ge (by simp only; omega), hf⟩⟩
  · have hb2 := b.toNat_lt
    have hv := renorm_of_half (buf := s.buf) (r := s.codIRange.toNat - 2) (o := s.codIOffset.toNat) (c := s.cursor)
      (by omega) (by omega)
    rw [hb, ← hr] at hv
    exact Completes.exec_eq
      ⟨he, ha, .inr ⟨by omega, _, hv, finishes_of_nat rfl rfl (by omega) (by omega) false s⟩⟩
  · refine exec_trm_exhausted he ha (by omega) ?_
    rw [hr, renorm_of_half (by omega) (by omega), hb]
    rfl

/-! ## The engine's state -/

/-- Settles O45: R89 is kept by every word. -/
theorem engineInvariantKept : Obligations.EngineInvariantKept := fun _ _ _ ht hi h => issueWord_engineInv h ht hi

/-- A command after which ERR is not 0 changed at most ERR, or only observed (R146, R147). -/
theorem exec_of_err_ne_none {i : Instr} {s t : State} (h : exec i s = .next t) (ht : t.err ≠ .none) :
    (∃ e, t = { s with err := e }) ∨ ∃ r, t = complete r s := by
  obtain ⟨-, rfl⟩ | ⟨-, e, -, rfl⟩ | hc := exec_cases h
  · exact .inl ⟨_, rfl⟩
  · exact .inl ⟨e, rfl⟩
  · have he : s.err ≠ .none := by
      intro he
      obtain heq | ⟨hn, -⟩ := hc.err.2
      · exact ht (heq.trans he)
      · exact ht hn
    obtain ⟨idc, qbd, sqd, piq, rfl, -⟩ | ⟨k, rfl⟩ | rfl := hc.of_latched he
    · obtain ⟨-, -, rfl⟩ := hc
      exact absurd rfl ht
    · exact .inr ⟨_, hc.2⟩
    · exact .inr ⟨_, hc.2⟩

/-- A command that leaves ERR at 0, from ERR 0, has completed (R12). -/
theorem completes_of_err_none {i : Instr} {s t : State} (h : exec i s = .next t) (he : s.err = .none)
    (ht : t.err = .none) : Completes i s t := by
  obtain ⟨hn, -⟩ | ⟨-, e, hr, rfl⟩ | hc := exec_cases h
  · exact absurd he hn
  · exact absurd ht hr.ne_none
  · exact hc

/-- DEC, DEC.S, BYP and TRM need an ACTIVE engine (R83, R86, R87, R93). -/
theorem exec_of_not_active {i : Instr} {s : State} (hi : (∃ k, i = .dec k) ∨ i = .decS ∨ i = .byp ∨ i = .trm)
    (he : s.err = .none) (ha : s.eng ≠ .active) : exec i s = .next { s with err := .notInit } := by
  obtain ⟨k, rfl⟩ | rfl | rfl | rfl := hi
  · exact exec_decision_notInit (.inl rfl) he (.inr (.inl ha))
  · exact exec_decision_notInit (.inr ⟨rfl, rfl⟩) he (.inr (.inl ha))
  · exact exec_byp_notInit he ha
  · exact exec_trm_notInit he ha

/-- A terminate bin decides ENG: 0 leaves it ACTIVE, 1 makes it TERMINATED (R87, R93). -/
theorem Completes.trm_eng {s t : State} (h : Completes .trm s t) :
    (t.result = 0 ∧ t.eng = .active) ∨ (t.result = 1 ∧ t.eng = .terminated) := by
  obtain ⟨-, ha, ⟨-, -, -, -, -, rfl⟩ | ⟨-, v, -, -, -, -, -, rfl⟩⟩ := h
  · exact .inr ⟨rfl, rfl⟩
  · exact .inl ⟨rfl, ha⟩

/-- ENG is changed by CINIT, EINIT and TRM alone (R93). -/
theorem eq_of_eng_ne {i : Instr} {s t : State} (h : exec i s = .next t) (hne : t.eng ≠ s.eng) :
    (∃ slt idc qbd sqd piq, i = .cinit slt idc qbd sqd piq) ∨ i = .einit ∨ i = .trm := by
  obtain ⟨idc, qbd, sqd, piq, rfl, -⟩ | rfl | ⟨rfl, -⟩ := (exec_writes h).eng hne
  · exact .inl ⟨_, _, _, _, _, rfl⟩
  · exact .inr (.inl rfl)
  · exact .inr (.inr rfl)

/-- An I-slice CINIT completes, whatever ERR is (R76, R147 a). -/
theorem completes_cinit {idc qbd : Nat} {sqd piq : Int} {s t : State} (h : exec (.cinit .i idc qbd sqd piq) s = .next t)
    (hidc : idc ≠ 3) : Completes (.cinit .i idc qbd sqd piq) s t := by
  have hc : Completes (.cinit .i idc qbd sqd piq) s _ := ⟨rfl, hidc, rfl⟩
  cases hc.exec_eq.symm.trans h
  exact hc

/-- Settles O49: which commands can change ENG is what they write, and each of them is then looked at. -/
theorem engStateMachine : Obligations.EngStateMachine := by
  refine ⟨fun i s t h => ⟨?_, ?_, ?_, ?_, ?_, ?_, eq_of_eng_ne h⟩, fun s => rfl⟩
  · rintro _ idc qbd sqd piq rfl rfl hidc
    obtain ⟨-, -, rfl⟩ := completes_cinit h hidc
    rfl
  · rintro rfl he ht
    obtain ⟨-, v, -, -, rfl⟩ := completes_of_err_none h he ht
    rfl
  · intro hi he ha
    cases h.symm.trans (exec_of_not_active hi he ha)
    rfl
  · intro hi
    by_contra hne
    obtain ⟨slt, idc, qbd, sqd, piq, rfl⟩ | rfl | rfl := eq_of_eng_ne h hne <;> simp at hi
  · rintro rfl - he ht
    exact (completes_of_err_none h he ht).trm_eng
  · intro ht
    obtain ⟨e, rfl⟩ | ⟨r, rfl⟩ := exec_of_err_ne_none h ht
    · rfl
    · rfl

/-! ## Bits consumed -/

section

variable {ci : CtxIdx} {s t : State}

/-- RenormD after the LPS path takes 8 - floor(log2 rLPS) bits, six at most below pStateIdx 63 (R91). -/
theorem Decides.cursor_lps (h : Decides ci s t) (ht : CheckedTables s.config.tables) (hi : EngineInv s)
    (hx : ContextInv s)
    (hle : s.codIRange.toNat ≤ s.codIOffset.toNat + lpsRange s.config.tables (s.ctx.get ci) s.codIRange.toNat) :
    t.cursor = s.cursor + (8 - Nat.log2 (lpsRange s.config.tables (s.ctx.get ci) s.codIRange.toNat)) ∧
      8 - Nat.log2 (lpsRange s.config.tables (s.ctx.get ci) s.codIRange.toNat) ≤ 6 := by
  obtain ⟨hc, ha, v, hv, -, -, -, -, rfl⟩ := h
  obtain ⟨hlo, hhi, -⟩ := hi.1 ha
  obtain ⟨h2, h240, h128⟩ := lpsRange_bounds ht (s.ctx.get ci) hlo hhi
  have h6 : 6 ≤ lpsRange s.config.tables (s.ctx.get ci) s.codIRange.toNat :=
    ht.rangeBelow63 _ _ (hx hc ci) (by omega)
  rw [decodeDecision_lps hle] at hv
  generalize lpsRange s.config.tables (s.ctx.get ci) s.codIRange.toNat = rLPS at *
  have hlog : 2 ≤ Nat.log2 rLPS := (Nat.le_log2 (by omega)).mpr (by omega)
  obtain ⟨-, h256, h512⟩ := doublings_bounds h2 (by omega)
  have ho : (s.codIOffset.toNat : Int) - (s.codIRange.toNat - rLPS) =
      (s.codIOffset.toNat - (s.codIRange.toNat - rLPS) : Nat) := by omega
  rw [ho, renorm_eq_readBits h256 h512] at hv
  obtain ⟨u, -, rfl⟩ := Option.map_eq_some_iff.mp hv
  exact ⟨rfl, by omega⟩

/-- RenormD after the MPS path takes one bit at most (R91). -/
theorem Decides.cursor_mps (h : Decides ci s t) (ht : CheckedTables s.config.tables) (hi : EngineInv s)
    (hlt : s.codIOffset.toNat + lpsRange s.config.tables (s.ctx.get ci) s.codIRange.toNat < s.codIRange.toNat) :
    t.cursor = s.cursor ∨ t.cursor = s.cursor + 1 := by
  obtain ⟨-, ha, v, hv, -, -, -, -, rfl⟩ := h
  obtain ⟨hlo, hhi, -⟩ := hi.1 ha
  obtain ⟨-, -, h128⟩ := lpsRange_bounds ht (s.ctx.get ci) hlo hhi
  rw [decodeDecision_mps hlt] at hv
  obtain ⟨-, -, -, -, hge, hle⟩ := renorm_spec 1 hv (by simp only; omega) (by simp only; omega) (by simp only; omega)
    (by simp only; omega)
  simp only [complete_cursor] at *
  omega

/-- TRM reads no bit with a bin of 1, and with a bin of 0 one exactly where codIRange was 256 or 257 (R87, R91). -/
theorem Completes.cursor_trm (h : Completes .trm s t) (hi : EngineInv s) :
    (t.result = 1 → t.cursor = s.cursor) ∧
    (t.result = 0 →
      t.cursor = s.cursor + if s.codIRange.toNat = 256 ∨ s.codIRange.toNat = 257 then 1 else 0) := by
  obtain ⟨-, ha, ⟨-, -, -, -, -, rfl⟩ | ⟨hc, v, hv, -, -, -, -, rfl⟩⟩ := h
  · exact ⟨fun _ => rfl, fun h0 => absurd h0 (show binWord true ≠ 0 by decide)⟩
  · refine ⟨fun h1 => absurd h1 (show binWord false ≠ 1 by decide), fun _ => ?_⟩
    obtain ⟨hlo, hhi, -⟩ := hi.1 ha
    by_cases h258 : s.codIRange.toNat < 258
    · have hr : (s.codIRange.toNat : Int) - 2 = (s.codIRange.toNat - 2 : Nat) := by omega
      rw [hr, renorm_of_half (by omega) (by omega)] at hv
      obtain ⟨b, -, rfl⟩ := Option.map_eq_some_iff.mp hv
      rw [if_pos (by omega)]
      rfl
    · rw [renorm_of_ge (by simp only; omega)] at hv
      cases hv
      rw [if_neg (by omega)]
      rfl

end

/-- Settles O52: a command that does not complete changes ERR or RESULT alone; the others, each by its rule. -/
theorem bitsConsumedPerCommand : Obligations.BitsConsumedPerCommand := by
  intro i s t ht hi hx h
  refine ⟨fun hne => ?_, fun he hn => ?_⟩
  · obtain ⟨e, rfl⟩ | ⟨r, rfl⟩ := exec_of_err_ne_none h hne
    · rfl
    · rfl
  · have hc := completes_of_err_none h he hn
    have hw := hc.writes.cursor
    cases i with
    | einit =>
      obtain ⟨-, v, -, -, rfl⟩ := hc
      rfl
    | dec k => exact ⟨hc.2.cursor_mps ht hi, hc.2.cursor_lps ht hi hx⟩
    | decS => exact ⟨hc.2.2.cursor_mps ht hi, hc.2.2.cursor_lps ht hi hx⟩
    | byp =>
      obtain ⟨-, -, b, -, ⟨-, -, -, -, -, rfl⟩ | ⟨-, -, -, -, -, rfl⟩⟩ := hc
      · rfl
      · rfl
    | trm => exact hc.cursor_trm hi
    | _ => simpa using hw

/-! ## pStateIdx 63 -/

/-- A command's end over other tables. -/
def CmdEnd.withTables (t : ConstTables) : CmdEnd → CmdEnd
  | .done s => .done (s.withTables t)
  | .raise e => .raise e
  | .misfit => .misfit

section

variable {t : ConstTables} {s : State}

/-- An error is latched alike over other tables. -/
theorem takeError_withTables (e : ErrCode) : takeError e (s.withTables t) = (takeError e s).withTables t := by
  rw [takeError, takeError, apply_ite (State.withTables t)]
  rfl

/-- Issuing a command is alike where its rule ends alike over other tables. -/
theorem issue_withTables {op : Opcode} {b c : CmdEnd} (h : c = b.withTables t) :
    AgreeOutcome (fun u v => v = u.withTables t) (issue op s b) (issue op (s.withTables t) c) := by
  subst h
  by_cases hr : s.err ≠ .none ∧ op.exempt = false
  · rw [issue_refused _ hr.1 hr.2, issue_refused _ (s := s.withTables t) hr.1 hr.2]
    exact rfl
  · have hg : s.err = .none ∨ op.exempt = true := by simpa [or_iff_not_imp_left] using hr
    rw [issue_runs _ hg, issue_runs _ (s := s.withTables t) hg]
    cases b with
    | done u => exact rfl
    | raise e => exact takeError_withTables e
    | misfit => exact rfl

/-- Rules that branch on the same condition end alike where their branches do. -/
theorem withTables_branch {b b' d d' : CmdEnd} {q : Prop} {i j : Decidable q} (hb : b' = b.withTables t)
    (hd : d' = d.withTables t) : @ite _ q i b' d' = (@ite _ q j b d).withTables t := by
  by_cases hq : q
  · rwa [if_pos hq, if_pos hq]
  · rwa [if_neg hq, if_neg hq]

/-- A decoding command that stores the same values ends alike. -/
theorem finishEngine_withTables (v : EngineVals) (bin : Bool) :
    finishEngine v bin (s.withTables t) = (finishEngine v bin s).withTables t :=
  withTables_branch rfl rfl

/-- A CSEL that selects the same ends alike. -/
theorem finishSelect_withTables (sel : Selection) :
    finishSelect sel (s.withTables t) = (finishSelect sel s).withTables t :=
  withTables_branch rfl rfl

/-- DEC ends alike where DecodeDecision is the same (R83). -/
theorem decBody_withTables (ci : CtxIdx)
    (hd : s.ctxv = true → ∀ r o,
      decodeDecision t (s.ctx.get ci) r o = decodeDecision s.config.tables (s.ctx.get ci) r o) :
    decBody ci (s.withTables t) = (decBody ci s).withTables t := by
  by_cases hg : s.ctxv = false ∨ s.eng ≠ .active
  · rw [decBody, decBody, if_pos hg, if_pos (by exact hg)]
    rfl
  · obtain ⟨hc, ha⟩ : s.ctxv = true ∧ s.eng = .active := by simpa using hg
    have hd := hd hc s.codIRange.toNat s.codIOffset.toNat
    generalize hd' : decodeDecision s.config.tables (s.ctx.get ci) s.codIRange.toNat s.codIOffset.toNat = d at hd
    rw [decBody_of_active (s := s.withTables t) hc ha hd, decBody_of_active hc ha hd', withTables_buf,
      withTables_cursor]
    cases renorm s.buf ⟨d.range, d.offset, s.cursor⟩ with
    | none => rfl
    | some v => exact finishEngine_withTables (s := { s with ctx := s.ctx.set ci d.ctx }) v d.bin

/-- BYP reads no table (R86). -/
theorem execByp_withTables :
    AgreeOutcome (fun u v => v = u.withTables t) (execByp s) (execByp (s.withTables t)) := by
  refine issue_withTables (withTables_branch rfl ?_)
  rw [withTables_buf, withTables_cursor]
  cases readBit s.buf s.cursor with
  | none => rfl
  | some b => exact withTables_branch (finishEngine_withTables _ _) (finishEngine_withTables _ _)

/-- TRM reads no table (R87). -/
theorem execTrm_withTables :
    AgreeOutcome (fun u v => v = u.withTables t) (execTrm s) (execTrm (s.withTables t)) := by
  refine issue_withTables (withTables_branch rfl (withTables_branch ?_ ?_))
  · exact finishEngine_withTables (s := { s with eng := .terminated }) _ _
  · rw [withTables_buf, withTables_codIRange, withTables_codIOffset, withTables_cursor]
    cases renorm s.buf ⟨(s.codIRange.toNat : Int) - 2, s.codIOffset.toNat, s.cursor⟩ with
    | none => rfl
    | some v => exact finishEngine_withTables v false

/-- EINIT reads no table (R77). -/
theorem execEinit_withTables :
    AgreeOutcome (fun u v => v = u.withTables t) (execEinit s) (execEinit (s.withTables t)) := by
  refine issue_withTables ?_
  rw [withTables_buf, withTables_cursor]
  cases readBits s.buf 9 s.cursor with
  | none => rfl
  | some v => exact withTables_branch rfl rfl

/-- CSEL is alike where the selection is the same (R102). -/
theorem cselBody_withTables {se : SyntaxElement} {cat : BlockCat} {idx : Nat} {a b x c : Bool}
    (hs : ∀ eq1 gt1, select t se cat idx a b x c eq1 gt1 = select s.config.tables se cat idx a b x c eq1 gt1) :
    cselBody se cat idx a b x c (s.withTables t) = (cselBody se cat idx a b x c s).withTables t := by
  refine withTables_branch rfl (withTables_branch rfl (withTables_branch rfl (withTables_branch rfl ?_)))
  rw [withTables_tables, withTables_eq1cnt, withTables_gt1cnt, hs]
  cases select s.config.tables se cat idx a b x c s.eq1cnt.toNat s.gt1cnt.toNat with
  | none => rfl
  | some sel => exact finishSelect_withTables sel

/-- CINIT reads CTX_INIT_MN alone (R76). -/
theorem cinitBody_withTables (slt : SliceType) (idc qbd : Nat) (sqd piq : Int) :
    cinitBody slt idc qbd sqd piq (s.withTables t) = (cinitBody slt idc qbd sqd piq s).withTables t := by
  cases slt with
  | reserved code => rfl
  | _ => exact withTables_branch rfl rfl

/-- A command reads the tables only in a decision on an initialised context and in a selection (R41). -/
theorem exec_withTables (i : Instr)
    (hd : s.ctxv = true → ∀ ci r o,
      decodeDecision t (s.ctx.get ci) r o = decodeDecision s.config.tables (s.ctx.get ci) r o)
    (hs : ∀ se cat idx a b x c eq1 gt1,
      select t se cat idx a b x c eq1 gt1 = select s.config.tables se cat idx a b x c eq1 gt1) :
    AgreeOutcome (fun u v => v = u.withTables t) (exec i s) (exec i (s.withTables t)) := by
  have hdec (ci : CtxIdx) : decBody ci (s.withTables t) = (decBody ci s).withTables t :=
    decBody_withTables ci fun hc => hd hc ci
  cases i with
  | cinit slt idc qbd sqd piq => exact issue_withTables (op := .cinit) (cinitBody_withTables slt idc qbd sqd piq)
  | einit => exact execEinit_withTables
  | dec k => exact issue_withTables (op := .dec) (hdec k)
  | decS => exact issue_withTables (op := .dec) (withTables_branch rfl (hdec s.selctx))
  | byp => exact execByp_withTables
  | trm => exact execTrm_withTables
  | csel se cat idx a b x c => exact issue_withTables (op := .csel) (cselBody_withTables (hs se cat idx a b x c))
  | lvlrst =>
    exact issue_withTables (op := .lvlrst) (b := .done (complete 0 { s with eq1cnt := 0, gt1cnt := 0 })) rfl
  | lvlacc g =>
    refine issue_withTables (op := .lvlacc) ?_
    cases g <;> rfl
  | rdctx k => exact issue_withTables (op := .rdctx) (withTables_branch rfl rfl)
  | rdeng => exact issue_withTables (op := .rdeng) (withTables_branch rfl rfl)

/-- A word that does not decode is rejected alike over other tables. -/
theorem rejectWord_withTables (w : Word) (e : DecodeError) :
    rejectWord w e (s.withTables t) = (rejectWord w e s).withTables t := by
  rw [rejectWord_eq, rejectWord_eq, apply_ite (State.withTables t)]
  rfl

end

/-- DecodeDecision reads one row of RANGE_TAB_LPS and one entry of a transition table, those of the context's pStateIdx
(R79, R83). -/
theorem decodeDecision_congr {t u : ConstTables} {x : Ctx}
    (hr : u.rangeTabLPS.get x.pStateIdx = t.rangeTabLPS.get x.pStateIdx)
    (hl : u.transIdxLPS.get x.pStateIdx = t.transIdxLPS.get x.pStateIdx)
    (hm : u.transIdxMPS.get x.pStateIdx = t.transIdxMPS.get x.pStateIdx) (r o : Int) :
    decodeDecision u x r o = decodeDecision t x r o := by
  have hrange : codIRangeLPS u x r = codIRangeLPS t x r := by
    rw [codIRangeLPS, codIRangeLPS, rangeTabLPS, rangeTabLPS, hr]
  rw [decodeDecision, decodeDecision, hrange, transIdxLPS, transIdxMPS, hl, hm]
  rfl

/-- Every word keeps the contexts off 63 (R92). -/
theorem issueWord_contextInv {w : Word} {s t : State} (h : issueWord w s = .next t) (ht : CheckedTables s.config.tables)
    (hi : ContextInv s) : ContextInv t := by
  obtain ⟨-, rfl⟩ | ⟨-, e, -, rfl⟩ | ⟨i, -, hc⟩ := issueWord_cases h
  · exact hi
  · exact hi
  · exact hc.contextInv ht hi

/-- Settles O46: a decision reads the row and the entries of its context's pStateIdx, which is at most 62 where CTXV is
1, and CSEL reads neither RANGE_TAB_LPS nor the transition tables. -/
theorem contextsNeverReach63 : Obligations.ContextsNeverReach63 := by
  refine ⟨fun idc qbd sqd piq s t h hidc k => ?_, fun p hp => ?_, fun w s t ht hi h => issueWord_contextInv h ht hi,
    fun w s rows lps mps hi hsame => ?_⟩
  · obtain ⟨-, -, rfl⟩ := completes_cinit h hidc
    simpa using initCtx_le _ _
  · obtain ⟨h1, h62⟩ := intended_mps hp
    exact ⟨h1, h62, intended_lps hp⟩
  · intro other
    have hdec (hc : s.ctxv = true) (ci : CtxIdx) (r o : Int) :
        decodeDecision other (s.ctx.get ci) r o = decodeDecision s.config.tables (s.ctx.get ci) r o := by
      obtain ⟨hr, hl, hm⟩ := hsame _ (hi hc ci)
      exact decodeDecision_congr hr hl hm r o
    unfold issueWord
    cases decodeWord w with
    | ok i => exact exec_withTables i hdec fun _ _ _ _ _ _ _ _ _ => rfl
    | error e => exact rejectWord_withTables w e

/-! ## A level's suffix bin -/

/-- BYP reads neither the selection nor RESULT (R86): after a CSEL that selects a bypass bin it does the same. -/
theorem Completes.byp_selected {s t : State} (h : Completes .byp s t) :
    Completes .byp (s.selected .bypass 0) { t with selctx := 0, selv := false } := by
  obtain ⟨he, ha, b, hb, hf⟩ := h
  refine ⟨he, ha, b, hb, hf.imp ?_ ?_⟩
  · rintro ⟨hc, hr0, hr1, ho0, ho1, rfl⟩
    exact ⟨hc, hr0, hr1, ho0, ho1, rfl⟩
  · rintro ⟨hc, hr0, hr1, ho0, ho1, rfl⟩
    exact ⟨hc, hr0, hr1, ho0, ho1, rfl⟩

/-- A level's bins from 14 on are bypass bins, whatever the tables (R103, R119). -/
theorem exec_cselAbsLevel_bypass {cat : BlockCat} {j : Nat} {s : State} (he : s.err = .none) (h6 : cat ≠ .cat6)
    (h7 : cat ≠ .cat7) (hj : 14 ≤ j) : exec (cselAbsLevel cat j) s = .next (s.selected .bypass 0) := by
  have hkind : binKind .absLevel (min j 63) = .bypass := if_neg (by omega)
  obtain ⟨k, hk⟩ : ∃ k, ctxBlockCatOffset s.config.tables .absLevel cat = some k := by
    cases cat with
    | cat6 => exact absurd rfl h6
    | cat7 => exact absurd rfl h7
    | _ => exact ⟨_, rfl⟩
  have hsel : select s.config.tables .absLevel cat (min j 63) false false false false s.eq1cnt.toNat s.gt1cnt.toNat =
      some ⟨.bypass, 0⟩ := by simp [select, hk, hkind]
  exact exec_csel_of_select he (idxOutOfRange_of_le rfl (by omega)) hsel

/-- The unit answers the host exactly where the command leaves ERR at 0 (R162). -/
theorem askUnit_eq_some {i : Instr} {s t : State} {r : Word} :
    askUnit i s = some (r, t) ↔ exec i s = .next t ∧ t.err = .none ∧ t.result = r := by
  unfold askUnit
  cases exec i s with
  | next u =>
    simp only [Host.Outcome.next.injEq]
    refine ⟨fun h => ?_, fun ⟨ht, he, hr⟩ => by rw [ht, if_pos he, hr]⟩
    split at h <;> cases h
    next he => exact ⟨rfl, he, rfl⟩
  | fault r => simp
  | refused r => simp

/-- The bin that the unit answers is RESULT's (R70). -/
theorem askBin_eq_some {i : Instr} {s t : State} {b : Bool} :
    askBin i s = some (b, t) ↔ exec i s = .next t ∧ t.err = .none ∧ decide (t.result = 1) = b := by
  rw [askBin, Option.map_eq_some_iff]
  constructor
  · rintro ⟨⟨r, u⟩, h, hb⟩
    obtain ⟨hx, he, rfl⟩ := askUnit_eq_some.mp h
    cases hb
    exact ⟨hx, he, rfl⟩
  · rintro ⟨hx, he, rfl⟩
    exact ⟨(t.result, t), askUnit_eq_some.mpr ⟨hx, he, rfl⟩, rfl⟩

/-- Settles O59: the CSEL selects a bypass bin, and BYP reads nothing that it wrote. -/
theorem suffixBinWithAndWithoutCsel : Obligations.SuffixBinWithAndWithoutCsel := by
  intro cat j s t b he h6 h7 hj h
  obtain ⟨hx, ht, rfl⟩ := askBin_eq_some.mp h
  have hbyp := (completes_of_err_none hx he ht).byp_selected.exec_eq
  have hask : askUnit (cselAbsLevel cat j) s = some ((s.selected .bypass 0).result, s.selected .bypass 0) :=
    askUnit_eq_some.mpr ⟨exec_cselAbsLevel_bypass he h6 h7 hj, he, rfl⟩
  have hcmd : binCommand (s.selected .bypass 0).result = .byp := show binCommand 4096 = .byp by decide
  rw [suffixBin, if_pos rfl, codedBin, hask]
  refine askBin_eq_some.mpr ⟨?_, ht, rfl⟩
  rw [hcmd]
  exact hbyp

end Sys2Proof.Machine

/-! SUPPORT. Context selection in numbers and the level counters (42_context_select): the indices that CSEL reports with the
tables the spec intends, its errors, the allocation that they come from, and the level counters. -/

namespace Sys2Proof.Machine

open Sys2Proof

/-! ## The indices of the intended tables -/

section

variable {s : State} {se : SyntaxElement} {cat : BlockCat} {idx : Nat} {a b x c : Bool}

/-- With the intended tables the sum of R100 fits SELCTX, so CSEL reports it. -/
theorem SelectsSum.exec_eq {k : Nat} (h : SelectsSum s se cat idx a b x c k) (ht : s.config.tables = intendedTables) :
    exec (.csel se cat idx a b x c) s = .next (s.selected .context k) := by
  rw [h.1, if_pos (h.2 ht)]

/-- R100 with the intended tables: CSEL reports the sum of the two offsets and the increment. -/
theorem exec_csel_context {offset catOffset k : Nat} (he : s.err = .none) (ht : s.config.tables = intendedTables)
    (ho : ctxIdxOffset intendedTables se cat = some offset)
    (hc : ctxBlockCatOffset intendedTables se cat = some catOffset)
    (hi : idxOutOfRange se cat idx c = false) (hb : binKind se idx = .context)
    (hk : offset + catOffset + ctxIdxInc intendedTables se cat idx a b x c s.eq1cnt.toNat s.gt1cnt.toNat = k) :
    exec (.csel se cat idx a b x c) s = .next (s.selected .context k) := by
  rw [← ht] at ho hc hk
  exact (selectsSum he ho hc hi hb hk).exec_eq ht

/-- A bypass bin reports no index, whatever the tables (R103). -/
theorem exec_csel_bypass {catOffset : Nat} (he : s.err = .none)
    (hc : ctxBlockCatOffset s.config.tables se cat = some catOffset)
    (hi : idxOutOfRange se cat idx c = false) (hb : binKind se idx = .bypass) :
    exec (.csel se cat idx a b x c) s = .next (s.selected .bypass 0) :=
  exec_csel_of_select (sel := ⟨.bypass, 0⟩) he hi (by simp [select, hc, hb])

/-- A terminate bin reports 276 with the intended tables (R103, R104). -/
theorem exec_csel_terminate {catOffset : Nat} (he : s.err = .none) (ht : s.config.tables = intendedTables)
    (hc : ctxBlockCatOffset intendedTables se cat = some catOffset)
    (hi : idxOutOfRange se cat idx c = false) (hb : binKind se idx = .terminate) :
    exec (.csel se cat idx a b x c) s = .next (s.selected .terminate 276) :=
  exec_csel_of_select (sel := ⟨.terminate, 276⟩) he hi (by simp [select, ht, hc, hb])

end

/-- Settles O26, element by element and bin by bin. -/
theorem cselMacroblockElements : Obligations.CselMacroblockElements := by
  intro s cat a b x c he ht
  refine ⟨?_, ?_, ?_, ?_, ?_, ?_, ?_, ?_, ?_, fun idx hi => ?_, ?_, fun idx hi => ?_⟩
  -- mb_type, bins 0 to 6
  · exact exec_csel_context he ht rfl rfl rfl rfl (Nat.add_assoc 3 _ _).symm
  · exact exec_csel_terminate he ht rfl rfl rfl
  · exact exec_csel_context he ht rfl rfl rfl rfl rfl
  · exact exec_csel_context he ht rfl rfl rfl rfl rfl
  · exact exec_csel_context he ht rfl rfl rfl rfl (by cases x <;> rfl)
  · exact exec_csel_context he ht rfl rfl rfl rfl (by cases x <;> rfl)
  · exact exec_csel_context he ht rfl rfl rfl rfl rfl
  -- transform_size_8x8_flag and the intra prediction modes
  · exact exec_csel_context he ht rfl rfl rfl rfl (Nat.add_assoc 399 _ _).symm
  · exact exec_csel_context he ht rfl rfl rfl rfl rfl
  · exact exec_csel_context he ht rfl rfl (idxOutOfRange_of_le rfl hi) rfl rfl
  -- intra_chroma_pred_mode
  · exact exec_csel_context he ht rfl rfl rfl rfl (Nat.add_assoc 64 _ _).symm
  · obtain rfl | rfl := hi <;> exact exec_csel_context he ht rfl rfl rfl rfl rfl

/-- Settles O27, element by element. -/
theorem cselPatternAndQpElements : Obligations.CselPatternAndQpElements := by
  intro s cat a b x c he ht
  refine ⟨fun idx hi => ?_, ?_, ?_, ?_, ?_, fun idx h2 h63 => ?_⟩
  -- coded_block_pattern: the luma part, and the two bins of the chroma suffix
  · exact exec_csel_context he ht rfl rfl (idxOutOfRange_of_le rfl hi) rfl (Nat.add_assoc 73 _ _).symm
  · exact exec_csel_context he ht rfl rfl rfl rfl (by simp [ctxIdxInc, Nat.add_assoc])
  · exact exec_csel_context he ht rfl rfl rfl rfl (by simp [ctxIdxInc]; omega)
  -- mb_qp_delta
  · exact exec_csel_context he ht rfl rfl rfl rfl rfl
  · exact exec_csel_context he ht rfl rfl rfl rfl rfl
  · refine exec_csel_context he ht rfl rfl (idxOutOfRange_of_le rfl h63) rfl ?_
    rw [ctxIdxInc, if_neg (by omega), if_neg (by omega)]
    rfl

/-- Settles O28, category by category. -/
theorem cselCodedBlockFlag : Obligations.CselCodedBlockFlag := by
  intro s a b x c he ht p hp
  fin_cases hp <;> exact exec_csel_context he ht rfl rfl rfl rfl (Nat.add_assoc _ _ _).symm

/-- Settles O29, by the three forms of the increment: the list index itself, that of chroma DC, and the 8x8 maps. -/
theorem cselSignificanceMaps : Obligations.CselSignificanceMaps := by
  intro s idx a b x c he ht
  refine ⟨fun p hp hi => ?_, ?_, ?_, fun hi => ?_⟩
  · fin_cases hp <;>
      exact ⟨exec_csel_context he ht rfl rfl (idxOutOfRange_of_le rfl hi) rfl rfl,
        exec_csel_context he ht rfl rfl (idxOutOfRange_of_le rfl hi) rfl rfl⟩
  · rintro rfl hi
    have hinc : min (idx / numC8x8 false) 2 = idx := by simp [numC8x8, hi]
    exact ⟨exec_csel_context he ht rfl rfl (idxOutOfRange_of_le rfl hi) rfl (congrArg (149 + ·) hinc),
      exec_csel_context he ht rfl rfl (idxOutOfRange_of_le rfl hi) rfl (congrArg (210 + ·) hinc)⟩
  · rintro rfl hi
    exact ⟨exec_csel_context he ht rfl rfl (idxOutOfRange_of_le rfl hi) rfl rfl,
      exec_csel_context he ht rfl rfl (idxOutOfRange_of_le rfl hi) rfl rfl⟩
  · rw [ht]
    exact ⟨exec_csel_context he ht rfl rfl (idxOutOfRange_of_le rfl hi) rfl rfl,
      exec_csel_context he ht rfl rfl (idxOutOfRange_of_le rfl hi) rfl rfl⟩

/-- Settles O30: the two offsets category by category, then bins 0, 1 to 13, and 14 on. The model's own `cselAbsLevel` is
the host's command. -/
theorem cselAbsLevel_holds : Obligations.CselAbsLevel := by
  intro s idx a b x c he ht p hp
  have hoffset : ∃ offset catOffset, offset + catOffset = p.2 ∧
      ctxIdxOffset s.config.tables .absLevel p.1 = some offset ∧
      ctxBlockCatOffset s.config.tables .absLevel p.1 = some catOffset := by
    rw [ht]
    fin_cases hp <;> exact ⟨_, _, rfl, rfl, rfl⟩
  obtain ⟨offset, catOffset, hsum, ho, hc⟩ := hoffset
  rw [← hsum]
  refine ⟨(selectsSum_absLevel_zero a b x c he ho hc).exec_eq ht, fun h1 h13 => ?_, fun h14 h63 => ?_⟩
  · rw [Nat.add_assoc (offset + catOffset)]
    exact (selectsSum_absLevel_pos a b x c he ho hc h1 h13).exec_eq ht
  · exact exec_csel_bypass he hc (idxOutOfRange_of_le rfl h63) (if_neg (by omega))

/-- Settles O31, by the kind of each element's one bin. -/
theorem cselSignAndEndOfSlice : Obligations.CselSignAndEndOfSlice :=
  fun _ _ _ _ _ _ he ht => ⟨exec_csel_bypass he rfl rfl rfl, exec_csel_terminate he ht rfl rfl rfl⟩

/-! ## CSEL's errors -/

/-- An element with the code 14, 15, or 26 to 31 is reserved (R62). -/
theorem isReserved_of_code {se : SyntaxElement} (h : se.code = 14 ∨ se.code = 15 ∨ 26 ≤ se.code) :
    se.isReserved = true := by
  cases se with
  | reserved code => rfl
  | _ => exact absurd h (by decide)

/-- The elements with the codes 16 to 25 are the unsupported ones (R62). -/
theorem isUnsupported_of_code {se : SyntaxElement} (hw : se.wellFormed = true) (h16 : 16 ≤ se.code)
    (h25 : se.code ≤ 25) : se.isUnsupported = true := by
  cases se with
  | reserved code =>
    have hcode := (isReserved_iff hw).mp rfl
    omega
  | mbSkip | mbTypeP | mbTypeB | subMbType | mvd | refIdx | mbField | sigField | lastField | mbTypeSi => rfl
  | _ => exact absurd h16 (by decide)

section

variable {s : State} {se : SyntaxElement} {cat : BlockCat} {idx : Nat} {a b x c : Bool}

/-- An element that the unit does not support raises E_UNSUPPORTED whatever IDX is, since it has no range (R103, R122). -/
theorem exec_csel_of_isUnsupported (he : s.err = .none) (hu : se.isUnsupported = true) :
    exec (.csel se cat idx a b x c) s = .next { s with err := .unsupported } := by
  have hbody : cselBody se cat idx a b x c s = .raise .unsupported := by
    cases se with
    | mbSkip | mbTypeP | mbTypeB | subMbType | mvd | refIdx | mbField | sigField | lastField | mbTypeSi => rfl
    | _ => cases hu
  rw [exec, execCsel, hbody]
  exact issue_of_raise he

/-- A residual element in a category that the unit does not support raises E_UNSUPPORTED where its IDX is in range
(R122). -/
theorem exec_csel_of_cat_isUnsupported (he : s.err = .none) (hr : se.isResidual = true) (hu : cat.isUnsupported = true)
    (hi : idxOutOfRange se cat idx c = false) :
    exec (.csel se cat idx a b x c) s = .next { s with err := .unsupported } := by
  have hbody : cselBody se cat idx a b x c s = .raise .unsupported := by
    cases se with
    | cbf | sig | last | absLevel => simp [cselBody, SyntaxElement.isReserved, SyntaxElement.isUnsupported, hi, hr, hu]
    | _ => cases hr
  rw [exec, execCsel, hbody]
  exact issue_of_raise he

end

/-- Settles O32, by the check of R102 that comes first. -/
theorem cselUnsupportedAndReserved : Obligations.CselUnsupportedAndReserved := by
  intro s se cat idx a b x c he
  refine ⟨fun h16 h25 hw => exec_csel_of_isUnsupported he (isUnsupported_of_code hw h16 h25),
    fun h => (exec_illegalOperand_iff he).mpr (.inl (isReserved_of_code h)), fun hcat => ?_⟩
  have hu : cat.isUnsupported = true := by obtain rfl | rfl := hcat <;> rfl
  have hsig : idxOutOfRange .sig cat idx c = false := by obtain rfl | rfl := hcat <;> rfl
  have hillegal (h : 0 < idx) : HasIllegalOperand (.csel .cbf cat idx a b x c) := .inr (decide_eq_true h)
  exact ⟨exec_csel_of_cat_isUnsupported he rfl hu rfl, fun h => (exec_illegalOperand_iff he).mpr (hillegal h),
    exec_csel_of_cat_isUnsupported he rfl hu hsig, exec_csel_of_cat_isUnsupported he rfl hu hsig,
    fun h63 => exec_csel_of_cat_isUnsupported he rfl hu (idxOutOfRange_of_le rfl h63)⟩

/-! ## The allocation of the context indices -/

/-- The rows follow each other without a gap or an overlap, from index `lo` up to but not including `hi` (R107). -/
def Tiles (hi : Nat) : Nat → List CtxRange → Prop
  | lo, [] => lo = hi
  | lo, r :: rows => r.first = lo ∧ lo ≤ r.last ∧ Tiles hi (r.last + 1) rows

/-- The rows that an index lies in. -/
def rowsAt (k : Nat) (rows : List CtxRange) : List CtxRange := rows.filter fun r => r.first ≤ k && k ≤ r.last

/-- An index below the first row lies in none. -/
theorem Tiles.rowsAt_below {hi lo k : Nat} {rows : List CtxRange} (h : Tiles hi lo rows) (hk : k < lo) :
    rowsAt k rows = [] := by
  induction rows generalizing lo with
  | nil => rfl
  | cons r rows ih =>
    obtain ⟨rfl, hle, htail⟩ := h
    simpa [rowsAt, show ¬r.first ≤ k by omega] using ih htail (by omega)

/-- An index from the first row's to the last row's lies in exactly one. -/
theorem Tiles.rowsAt_length {hi lo k : Nat} {rows : List CtxRange} (h : Tiles hi lo rows) (hlo : lo ≤ k) (hhi : k < hi) :
    (rowsAt k rows).length = 1 := by
  induction rows generalizing lo with
  | nil =>
    obtain rfl : lo = hi := h
    omega
  | cons r rows ih =>
    obtain ⟨rfl, hle, htail⟩ := h
    by_cases hk : k ≤ r.last
    · have hrest := htail.rowsAt_below (Nat.lt_succ_of_le hk)
      simp_all [rowsAt]
    · have hrest := ih htail (by omega)
      simp_all [rowsAt]

/-- The allocation of R107 runs from 0 to 1023 without a gap or an overlap. -/
theorem ctxAllocation_tiles : Tiles 1024 0 ctxAllocation := by simp [Tiles, ctxAllocation]

/-- Settles O35: the rows follow each other without a gap or an overlap. -/
theorem allocationCoversEveryIndex : Obligations.AllocationCoversEveryIndex :=
  fun k hk => ctxAllocation_tiles.rowsAt_length (Nat.zero_le k) hk

/-! ## Level counters -/

/-- Settles O38: the command clears the counters or is refused, and its word has no operand bits. -/
theorem lvlrstClearsCounters : Obligations.LvlrstClearsCounters :=
  fun _ => ⟨fun he => Completes.exec_eq (i := .lvlrst) ⟨he, rfl⟩, fun he => exec_refused he rfl,
    fun _ he hop hb => issueWord_of_formatN_bits he (by simp [hop]) hb⟩

/-- LVLACC's result word is GT1CNT above EQ1CNT, as a number (R124). -/
theorem countersWord_eq (eq1 gt1 : BitVec 7) : countersWord eq1 gt1 = BitVec.ofNat 32 (gt1.toNat * 256 + eq1.toNat) := by
  have heq1 : eq1.toNat < 2 ^ 8 := by omega
  rw [countersWord, ← BitVec.ofNat_toNat, ← BitVec.ofNat_toNat, ofNat_shiftLeft,
    ofNat_or_ofNat 8 (Nat.dvd_mul_left _ _) heq1]
  rfl

/-- Settles O39: one counter counts up, or the command is refused; format L has the one operand bit. -/
theorem lvlaccCountsAndSaturates : Obligations.LvlaccCountsAndSaturates := by
  intro s
  refine ⟨fun he => ⟨?_, ?_⟩, fun he => ⟨exec_refused he rfl, exec_refused he rfl⟩, fun w he hop hb => ?_⟩
  · rw [Completes.exec_eq (i := .lvlacc .eq1) ⟨he, rfl⟩, countersWord_eq, countUp_toNat]
    rfl
  · rw [Completes.exec_eq (i := .lvlacc .gt1) ⟨he, rfl⟩, countersWord_eq, countUp_toNat]
    rfl
  · exact (illegalOperandExactlyWhenR65Says w s he (by omega) (by omega)).mpr (by simp [hop, hb])

end Sys2Proof.Machine

/-! SUPPORT. The host contract (42_context_select R126 to R136): the walks over the bins of mb_type, the prediction modes,
mb_qp_delta and coded_block_pattern, and what their values stand for. -/

namespace Sys2Proof.Machine

open Sys2Proof

/-! ## The host's walk over the bins -/

/-- The bins come in this order exactly where the first comes and the others from the state after it. -/
theorem readsBins_cons {sel : Instr} {bin : Bool} {rest : List (Instr × Bool)} {s t : State} :
    readsBins ((sel, bin) :: rest) s = some t ↔ ∃ u, codedBin sel s = some (bin, u) ∧ readsBins rest u = some t := by
  rw [readsBins]
  cases codedBin sel s with
  | none => simp
  | some p =>
    obtain ⟨b, u⟩ := p
    by_cases hb : b = bin <;> simp [hb]

/-- No bins come without a step of the unit. -/
@[simp] theorem readsBins_nil {s t : State} : readsBins [] s = some t ↔ s = t := by simp [readsBins]

/-- A sequence of bins comes in two parts. -/
theorem readsBins_append {l l' : List (Instr × Bool)} {s t : State} :
    readsBins (l ++ l') s = some t ↔ ∃ u, readsBins l s = some u ∧ readsBins l' u = some t := by
  induction l generalizing s with
  | nil => simp
  | cons p l ih =>
    obtain ⟨sel, bin⟩ := p
    rw [List.cons_append, readsBins, readsBins]
    cases codedBin sel s with
    | none => simp
    | some q =>
      obtain ⟨b, u⟩ := q
      by_cases hb : b = bin <;> simp [hb, ih]

/-- The bins of a truncated unary code for `n`, at most `left`, from bin `k` on: a 1 for each, then a 0 unless there are
`left` of them (R129 to R131). -/
def unaryBins (sel : Nat → Instr) (left k n : Nat) : List (Instr × Bool) :=
  (List.range' k n).map (fun j => (sel j, true)) ++ if n < left then [(sel (k + n), false)] else []

/-- The walk over a truncated unary code counts its 1 bins and ends after its last bin. -/
theorem decodeUnary_of_readsBins {sel : Nat → Instr} {left k n : Nat} {s t : State} (hn : n ≤ left)
    (h : readsBins (unaryBins sel left k n) s = some t) : decodeUnary sel left k s = some (k + n, t) := by
  induction n generalizing left k s with
  | zero =>
    cases left with
    | zero =>
      obtain rfl : s = t := by simpa [unaryBins] using h
      rfl
    | succ left =>
      have hbin : codedBin (sel k) s = some (false, t) := by simpa [unaryBins, readsBins_cons] using h
      simp [decodeUnary, hbin]
  | succ n ih =>
    cases left with
    | zero => omega
    | succ left =>
      have hcons : unaryBins sel (left + 1) k (n + 1) = (sel k, true) :: unaryBins sel left (k + 1) n := by
        simp [unaryBins, List.range'_succ, Nat.add_comm, Nat.add_left_comm]
      rw [hcons, readsBins_cons] at h
      obtain ⟨u, hbin, hrest⟩ := h
      simp [decodeUnary, hbin, ih (by omega) hrest, Nat.add_comm, Nat.add_left_comm]

/-! ## mb_type -/

/-- An Intra_16x16 mb_type is 1 to 24 (R126). -/
theorem mbType16x16_bounds (b2 pm1 pm0 : Bool) {ch : Nat} (h : ch ≤ 2) :
    1 ≤ mbType16x16 b2 ch pm1 pm0 ∧ mbType16x16 b2 ch pm1 pm0 ≤ 24 := by
  have h2 := b2.toNat_le
  have hpm1 := pm1.toNat_le
  have hpm0 := pm0.toNat_le
  unfold mbType16x16
  omega

/-- The coded block pattern in an Intra_16x16 mb_type (R126). -/
theorem mbType16x16Cbp_mbType16x16 (b2 pm1 pm0 : Bool) {ch : Nat} (h : ch ≤ 2) :
    mbType16x16Cbp (mbType16x16 b2 ch pm1 pm0) = ⟨if b2 then 15 else 0, ch⟩ := by
  interval_cases ch <;> revert b2 pm1 pm0 <;> decide

/-- The prediction mode in an Intra_16x16 mb_type (R126). -/
theorem intra16x16PredMode_mbType16x16 (b2 pm1 pm0 : Bool) (ch : Nat) :
    intra16x16PredMode (mbType16x16 b2 ch pm1 pm0) = 2 * pm1.toNat + pm0.toNat := by
  have hpm1 := pm1.toNat_le
  have hpm0 := pm0.toNat_le
  unfold intra16x16PredMode mbType16x16
  omega

/-- Settles O56: each walk takes the bins one by one, and the value is taken apart by its bounds. -/
theorem mbTypeFromItsBins : Obligations.MbTypeFromItsBins := by
  intro a b s t bin
  refine ⟨fun h => ?_, fun h => ?_, fun b2 pm1 pm0 h => ?_, fun b2 b4 pm1 pm0 h => ?_, fun b2 pm1 pm0 flag ch hch => ?_,
    rfl, rfl, fun _ => rfl⟩
  · simp only [bin, readsBins_cons, readsBins_nil, exists_eq_right] at h
    simp [decodeMbType, cselAB, h]
  · simp only [bin, readsBins_cons, readsBins_nil, exists_eq_right] at h
    obtain ⟨s1, h0, h1⟩ := h
    simp [decodeMbType, cselAB, h0, h1]
  · simp only [bin, readsBins_cons, readsBins_nil, exists_eq_right] at h
    obtain ⟨s1, h0, s2, h1, s3, h2, s4, h3, s5, h4, h5⟩ := h
    simp [decodeMbType, cselAB, h0, h1, h2, h3, h4, h5, mbType16x16]
  · simp only [bin, readsBins_cons, readsBins_nil, exists_eq_right] at h
    obtain ⟨s1, h0, s2, h1, s3, h2, s4, h3, s5, h4, s6, h5, h6⟩ := h
    simp [decodeMbType, cselAB, h0, h1, h2, h3, h4, h5, h6, mbType16x16]
  · obtain ⟨hlo, hhi⟩ := mbType16x16_bounds b2 pm1 pm0 hch
    change intraPrediction (mbType16x16 b2 ch pm1 pm0) flag = _
    rw [intraPrediction, if_neg (by omega), if_pos hhi, intra16x16PredMode_mbType16x16,
      mbType16x16Cbp_mbType16x16 b2 pm1 pm0 hch]

/-! ## The intra prediction modes and mb_qp_delta -/

/-- The walk over the three bins of rem_intra4x4/8x8_pred_mode, the first the least significant (R128). -/
theorem decodeRemIntra_of_readsBins {b0 b1 b2 : Bool} {s t : State}
    (h : readsBins [(cselAB .remIntraMode 0 false false, b0), (cselAB .remIntraMode 1 false false, b1),
      (cselAB .remIntraMode 2 false false, b2)] s = some t) :
    decodeRemIntra s = some (b0.toNat + 2 * b1.toNat + 4 * b2.toNat, t) := by
  simp only [readsBins_cons, readsBins_nil, exists_eq_right] at h
  obtain ⟨s1, h0, s2, h1, h2⟩ := h
  simp [decodeRemIntra, h0, h1, h2, remIntraValue]

/-- The unary code of mb_qp_delta stands for 0, 1, -1, 2, -2 and so on (R131). -/
theorem mbQpDeltaValue_eq (n : Nat) :
    mbQpDeltaValue n = if n % 2 = 1 then ((n : Int) + 1) / 2 else -((n : Int) / 2) := by
  unfold mbQpDeltaValue
  split <;> omega

/-- Settles O57: the bins one by one, and the two unary codes by their walk. -/
theorem hostValueMaps : Obligations.HostValueMaps := by
  refine ⟨fun b0 b1 b2 s t h => decodeRemIntra_of_readsBins h, fun s t h => ?_, fun b0 b1 b2 s t h => ?_,
    fun a b n s t hn h => ?_, fun a n maxBins s t hn h => ?_⟩
  · simp only [readsBins_cons, readsBins_nil, exists_eq_right] at h
    simp [decodeIntraPredMode, decodeFlag, h]
  · rw [readsBins_cons] at h
    obtain ⟨u, hflag, hrem⟩ := h
    simp [decodeIntraPredMode, decodeFlag, hflag, decodeRemIntra_of_readsBins hrem]
  · have hbins : readsBins (unaryBins (fun k => cselAB .chromaPred k a b) 3 0 n) s = some t := by
      simpa [unaryBins, List.range_eq_range'] using h
    simpa [decodeChromaPred] using decodeUnary_of_readsBins hn hbins
  · have hbins : readsBins (unaryBins (fun j => cselAB .mbQpDelta (min j 63) a false) maxBins 0 n) s = some t := by
      simpa [unaryBins, List.range_eq_range', hn] using h
    simp [decodeMbQpDelta, decodeUnary_of_readsBins hn.le hbins, hn, mbQpDeltaValue_eq]

/-! ## coded_block_pattern -/

/-- The bins of the chroma suffix for the value `n`, which a monochrome stream does not have (R130). -/
def cbpChromaBins (monochrome : Bool) (flags : Nat → Bool × Bool) (n : Nat) : List (Instr × Bool) :=
  if monochrome then [] else unaryBins (fun k => cselAB .cbpChroma k (flags k).1 (flags k).2) 2 0 n

/-- The bin of the luma part for the block `b8`, after the bins that stand in `decoded` (R130). -/
def cbpLumaBin (flags : Nat → Nat → Bool × Bool) (b8 decoded : Nat) (bin : Bool) : Instr × Bool :=
  (cselAB .cbpLuma b8 (flags b8 decoded).1 (flags b8 decoded).2, bin)

/-- The bins of the luma part (R130). -/
def cbpLumaBins (flags : Nat → Nat → Bool × Bool) (b0 b1 b2 b3 : Bool) : List (Instr × Bool) :=
  [cbpLumaBin flags 0 0 b0, cbpLumaBin flags 1 b0.toNat b1, cbpLumaBin flags 2 (b0.toNat + 2 * b1.toNat) b2,
    cbpLumaBin flags 3 (b0.toNat + 2 * b1.toNat + 4 * b2.toNat) b3]

/-- The walk over the luma part: bin k is bit k (R130). -/
theorem decodeCbpLuma_of_readsBins {flags : Nat → Nat → Bool × Bool} {b0 b1 b2 b3 : Bool} {s t : State}
    (h : readsBins (cbpLumaBins flags b0 b1 b2 b3) s = some t) :
    decodeCbpLuma flags s = some (b0.toNat + 2 * b1.toNat + 4 * b2.toNat + 8 * b3.toNat, t) := by
  simp only [cbpLumaBins, cbpLumaBin, readsBins_cons, readsBins_nil, exists_eq_right] at h
  obtain ⟨s1, h0, s2, h1, s3, h2, h3⟩ := h
  simp [decodeCbpLuma, h0, h1, h2, h3, Nat.mul_comm _ 2, Nat.mul_comm _ 4, Nat.mul_comm _ 8]

/-- An I_NxN macroblock: the luma part, then the chroma suffix, absent and 0 where monochrome (R130; log 19). -/
theorem decodeMbCbp_of_readsBins {monochrome b0 b1 b2 b3 : Bool} {lumaFlags : Nat → Nat → Bool × Bool}
    {chromaFlags : Nat → Bool × Bool} {n : Nat} {s t : State} (hn : n ≤ 2) (hm : monochrome = true → n = 0)
    (h : readsBins (cbpLumaBins lumaFlags b0 b1 b2 b3 ++ cbpChromaBins monochrome chromaFlags n) s = some t) :
    decodeMbCbp 0 monochrome lumaFlags chromaFlags s =
      some (some ⟨b0.toNat + 2 * b1.toNat + 4 * b2.toNat + 8 * b3.toNat, n⟩, t) := by
  obtain ⟨u, hluma, hchroma⟩ := readsBins_append.mp h
  have hluma := decodeCbpLuma_of_readsBins hluma
  cases monochrome with
  | true =>
    obtain rfl : u = t := by simpa [cbpChromaBins] using hchroma
    simp [decodeMbCbp, decodeCodedBlockPattern, hluma, hm rfl]
  | false =>
    have hchroma := decodeUnary_of_readsBins hn hchroma
    simp [decodeMbCbp, decodeCodedBlockPattern, hluma, decodeCbpChroma, hchroma]

/-- An Intra_16x16 macroblock reads no bin: its mb_type carries the pattern (R130). -/
theorem decodeMbCbp_intra16x16 {mbType : Nat} (hlo : 1 ≤ mbType) (hhi : mbType ≤ 24) (monochrome : Bool)
    (lumaFlags : Nat → Nat → Bool × Bool) (chromaFlags : Nat → Bool × Bool) (s : State) :
    decodeMbCbp mbType monochrome lumaFlags chromaFlags s = some (some (mbType16x16Cbp mbType), s) := by
  rw [decodeMbCbp, if_neg (by omega), if_pos hhi]

/-- Of a neighbouring macroblock a luma bin reads whether it is I_PCM and the bit of its block (R136). -/
theorem condCbpLuma_some (b8 : Nat) (m : MbInfo) :
    condCbpLuma b8 (some m) = decide (m.kind ≠ .iPcm ∧ m.cbpLuma / 2 ^ b8 % 2 = 0) := by
  have hbit : (!m.cbpLuma.testBit b8) = decide (m.cbpLuma / 2 ^ b8 % 2 = 0) := by
    rw [Nat.testBit_eq_decide_div_mod_eq, ← decide_not, decide_eq_decide]
    exact Nat.mod_two_ne_one
  simp [condCbpLuma, hbit]

/-- Of a neighbouring macroblock a chroma bin reads whether it is I_PCM and its chroma part (R136). -/
theorem condCbpChroma_some (bin : Nat) (m : MbInfo) :
    condCbpChroma bin (some m) =
      decide (m.kind = .iPcm ∨ (if bin = 0 then m.cbpChroma ≠ 0 else m.cbpChroma = 2)) := by
  by_cases hbin : bin = 0 <;> simp [condCbpChroma, hbin]

/-- The bins of the luma part with the flags of R136: a neighbour in the same macroblock counts by its bin (log 22). -/
theorem cbpLumaBins_beside (mbA mbB : Option MbInfo) (b0 b1 b2 b3 : Bool) :
    cbpLumaBins (cbpLumaFlags mbA mbB) b0 b1 b2 b3 =
      [(cselAB .cbpLuma 0 (condCbpLuma 1 mbA) (condCbpLuma 2 mbB), b0),
        (cselAB .cbpLuma 1 (!b0) (condCbpLuma 3 mbB), b1),
        (cselAB .cbpLuma 2 (condCbpLuma 3 mbA) (!b0), b2), (cselAB .cbpLuma 3 (!b2) (!b1), b3)] := by
  cases b0 <;> cases b1 <;> cases b2 <;> rfl

/-- Settles O58: I_NxN by its bins, with any flags and with those of R136; Intra_16x16 by the value of its mb_type. -/
theorem codedBlockPatternByMbType : Obligations.CodedBlockPatternByMbType := by
  refine ⟨?_, ?_, fun _ _ _ _ => rfl, ?_, ?_⟩
  · intro monochrome b0 b1 b2 b3 lumaFlags chromaFlags n s t hn hm luma chroma h
    refine decodeMbCbp_of_readsBins hn hm ?_
    simpa [cbpChromaBins, unaryBins, List.range_eq_range', cbpLumaBins, cbpLumaBin, luma, chroma] using h
  · intro b2 pm1 pm0 monochrome ch lumaFlags chromaFlags s hch
    obtain ⟨hlo, hhi⟩ := mbType16x16_bounds b2 pm1 pm0 hch
    rw [← mbType16x16Cbp_mbType16x16 b2 pm1 pm0 hch]
    exact decodeMbCbp_intra16x16 hlo hhi _ _ _ _
  · intro monochrome b0 b1 b2 b3 mbA mbB n s t hn hm lumaOf chromaOf chroma h
    have hluma (mb : Option MbInfo) (b8 : Nat) : lumaOf mb b8 = condCbpLuma b8 mb := by
      cases mb with
      | none => rfl
      | some m => exact (condCbpLuma_some b8 m).symm
    have hchroma (mb : Option MbInfo) (bin : Nat) : chromaOf mb bin = condCbpChroma bin mb := by
      cases mb with
      | none => rfl
      | some m => exact (condCbpChroma_some bin m).symm
    refine decodeMbCbp_of_readsBins hn hm ?_
    rw [cbpLumaBins_beside]
    simpa [cbpChromaBins, unaryBins, List.range_eq_range', cbpChromaFlags, chroma, hluma, hchroma] using h
  · intro mbType monochrome mbA mbB s hlo hhi
    by_cases hpcm : mbType = 25
    · subst hpcm
      rfl
    · rw [if_neg hpcm]
      exact decodeMbCbp_intra16x16 hlo (by omega) _ _ _ _

end Sys2Proof.Machine

/-! SUPPORT. The observation commands (43_observe): the RESULT words of RDCTX and RDENG as numbers, and that the answer to
a word of either opcode does not depend on ERR; then the obligations of that family. -/

namespace Sys2Proof.Machine

open Sys2Proof

/-! ## RDCTX -/

/-- RDCTX's result word is valMPS above pStateIdx, as a number (R141). -/
theorem ctxWord_eq (x : Ctx) : ctxWord x = BitVec.ofNat 32 (x.valMPS.toNat * 64 + x.pStateIdx.toNat) := by
  rw [ctxWord, binWord, ← BitVec.ofNat_toNat, ofNat_shiftLeft,
    ofNat_or_ofNat 6 (Nat.dvd_mul_left _ _) x.pStateIdx.isLt]
  rfl

/-- RDCTX without a context memory, also where ERR is not 0 (R140, R141). -/
theorem exec_rdctx_notInit {k : CtxIdx} {s : State} (h : s.ctxv = false) :
    exec (.rdctx k) s = .next (takeError .notInit s) := by
  rw [exec, execRdctx, if_pos h]
  exact issue_runs _ (.inr rfl)

/-- A word with RDCTX's opcode is read by format R (R54, R60). -/
theorem decodeWord_eq_formatR {w : Word} (hop : bits w 31 28 = 9) : decodeWord w = formatR w := by
  rw [decodeWord, wordOpcode, hop]
  rfl

/-- Settles O40: RDCTX completes with CTXV and raises without it, both whatever ERR is; format R has must-be-0 bits. -/
theorem rdctxReportsAContext : Obligations.RdctxReportsAContext := by
  intro k s
  refine ⟨fun hc => ?_, exec_rdctx_notInit, fun w hop hb => ?_⟩
  · rw [Completes.exec_eq (i := .rdctx k) ⟨hc, rfl⟩, ctxWord_eq]
    rfl
  · exact issueWord_of_error ((decodeWord_eq_formatR hop).trans (if_neg hb)) s

/-! ## RDENG -/

/-- RDENG's result word is ENG above codIOffset above codIRange, as a number (R142). -/
theorem engineWord_eq (s : State) :
    engineWord s =
      BitVec.ofNat 32 (s.eng.code.toNat * 2 ^ 30 + s.codIOffset.toNat * 2 ^ 16 + s.codIRange.toNat) := by
  have hoffset := s.codIOffset.isLt
  have hrange := s.codIRange.isLt
  calc engineWord s
      = BitVec.ofNat 32 (s.eng.code.toNat * 2 ^ 30) ||| BitVec.ofNat 32 (s.codIOffset.toNat * 2 ^ 16) |||
          BitVec.ofNat 32 s.codIRange.toNat := by
        simp only [engineWord, ← ofNat_shiftLeft, BitVec.ofNat_toNat, BitVec.setWidth_eq]
    _ = _ := by
        rw [ofNat_or_ofNat 30 (by omega) (by omega), ofNat_or_ofNat 16 (by omega) (by omega)]

/-- ENG's code is 1 or 2 where the engine registers hold a value (R17). -/
theorem eng_code_of_ne_uninit {eng : Eng} (h : eng ≠ .uninit) :
    eng.code.toNat = if eng = .active then 1 else 2 := by
  cases eng with
  | uninit => exact absurd rfl h
  | active => rfl
  | terminated => rfl

/-- RDENG where the engine registers hold no value, also where ERR is not 0 (R140, R142). -/
theorem exec_rdeng_notInit {s : State} (h : s.eng = .uninit) : exec .rdeng s = .next (takeError .notInit s) := by
  rw [exec, execRdeng, if_pos h]
  exact issue_runs _ (.inr rfl)

/-- A word with RDENG's opcode is read by format N (R54, R55). -/
theorem decodeWord_eq_formatN_rdeng {w : Word} (hop : bits w 31 28 = 10) : decodeWord w = formatN w .rdeng := by
  rw [decodeWord, wordOpcode, hop]
  rfl

/-- Settles O41: RDENG completes unless ENG is UNINIT and raises there, both whatever ERR is; format N has no operands. -/
theorem rdengReportsTheEngine : Obligations.RdengReportsTheEngine := by
  intro s
  refine ⟨fun hu => ?_, exec_rdeng_notInit, fun w hop hb => ?_⟩
  · rw [Completes.exec_eq (i := .rdeng) ⟨hu, rfl⟩, engineWord_eq, eng_code_of_ne_uninit hu]
    rfl
  · exact issueWord_of_error ((decodeWord_eq_formatN_rdeng hop).trans (if_neg hb)) s

/-! ## Both -/

/-- Whatever ERR is, the word delivers the same RESULT, or raises the same one of the two errors that an observation can
meet (R140, R163). -/
def AnswersWhateverErr (w : Word) (s : State) : Prop :=
  (∃ r, ∀ e, issueWord w { s with err := e } = .next (complete r { s with err := e })) ∨
  ∃ c, (c = .illegalOperand ∨ c = .notInit) ∧
    ∀ e, issueWord w { s with err := e } = .next (takeError c { s with err := e })

/-- A word that is no command for its operand raises E_ILLEGAL_OPERAND. -/
theorem answersWhateverErr_of_error {w : Word} (h : decodeWord w = .error .illegalOperand) (s : State) :
    AnswersWhateverErr w s :=
  .inr ⟨.illegalOperand, .inl rfl, fun _ => issueWord_of_error h _⟩

/-- RDCTX reads only CTXV and a context (R141). -/
theorem answersWhateverErr_of_rdctx {w : Word} {k : CtxIdx} (h : decodeWord w = .ok (.rdctx k)) (s : State) :
    AnswersWhateverErr w s := by
  cases hc : s.ctxv with
  | false => exact .inr ⟨.notInit, .inr rfl, fun _ => (issueWord_of_ok h _).trans (exec_rdctx_notInit hc)⟩
  | true =>
    refine .inl ⟨ctxWord (s.ctx.get k), fun _ => (issueWord_of_ok h _).trans ?_⟩
    exact Completes.exec_eq (i := .rdctx k) ⟨hc, rfl⟩

/-- RDENG reads only ENG and the engine registers (R142). -/
theorem answersWhateverErr_of_rdeng {w : Word} (h : decodeWord w = .ok .rdeng) (s : State) :
    AnswersWhateverErr w s := by
  by_cases hu : s.eng = .uninit
  · exact .inr ⟨.notInit, .inr rfl, fun _ => (issueWord_of_ok h _).trans (exec_rdeng_notInit hu)⟩
  · refine .inl ⟨engineWord s, fun _ => (issueWord_of_ok h _).trans ?_⟩
    exact Completes.exec_eq (i := .rdeng) ⟨hu, rfl⟩

/-- A word of either opcode decodes to its command or has an illegal operand, and each answers whatever ERR is. -/
theorem answersWhateverErr_of_opcode {w : Word} (hop : bits w 31 28 = 9 ∨ bits w 31 28 = 10) (s : State) :
    AnswersWhateverErr w s := by
  rcases hop with hop | hop
  · have hd := decodeWord_eq_formatR hop
    by_cases hb : bits w 27 10 = 0
    · exact answersWhateverErr_of_rdctx (hd.trans (if_pos hb)) s
    · exact answersWhateverErr_of_error (hd.trans (if_neg hb)) s
  · have hd := decodeWord_eq_formatN_rdeng hop
    by_cases hb : bits w 27 0 = 0
    · exact answersWhateverErr_of_rdeng (hd.trans (if_pos hb)) s
    · exact answersWhateverErr_of_error (hd.trans (if_neg hb)) s

/-- Settles O42, from the answer that does not depend on ERR: a RESULT is delivered, or an error raised, which is
latched where none was. -/
theorem observationChangesOnlyResult : Obligations.ObservationChangesOnlyResult := by
  intro w s hop
  obtain ⟨r, hr⟩ | ⟨c, hc, ht⟩ := answersWhateverErr_of_opcode hop s
  · refine ⟨⟨_, hr s.err, .inl ⟨r, rfl⟩⟩, fun r' h => ?_⟩
    rw [hr] at h
    injection h with h
    obtain rfl : r = r' := congrArg State.result h
    exact hr s.err
  · refine ⟨⟨_, ht s.err, .inr ?_⟩, fun r h => ?_⟩
    · obtain ⟨he, h⟩ | h := takeError_or_same (s := s) (e := c) rfl
      · exact .inl ⟨he, c, hc, h⟩
      · exact .inr h
    · rw [ht, takeError_of_clear c rfl] at h
      injection h with h
      obtain rfl : c = .none := congrArg State.err h
      simp at hc

end Sys2Proof.Machine

/-! SUPPORT. The exceptions (60_exceptions): what a word does under a latched error, and which error a word reports; then the
obligations of that family. -/

namespace Sys2Proof.Machine

open Sys2Proof

/-! ## Waiting -/

/-- Settles O7: with an empty port a step takes no action. -/
theorem stepWaitsWithNothingPending : Obligations.StepWaitsWithNothingPending := fun _ => step_of_idle

/-! ## Raising an error -/

/-- A word after which ERR is not 0 changed at most ERR, or only delivered a RESULT (R146, R147). -/
theorem issueWord_of_err_ne_none {w : Word} {s t : State} (h : issueWord w s = .next t) (ht : t.err ≠ .none) :
    (∃ e, t = { s with err := e }) ∨ ∃ r, t = complete r s := by
  cases hd : decodeWord w with
  | ok i =>
    rw [issueWord_of_ok hd] at h
    exact exec_of_err_ne_none h ht
  | error e =>
    rw [issueWord_of_error hd] at h
    cases h
    split
    · exact .inl ⟨_, rfl⟩
    · exact .inl ⟨_, rfl⟩

/-- Settles O13: what only delivers a RESULT does not change ERR. -/
theorem errorsRollBack : Obligations.ErrorsRollBack := by
  intro w s t h hne ht
  obtain ⟨e, rfl⟩ | ⟨r, rfl⟩ := issueWord_of_err_ne_none h ht
  · rfl
  · exact absurd rfl hne

/-- Settles O14: from ERR 0 a command with ERR set after it has latched an error of its rule (`Raises`), since a completed
one leaves ERR at 0. -/
theorem eachCommandRaisesOnlyItsErrors : Obligations.EachCommandRaisesOnlyItsErrors := by
  intro i s t he h ht
  have hr : Raises i t.err := by
    obtain ⟨hl, -⟩ | ⟨-, e, hr, rfl⟩ | hc := exec_cases h
    · exact absurd he hl
    · exact hr
    · have hnone : t.err = .none := hc.err.2.elim (·.trans he) And.left
      exact absurd hnone ht
  cases i <;> exact hr

/-! ## The error latch -/

/-- CINIT, RDCTX and RDENG are the exempt opcodes (R54, R147). -/
theorem not_exempt_of_number {op : Opcode} (h1 : op.number ≠ 1) (h9 : op.number ≠ 9) (h10 : op.number ≠ 10) :
    op.exempt = false := by
  cases op with
  | cinit => exact absurd rfl h1
  | rdctx => exact absurd rfl h9
  | rdeng => exact absurd rfl h10
  | _ => rfl

/-- While ERR is not 0 a word with any other opcode does nothing, whether it decodes or not (R147). -/
theorem issueWord_refused {w : Word} {s : State} (he : s.err ≠ .none) (h1 : bits w 31 28 ≠ 1) (h9 : bits w 31 28 ≠ 9)
    (h10 : bits w 31 28 ≠ 10) : issueWord w s = .next s := by
  cases hd : decodeWord w with
  | ok i =>
    have hop : i.opcode.number = bits w 31 28 := opcode_number_of (decodeWord_ok hd).1
    rw [← hop] at h1 h9 h10
    rw [issueWord_of_ok hd]
    exact exec_refused he (not_exempt_of_number h1 h9 h10)
  | error e => rw [issueWord_of_error hd, if_neg he]

/-- A latched error stays, unless the word is the CINIT that clears it (R147 a). -/
theorem issueWord_latched_err {w : Word} {s t : State} (h : issueWord w s = .next t) (he : s.err ≠ .none) :
    t.err = s.err ∨ (t.err = .none ∧ ∃ idc qbd sqd piq, decodeWord w = .ok (.cinit .i idc qbd sqd piq) ∧ idc ≠ 3) := by
  by_cases hne : t.err = s.err
  · exact .inl hne
  · obtain ⟨-, rfl⟩ | ⟨hnone, -⟩ | ⟨i, hi, hc⟩ := issueWord_cases h
    · exact absurd rfl hne
    · exact absurd hnone he
    · obtain ⟨hnone, idc, qbd, sqd, piq, rfl, hidc⟩ := hc.err_cleared hne
      exact .inr ⟨hnone, idc, qbd, sqd, piq, hi, hidc⟩

/-- A word that leaves an error latched changes at most RESULT and its indicator (R147). -/
theorem issueWord_latched_state {w : Word} {s t : State} (h : issueWord w s = .next t) (he : s.err ≠ .none)
    (ht : t.err ≠ .none) : t = s ∨ t = complete t.result s := by
  obtain hkept | ⟨hnone, -⟩ := issueWord_latched_err h he
  · obtain ⟨e, rfl⟩ | ⟨r, rfl⟩ := issueWord_of_err_ne_none h ht
    · obtain rfl : e = s.err := hkept
      exact .inl rfl
    · exact .inr rfl
  · exact absurd hnone ht

/-- Settles O12: refusal by the opcode, then what a word can do under a latched error and under none; an exempt command
that meets its conditions completes whatever ERR is. -/
theorem errorLatchRefusesAndKeepsTheFirst : Obligations.ErrorLatchRefusesAndKeepsTheFirst := by
  refine ⟨fun w s => ⟨issueWord_refused, fun t h => ?_, fun idc qbd sqd piq hd hidc => ?_, fun k hd hc => ?_,
    fun hd hu => ?_⟩, fun s => rfl⟩
  · refine ⟨issueWord_latched_err h, issueWord_latched_state h, fun he => ?_⟩
    by_cases ht : t.err = .none
    · exact .inl ht
    · exact .inr (errorsRollBack w s t h (he ▸ ht) ht)
  · rw [issueWord_of_ok hd]
    exact ⟨_, Completes.exec_eq ⟨rfl, hidc, rfl⟩, rfl⟩
  · rw [issueWord_of_ok hd]
    exact ⟨_, Completes.exec_eq (i := .rdctx k) ⟨hc, rfl⟩⟩
  · rw [issueWord_of_ok hd]
    exact ⟨_, Completes.exec_eq (i := .rdeng) ⟨hu, rfl⟩⟩

/-! ## Precedence -/

/-- A word with CINIT's opcode is read by format I, and its command is well-formed (R54, R56). -/
theorem decodeWord_cinit {w : Word} (hop : bits w 31 28 = 1) :
    ∃ slt idc qbd sqd piq, decodeWord w = .ok (.cinit slt idc qbd sqd piq) ∧
      (Instr.cinit slt idc qbd sqd piq).wellFormed = true ∧ slt.wellFormed = true ∧ slt.code = bits w 27 25 ∧
      idc = bits w 24 23 := by
  have hd : decodeWord w = formatI w := by
    rw [decodeWord, wordOpcode, hop]
    rfl
  obtain ⟨hcode, hslt⟩ := code_sliceTypeOf (bits w 27 25) (bits_lt w 27 25)
  obtain ⟨-, -, hwf⟩ := decodeWord_ok hd
  exact ⟨_, _, _, _, _, hd, hwf, hslt, hcode, rfl⟩

/-- A slice type with a code up to 4 is not reserved (R56). -/
theorem sliceType_ne_reserved {slt : SliceType} (hwf : slt.wellFormed = true) (h : slt.code ≤ 4) (code : BitVec 3) :
    slt ≠ .reserved code := by
  rintro rfl
  have h5 : 5 ≤ code.toNat := by simpa [SliceType.wellFormed] using hwf
  exact absurd (h5.trans h) (by decide)

/-- CINIT with a defined slice type reports cabac_init_idc 3 before it reports a slice type that the unit does not support
(R76, R148). -/
theorem issueWord_cinit_raises {w : Word} {s : State} (he : s.err = .none) (hop : bits w 31 28 = 1)
    (hslt : bits w 27 25 ≤ 4) :
    (bits w 24 23 = 3 → issueWord w s = .next { s with err := .structural }) ∧
    (bits w 27 25 ≠ 2 → bits w 24 23 ≠ 3 → issueWord w s = .next { s with err := .unsupported }) := by
  obtain ⟨slt, idc, qbd, sqd, piq, hd, hwf, hsltwf, hcode, hidc⟩ := decodeWord_cinit hop
  have hdefined := sliceType_ne_reserved hsltwf (hcode ▸ hslt)
  obtain ⟨-, -, hstructural, hunsupported⟩ := cinitInitialisesEveryContext slt idc qbd sqd piq s hwf
  rw [if_pos he] at hstructural hunsupported
  rw [issueWord_of_ok hd, ← hidc, ← hcode]
  exact ⟨hstructural hdefined, fun hi => hunsupported hdefined fun heq => hi (by rw [heq]; rfl)⟩

/-- The elements with the codes 8 to 11 are the residual ones (R63). -/
theorem isResidual_of_code {se : SyntaxElement} (hw : se.wellFormed = true) (h8 : 8 ≤ se.code) (h11 : se.code ≤ 11) :
    se.isResidual = true := by
  cases se with
  | reserved code =>
    have hcode := (isReserved_iff hw).mp rfl
    omega
  | cbf | sig | last | absLevel => rfl
  | _ => exact absurd (And.intro h8 h11) (by decide)

/-- The categories with the codes 6 and 7 are the unsupported ones (R63). -/
theorem catIsUnsupported_of_code {cat : BlockCat} (h : 6 ≤ cat.code) : cat.isUnsupported = true := by
  cases cat with
  | cat6 | cat7 => rfl
  | _ => exact absurd h (by decide)

section

variable {s : State} {se : SyntaxElement} {cat : BlockCat} {idx : Nat} {a b x c : Bool}

/-- CSEL's illegal operands, by the codes of its fields (R65 d, R102, R103). -/
theorem exec_csel_illegalOperand_of_code (he : s.err = .none) (hw : se.wellFormed = true)
    (h : se.code = 14 ∨ se.code = 15 ∨ 26 ≤ se.code ∨ IdxAboveR103 se.code cat.code idx c.toNat) :
    exec (.csel se cat idx a b x c) s = .next { s with err := .illegalOperand } := by
  refine (exec_illegalOperand_iff he).mpr ?_
  rw [HasIllegalOperand, isReserved_iff hw, idxOutOfRange_iff hw]
  simpa only [or_assoc] using h

/-- What CSEL does not support, by the codes of its fields, where its operands are legal (R102, R122, R148). -/
theorem exec_csel_unsupported_of_code (he : s.err = .none) (hw : se.wellFormed = true) (hlt : se.code < 26)
    (hidx : ¬IdxAboveR103 se.code cat.code idx c.toNat)
    (h : 16 ≤ se.code ∨ (8 ≤ se.code ∧ se.code ≤ 11 ∧ 6 ≤ cat.code)) :
    exec (.csel se cat idx a b x c) s = .next { s with err := .unsupported } := by
  obtain h16 | ⟨h8, h11, h6⟩ := h
  · exact exec_csel_of_isUnsupported he (isUnsupported_of_code hw h16 (Nat.lt_succ_iff.mp hlt))
  · rw [← idxOutOfRange_iff hw, Bool.not_eq_true] at hidx
    exact exec_csel_of_cat_isUnsupported he (isResidual_of_code hw h8 h11) (catIsUnsupported_of_code h6) hidx

end

/-- A CSEL that was decoded has a code in SE that its field admits (R62). -/
theorem se_wellFormed_of_decodeWord {w : Word} {se : SyntaxElement} {cat : BlockCat} {idx : Nat} {a b x c : Bool}
    (h : decodeWord w = .ok (.csel se cat idx a b x c)) : se.wellFormed = true := by
  obtain ⟨-, -, hwf⟩ := decodeWord_ok h
  simp only [Instr.wellFormed, Bool.and_eq_true] at hwf
  exact hwf.1

/-- Settles O15: the words' checks are R65's, whatever the state; each command's own checks then come in its rule's order,
and the state's before the bits that are read. -/
theorem errorPrecedence : Obligations.ErrorPrecedence := by
  intro w s he
  have hillegal (h1 : 1 ≤ bits w 31 28) (h10 : bits w 31 28 ≤ 10) :=
    (illegalOperandExactlyWhenR65Says w s he h1 h10).mpr
  have hexec {i : Instr} (hd : decodeWord w = .ok i) : issueWord w s = exec i s := issueWord_of_ok hd s
  refine ⟨fun hop => ?undefined, issueWord_of_formatN_bits he, fun hop hb => ?dec, fun hop hb => ?lvlacc,
    fun hop hb => ?rdctx, fun hop hb => ?reservedSlice, fun hop hslt => (issueWord_cinit_raises he hop hslt).1,
    fun hop hslt => (issueWord_cinit_raises he hop hslt).2, fun se cat idx a b x c hd => ?cselFields,
    fun hop hb => ?csel, fun k hd hn => ?decState, fun hd hn => ?decSState, fun hd ha => ?bypTrmState,
    fun k hd hc => ?rdctxState, fun hd hu => ?rdengState, fun hd hc => ?einitBits, fun hd ha hc => ?bypBits,
    fun v hd hv h510 => ?einitValue⟩
  case undefined => rw [undefinedOpcodesRaiseIllegalCommand w s hop, if_pos he]
  case dec => exact hillegal (by omega) (by omega) (.inr (.inl ⟨hop, hb⟩))
  case lvlacc => exact hillegal (by omega) (by omega) (.inr (.inr (.inl ⟨hop, hb⟩)))
  case rdctx => exact hillegal (by omega) (by omega) (.inr (.inr (.inr (.inl ⟨hop, hb⟩))))
  case reservedSlice => exact hillegal (by omega) (by omega) (.inr (.inr (.inr (.inr (.inl ⟨hop, hb⟩)))))
  case csel => exact hillegal (by omega) (by omega) (.inr (.inr (.inr (.inr (.inr ⟨hop, .inl hb⟩)))))
  case cselFields =>
    rw [hexec hd]
    have hw := se_wellFormed_of_decodeWord hd
    exact ⟨exec_csel_illegalOperand_of_code he hw, fun _ _ => exec_csel_unsupported_of_code he hw⟩
  case decState => exact (hexec hd).trans (exec_decision_notInit (.inl rfl) he (hn.imp id .inl))
  case decSState =>
    exact (hexec hd).trans (exec_decision_notInit (.inr ⟨rfl, rfl⟩) he (hn.imp id (Or.imp id (⟨rfl, ·⟩))))
  case bypTrmState =>
    obtain hd | hd := hd
    · exact (hexec hd).trans (exec_byp_notInit he ha)
    · exact (hexec hd).trans (exec_trm_notInit he ha)
  case rdctxState => rw [hexec hd, exec_rdctx_notInit hc, takeError_of_clear _ he]
  case rdengState => rw [hexec hd, exec_rdeng_notInit hu, takeError_of_clear _ he]
  case einitBits => exact (hexec hd).trans (exec_einit_exhausted he ((readBitsIsBigEndian _ 9 _).2 (by decide) hc))
  case bypBits => exact (hexec hd).trans (exec_byp_exhausted he ha (readBit_eq_none hc))
  case einitValue => exact (hexec hd).trans (exec_einit_offsetInit he hv h510)

end Sys2Proof.Machine
